-- ==== Sys2Proof/Word.lean ====
section
/-!
DEFINITION. The plain words of the machine: bytes, weight codes, 32-bit patterns, and the three storage types.
Everything computed on them stands in the Machine files.
-/

namespace Sys2Proof

/-- A byte of the packed buffer or of a byte image (00_scope.md R6, 20_memory.md R36). -/
abbrev Byte := BitVec 8

/-- A 6-bit unsigned weight code (30_encoding.md R51). -/
abbrev Code := BitVec 6

/-- A binary32 bit pattern: every value of the datapath, the accumulator included (44_numerics.md R125). -/
abbrev F32 := BitVec 32

/-- The bit pattern of one element of a storage type. A 16-bit pattern stands in the low 16 bits, zeros above
(DESIGN CHOICE, log 12). -/
abbrev Elem := BitVec 32

/-- A 32-bit unsigned integer: a size or a coordinate (10_state.md R11, R12, R17). -/
abbrev U32 := BitVec 32

/-- The storage type `T` shared by A, S, Z and C (00_scope.md R5, 30_encoding.md R55). -/
inductive Ty where
  | f32
  | f16
  | bf16
  deriving DecidableEq, Repr

end Sys2Proof
end

