-- ==== Sys2Proof/Config.lean ====
section
/-!
DEFINITION. What an implementation fixes (00_scope.md R5) and the values the spec leaves free.
-/

namespace Sys2Proof

/-- `HAS_BF16`: whether the three BF16 entry points per group size exist; default `true` (00_scope.md R5,
30_encoding.md R60; log 19). -/
def Config.hasBf16 : Bool := true

/-- `KERNEL_NAME`: open in the source; the spec writes `QLK` (30_encoding.md R57; log 24). -/
def Config.kernelName : String := "QLK"

/-- `TYPE_NAME(T)`: open in the source; the spec writes `F32`, `F16`, `BF16` (30_encoding.md R57; log 24). -/
def Config.typeName : Ty → String
  | .f32 => "F32"
  | .f16 => "F16"
  | .bf16 => "BF16"

/-- The unspecified values that the elements of C hold after an abort (60_exceptions.md R154), and that a read of C gets
before DONE (93_implementation_defined.md U12): a free value per draw, about which nothing is known (logs 9, 29). -/
opaque Config.freeElem : Nat → Elem

end Sys2Proof
end

