-- ==== Sys2Proof/Syntax.lean ====
section
/-!
DEFINITION. The instructions of the block: its twelve entry points, one constructor per row of
spec/opcode_table.json (30_encoding.md R59). An entry point has no operand fields: its operands are the six bound slots
of the dispatch configuration. The datapath operations have no encoding and are no instructions (30_encoding.md R61).
-/

namespace Sys2Proof

/-- The twelve entry points `QLK_<GS>_<T>` (43_dispatch.md R105 to R116). -/
inductive Instr where
  /-- SEL = 0b0000 (R105) -/
  | qlk32F32
  /-- SEL = 0b0001 (R106) -/
  | qlk64F32
  /-- SEL = 0b0010 (R107) -/
  | qlk128F32
  /-- SEL = 0b0011 (R108) -/
  | qlk256F32
  /-- SEL = 0b0100 (R109) -/
  | qlk32F16
  /-- SEL = 0b0101 (R110) -/
  | qlk64F16
  /-- SEL = 0b0110 (R111) -/
  | qlk128F16
  /-- SEL = 0b0111 (R112) -/
  | qlk256F16
  /-- SEL = 0b1000 (R113) -/
  | qlk32Bf16
  /-- SEL = 0b1001 (R114) -/
  | qlk64Bf16
  /-- SEL = 0b1010 (R115) -/
  | qlk128Bf16
  /-- SEL = 0b1011 (R116) -/
  | qlk256Bf16
  deriving DecidableEq, Repr

end Sys2Proof
end

