-- ==== Sys2Proof/WellFormed.lean ====
section
/-!
DEFINITION. Which instructions are well formed: an F32 or F16 entry point always, a BF16 entry point when the
implementation has bfloat16 (30_encoding.md R60, opcode_table.json "present").
-/

namespace Sys2Proof

/-- Whether the entry point is one of the four BF16 rows (43_dispatch.md R113 to R116). -/
def Instr.needsBf16 : Instr → Bool
  | .qlk32F32 | .qlk64F32 | .qlk128F32 | .qlk256F32 => false
  | .qlk32F16 | .qlk64F16 | .qlk128F16 | .qlk256F16 => false
  | .qlk32Bf16 | .qlk64Bf16 | .qlk128Bf16 | .qlk256Bf16 => true

/-- The entry point exists in an implementation with this `HAS_BF16`. -/
def Instr.presentIn (hasBf16 : Bool) (i : Instr) : Bool := hasBf16 || !i.needsBf16

/-- The entry point exists in this implementation. -/
def Instr.wellFormed (i : Instr) : Bool := i.presentIn Config.hasBf16

end Sys2Proof
end

