-- ==== Sys2Proof/Decode.lean ====
section
/-!
DEFINITION. Decoding the entry-point selector, and the encoder written from the same table (30_encoding.md R58 to R60;
opcode_table.json format SEL4). The other encoding of this hardware, the packed window P6x4, is data: it is decoded by
UNPACK (Machine/BitUnpacker.lean).
-/

namespace Sys2Proof

/-- Why a selector names no entry point (30_encoding.md R60). -/
inductive DecodeError where
  /-- `TYPE = 0b11`: reserved -/
  | reservedType
  /-- `TYPE = 0b10` where `HAS_BF16` is false -/
  | noBf16
  /-- the value does not fit the 4-bit selector, or no byte was given -/
  | notASelector
  deriving DecidableEq, Repr

/-- Decoding under a given `HAS_BF16`: `TYPE = SEL[3:2]`, `GSEL = SEL[1:0]` (30_encoding.md R58, R59, R60). -/
def decodeSelWith (hasBf16 : Bool) (sel : BitVec 4) : Except DecodeError Instr :=
  let gsel := (sel.extractLsb' 0 2).toNat
  match (sel.extractLsb' 2 2).toNat with
  | 0 => .ok (match gsel with | 0 => .qlk32F32 | 1 => .qlk64F32 | 2 => .qlk128F32 | _ => .qlk256F32)
  | 1 => .ok (match gsel with | 0 => .qlk32F16 | 1 => .qlk64F16 | 2 => .qlk128F16 | _ => .qlk256F16)
  | 2 =>
    if hasBf16 then
      .ok (match gsel with | 0 => .qlk32Bf16 | 1 => .qlk64Bf16 | 2 => .qlk128Bf16 | _ => .qlk256Bf16)
    else .error .noBf16
  | _ => .error .reservedType

/-- Decoding in this implementation. -/
def decodeSel (sel : BitVec 4) : Except DecodeError Instr := decodeSelWith Config.hasBf16 sel

/-- The selector held in a byte: its low four bits, the others zero (log 23). -/
def selOfByte (b : Byte) : Except DecodeError (BitVec 4) :=
  if b.toNat < 16 then .ok (BitVec.ofNat 4 b.toNat) else .error .notASelector

/-- Decoding a list of bytes: the selector is the first byte, the rest is returned. -/
def decodeBytes : List Byte → Except DecodeError (Instr × List Byte)
  | [] => .error .notASelector
  | b :: rest =>
    match selOfByte b with
    | .error e => .error e
    | .ok sel =>
      match decodeSel sel with
      | .error e => .error e
      | .ok i => .ok (i, rest)

/-- `TYPE` of an entry point (30_encoding.md R59). -/
def Instr.typeField : Instr → BitVec 2
  | .qlk32F32 | .qlk64F32 | .qlk128F32 | .qlk256F32 => 0b00#2
  | .qlk32F16 | .qlk64F16 | .qlk128F16 | .qlk256F16 => 0b01#2
  | .qlk32Bf16 | .qlk64Bf16 | .qlk128Bf16 | .qlk256Bf16 => 0b10#2

/-- `GSEL` of an entry point (30_encoding.md R59). -/
def Instr.gselField : Instr → BitVec 2
  | .qlk32F32 | .qlk32F16 | .qlk32Bf16 => 0b00#2
  | .qlk64F32 | .qlk64F16 | .qlk64Bf16 => 0b01#2
  | .qlk128F32 | .qlk128F16 | .qlk128Bf16 => 0b10#2
  | .qlk256F32 | .qlk256F16 | .qlk256Bf16 => 0b11#2

/-- The encoder: `SEL = TYPE ∥ GSEL` (30_encoding.md R59). -/
def encodeSel (i : Instr) : BitVec 4 := i.typeField ++ i.gselField

/-- The selector as one byte. -/
def encodeBytes (i : Instr) : List Byte := [(encodeSel i).setWidth 8]

/-- The storage type an entry point binds (43_dispatch.md R104, R105 to R116). -/
def Instr.ty (i : Instr) : Ty :=
  match i.typeField.toNat with
  | 0 => .f32
  | 1 => .f16
  | _ => .bf16

/-- The group size an entry point binds: `GS = 32 << GSEL` (30_encoding.md R58). -/
def Instr.gs (i : Instr) : Nat := 32 <<< i.gselField.toNat

/-- The entry point's name by the convention `<kernel-name>_<groupSize>_<typeName>` (30_encoding.md R57). -/
def Instr.entryName (i : Instr) : String :=
  Config.kernelName ++ "_" ++ toString i.gs ++ "_" ++ Config.typeName i.ty

/-- The selector that a table word stands for: the word itself when it fits four bits, a reserved selector otherwise. -/
def selOfWord (w : Nat) : BitVec 4 := if w < 16 then BitVec.ofNat 4 w else 0b1111#4

/-- The instruction the decoder reads from the bits `w` of a table row: one byte, given to `decodeBytes`. -/
def decodeTableWord (_nbits w : Nat) : Option Instr :=
  if w < 256 then
    match decodeBytes [BitVec.ofNat 8 w] with
    | .ok (i, _) => some i
    | .error _ => none
  else none

end Sys2Proof
end

