-- ==== Sys2Proof/Machine/State.lean ====
section
/-!
DEFINITION. The state of the machine as plain data, the reasons it stops, and the state after reset
(10_state.md, 70_reset_and_hazards.md R170). The fields the spec does not name are the model's own and say so.
-/

namespace Sys2Proof.Machine

/-- `STATUS` (10_state.md R14). -/
inductive Status where
  /-- no dispatch in progress -/
  | idle
  /-- a dispatch is in progress: CFG and the inputs must not change, C is the hardware's -/
  | running
  /-- every work unit has retired and C holds the result -/
  | done
  deriving DecidableEq, Repr

/-- `phase` of a work unit (10_state.md R17). -/
inductive Phase where
  /-- created, not started -/
  | ready
  | active
  /-- has written C -/
  | retired
  deriving DecidableEq, Repr

/-- The operation of the sequence of 42_reduce.md R86 that a work unit does next (the model's own; log 6). -/
inductive UnitOp where
  | fetchSZ
  | loadWin
  | unpack
  | mac (lane : Fin 4)
  | storeC
  deriving DecidableEq, Repr

/-- The private registers of one work unit (10_state.md R17). The registers whose start value the spec calls
unspecified hold no value until their first write (R20; log 5). -/
structure WorkUnit where
  /-- column index `n` -/
  gx : U32
  /-- row index `m` -/
  gy : U32
  /-- current group -/
  kb : Nat
  /-- position counter -/
  k : Nat
  /-- positions consumed in the current group -/
  c : Nat
  /-- scale of the current group -/
  s : Option F32
  /-- zero-point of the current group -/
  z : Option F32
  b0 : Option Byte
  b1 : Option Byte
  b2 : Option Byte
  w0 : Option Code
  w1 : Option Code
  w2 : Option Code
  w3 : Option Code
  /-- the running sum -/
  acc : F32
  phase : Phase
  /-- the next operation (the model's own) -/
  op : UnitOp
  deriving DecidableEq, Repr

/-- A buffer view: a non-owning reference into the host's memory with an explicit length (10_state.md R13).
`base` is a byte address of the host's memory (log 1); `len` counts elements of `T` for A, S, Z and C, bytes for B,
integers for the size descriptor (10_state.md R11). -/
structure View where
  base : Nat
  len : Nat
  deriving DecidableEq, Repr

/-- The six slots of `CFG.BIND` (10_state.md R11). -/
inductive Slot where
  /-- slot 0, activations -/
  | a
  /-- slot 1, packed weights -/
  | b
  /-- slot 2, scales -/
  | s
  /-- slot 3, zero-points -/
  | z
  /-- slot 4, size descriptor -/
  | desc
  /-- slot 5, output -/
  | c
  deriving DecidableEq, Repr

/-- `CFG.BIND[0..5]`: `none` is "unbound" (10_state.md R11, R25). -/
structure Bind where
  a : Option View
  b : Option View
  s : Option View
  z : Option View
  desc : Option View
  c : Option View
  deriving DecidableEq, Repr

/-- The dispatch configuration `CFG` (10_state.md R11). -/
structure Cfg where
  /-- entry-point selector -/
  sel : BitVec 4
  /-- rows of A and C -/
  m : U32
  /-- reduction length -/
  k : U32
  /-- columns of C -/
  n : U32
  /-- the size triple last written does not fit 32 bits, which a LAUNCH refuses (60_exceptions.md R151 V3; the model's own,
  log 17) -/
  oversize : Bool
  bind : Bind
  deriving DecidableEq, Repr

/-- The extents of a launched grid: `x` columns, `y` rows (43_dispatch.md R101). -/
structure Grid where
  x : Nat
  y : Nat
  deriving DecidableEq, Repr

/-- What the host may do besides LAUNCH (60_exceptions.md R157, 10_state.md R14, R25). -/
inductive HostMove where
  /-- write `CFG.SEL` (H4) -/
  | writeSel (v : BitVec 4)
  /-- write `CFG.M`, `CFG.K`, `CFG.N` (H3) -/
  | writeSize (m k n : Nat)
  /-- bind a slot (H3) -/
  | bind (slot : Slot) (v : View)
  /-- store bytes in its own memory: fill a buffer, or anything else (H1, H2, H8) -/
  | store (addr : Nat) (bytes : List Byte)
  /-- read STATUS (R14) or an input buffer (H9); a step of the machine ends here (log 8) -/
  | look
  /-- read C (H8); while RUNNING it gets any value (93_implementation_defined.md U12; log 29) -/
  | readC
  /-- abort the dispatch (H7, R154) -/
  | abort
  /-- reset the block (R25, 70_reset_and_hazards.md R170) -/
  | reset
  deriving DecidableEq, Repr

/-- Which agent moves next (the model's own; log 7): a work unit, picked by its number among those not yet retired,
or the host. -/
inductive Move where
  | unit (pick : Nat)
  | launch (grid : Grid)
  | host (h : HostMove)
  deriving DecidableEq, Repr

/-- The host's memory: (address, byte) pairs in canonical form (`Memory.wf`, Machine/Ops.lean), addresses strictly
rising, no byte equal to what an unlisted address reads as. -/
abbrev Memory := List Host.Cell

/-- The state of the machine. -/
structure State where
  /-- `STATUS` -/
  status : Status
  /-- `CFG` -/
  cfg : Cfg
  /-- the work units of the dispatch in progress; none outside one (70_reset_and_hazards.md R170) -/
  units : List WorkUnit
  /-- the host's memory, which holds the five buffers (10_state.md R23) -/
  mem : Memory
  /-- the extents of the launch last asked for (the model's own; log 11) -/
  grid : Grid
  /-- the moves still to come (the model's own; log 7) -/
  agenda : List Move
  /-- how many free values have been drawn (the model's own; logs 9, 29) -/
  draws : Nat
  /-- what the host's last read of C gave it, element by element (the model's own; log 29) -/
  seenC : List Elem
  deriving DecidableEq, Repr

/-- Why the machine stops with a fault. The hardware itself raises nothing (60_exceptions.md R150); these are the
model's marks (R151). -/
inductive Fault where
  /-- Raised by LOADWIN, FETCHSZ, MAC and STOREC at an index at or beyond the bound view's length (20_memory.md R41).
  Safe: the spec calls the result undefined and asks for this fault. -/
  | outOfBounds
  /-- Raised by UNPACK and MAC reading a work-unit register before its first write (10_state.md R20).
  Safe: the spec asks for this fault, and no run reaches it. -/
  | unwrittenRegister
  deriving DecidableEq, Repr

/-- Why the machine gives a step no meaning (60_exceptions.md R151). All are safe: no claim can be proved of the
refused dispatch. -/
inductive Refusal where
  /-- `exec`'s arm of an instruction without a meaning. Safe. -/
  | notModelled (mnemonic : String)
  /-- V1: LAUNCH under a selector that names no implemented entry point. Safe. -/
  | unsupportedSelector
  /-- V2: LAUNCH with K not a multiple of 4. Safe. -/
  | kNotMultipleOf4
  /-- V3: LAUNCH with M or N zero or K below 4, or with a size that the host wrote as 2^32 or more. Safe. -/
  | emptyOrOversizeDimension
  /-- V4: LAUNCH with a slot unbound, or A, B or C too short. Safe. -/
  | shortBuffer
  /-- V5: LAUNCH with S or Z shorter than G·N. Safe. -/
  | shortTable
  /-- V7: LAUNCH of a grid that is not N × M. Safe. -/
  | gridMismatch
  /-- V8: LAUNCH with C overlapping an input view or the descriptor. Safe. -/
  | outputAliasesInput
  /-- V9: the host writes CFG or a bound buffer while RUNNING, which has no defined effect (20_memory.md R46) and which a
  model refuses (92_eei_decisions.md D30, 93_implementation_defined.md U9). Safe. -/
  | hostDutyBreached
  /-- V10: LAUNCH while RUNNING. Safe. -/
  | busy
  deriving DecidableEq, Repr

/-- Every slot unbound (10_state.md R25). -/
def Bind.unbound : Bind := ⟨none, none, none, none, none, none⟩

/-- `CFG` after reset: unspecified fields at values that violate PRE_SEL and PRE_DIMS, as a launch with an unwritten
field must (70_reset_and_hazards.md R170; log 3), every slot unbound. -/
def Cfg.reset : Cfg := ⟨0b1111#4, 0#32, 0#32, 0#32, false, Bind.unbound⟩

/-- The machine right after reset (10_state.md R25, 70_reset_and_hazards.md R170). -/
def State.reset : State :=
  { status := .idle
    cfg := Cfg.reset
    units := []
    mem := []
    grid := ⟨0, 0⟩
    agenda := []
    draws := 0
    seenC := [] }

end Sys2Proof.Machine
end

