-- ==== Sys2Proof/Machine/Ops.lean ====
section
/-!
DEFINITION. The named operations over memory and registers: bytes, little-endian items, elements of a view, the reset
of the block, and the abort of a dispatch. This hardware takes no exception and returns from none (60_exceptions.md
R150, R154, R155); the abort is the one way besides completion that a dispatch ends, and stands in that place.
-/

namespace Sys2Proof

/-- Bytes of one element of `T` (20_memory.md R30, 44_numerics.md R125). -/
def Ty.bytes : Ty → Nat
  | .f32 => 4
  | .f16 => 2
  | .bf16 => 2

end Sys2Proof

namespace Sys2Proof.Machine

/-! ### Bytes -/

/-- What an address that memory does not list reads as (log 2). -/
def Memory.unlisted : Byte := 0#8

/-- The byte at an address. -/
def Memory.readByte : Memory → Nat → Byte
  | [], _ => Memory.unlisted
  | (a, b) :: m, x => if a = x then b else Memory.readByte m x

/-- Writing one byte, keeping the canonical form: the list stays sorted, and writing what an unlisted address reads as
removes the entry. -/
def Memory.writeByte : Memory → Nat → Byte → Memory
  | [], x, v => if v = Memory.unlisted then [] else [(x, v)]
  | (a, b) :: m, x, v =>
    if x < a then (if v = Memory.unlisted then (a, b) :: m else (x, v) :: (a, b) :: m)
    else if x = a then (if v = Memory.unlisted then m else (x, v) :: m)
    else (a, b) :: Memory.writeByte m x v

/-- The canonical form: addresses strictly rising, no entry equal to what an unlisted address reads as. -/
abbrev Memory.wf (m : Memory) : Prop :=
  List.Pairwise (fun p q : Host.Cell => p.1 < q.1) m ∧ ∀ p ∈ m, p.2 ≠ Memory.unlisted

/-- Writing a run of bytes at rising addresses. -/
def Memory.writeBytes (m : Memory) (addr : Nat) : List Byte → Memory
  | [] => m
  | b :: bs => Memory.writeBytes (Memory.writeByte m addr b) (addr + 1) bs

/-! ### Items of several bytes: little-endian (20_memory.md R36) -/

/-- The unsigned value of `n` bytes, the least significant at the lowest address. -/
def Memory.readLE (m : Memory) (addr : Nat) : Nat → Nat
  | 0 => 0
  | n + 1 => (m.readByte addr).toNat + 256 * Memory.readLE m (addr + 1) n

/-- Writing the low `n` bytes of a value, the least significant at the lowest address. -/
def Memory.writeLE (m : Memory) (addr : Nat) : Nat → Nat → Memory
  | 0, _ => m
  | n + 1, v => Memory.writeLE (m.writeByte addr (BitVec.ofNat 8 v)) (addr + 1) n (v / 256)

/-! ### Elements of a view -/

/-- The byte address of the element at linear index `idx` of a view. -/
def View.elemAddr (ty : Ty) (v : View) (idx : Nat) : Nat := v.base + idx * ty.bytes

/-- The element pattern at linear index `idx` of a view, its length not considered. -/
def Memory.elemAt (m : Memory) (ty : Ty) (v : View) (idx : Nat) : Elem :=
  BitVec.ofNat 32 (m.readLE (v.elemAddr ty idx) ty.bytes)

/-- The memory with the element at linear index `idx` of a view replaced, its length not considered. -/
def Memory.setElem (m : Memory) (ty : Ty) (v : View) (idx : Nat) (e : Elem) : Memory :=
  m.writeLE (v.elemAddr ty idx) ty.bytes e.toNat

/-- The length of a slot's view; an unbound slot has none of its own and no index is inside it. -/
def slotLen : Option View → Nat
  | none => 0
  | some v => v.len

/-- The view of a slot whose length makes every access of it a fault when the slot is unbound. -/
def slotView : Option View → View
  | none => ⟨0, 0⟩
  | some v => v

/-- `MemRead(X, idx)` for an element buffer: a fault outside the bound view (20_memory.md R41). -/
def readElem (ty : Ty) (v : Option View) (m : Memory) (idx : Nat) : Except Fault Elem :=
  if idx < slotLen v then .ok (m.elemAt ty (slotView v) idx) else .error .outOfBounds

/-- `MemRead(B, off, 3)`: the three bytes at `off`, `off+1`, `off+2` (00_scope.md R7, 40_unpack.md R71). -/
def readWindow (v : Option View) (m : Memory) (off : Nat) : Except Fault (Byte × Byte × Byte) :=
  if off + 2 < slotLen v then
    .ok (m.readByte ((slotView v).base + off), m.readByte ((slotView v).base + off + 1),
      m.readByte ((slotView v).base + off + 2))
  else .error .outOfBounds

/-- `MemWrite(C, idx, v)`: a fault outside the bound view (42_reduce.md R92, 20_memory.md R41). -/
def writeElem (ty : Ty) (v : Option View) (m : Memory) (idx : Nat) (e : Elem) : Except Fault Memory :=
  if idx < slotLen v then .ok (m.setElem ty (slotView v) idx e) else .error .outOfBounds

/-! ### Registers -/

/-- Reading a work-unit register that holds no value before its first write is a fault (10_state.md R20). -/
def readReg {α : Type} : Option α → Except Fault α
  | some x => .ok x
  | none => .error .unwrittenRegister

/-- The view bound to a slot. -/
def Bind.get (b : Bind) : Slot → Option View
  | .a => b.a
  | .b => b.b
  | .s => b.s
  | .z => b.z
  | .desc => b.desc
  | .c => b.c

/-- Binding a view to a slot. -/
def Bind.set (b : Bind) (slot : Slot) (v : View) : Bind :=
  match slot with
  | .a => { b with a := some v }
  | .b => { b with b := some v }
  | .s => { b with s := some v }
  | .z => { b with z := some v }
  | .desc => { b with desc := some v }
  | .c => { b with c := some v }

/-! ### Reset and abort -/

/-- Reset of the block: STATUS idle, CFG unspecified and unbound, no work unit (10_state.md R25,
70_reset_and_hazards.md R170); the host's memory is not the block's and stays. -/
def resetBlock (s : State) : State :=
  { s with status := .idle, cfg := Cfg.reset, units := [] }

/-- The memory with the first `count` elements of a view replaced by free values, drawn from number `d` on. -/
def drawElems (ty : Ty) (v : View) (m : Memory) (d : Nat) : Nat → Memory
  | 0 => m
  | n + 1 => (drawElems ty v m d n).setElem ty v n (Config.freeElem (d + n))

/-- `count` free values drawn from number `d` on, each a pattern of `T`. -/
def freeElems (ty : Ty) (d count : Nat) : List Elem :=
  (List.range count).map fun j => BitVec.ofNat 32 ((Config.freeElem (d + j)).toNat % 256 ^ ty.bytes)

/-- The abort of a dispatch: all work units cease to exist, STATUS idle, every element of `C[0 .. M·N)` unspecified,
CFG kept (60_exceptions.md R154; log 9). -/
def abortDispatch (ty : Ty) (s : State) : State :=
  let count := s.cfg.m.toNat * s.cfg.n.toNat
  { s with
    status := .idle
    units := []
    mem := drawElems ty (slotView s.cfg.bind.c) s.mem s.draws count
    draws := s.draws + count }

end Sys2Proof.Machine
end

