-- ==== Sys2Proof/Machine/Operands.lean ====
section
/-!
DEFINITION. The operand forms: the constants an entry point binds, the three sizes, and the linear index of every
access a work unit makes (20_memory.md R31 to R35, 41_dequant.md R75). All index arithmetic is on naturals and nothing
wraps (20_memory.md R35).
-/

namespace Sys2Proof.Machine

/-- The two constants an entry point binds: group size and storage type (43_dispatch.md R104). -/
structure Params where
  gs : Nat
  ty : Ty
  deriving DecidableEq, Repr

/-- `M` as a natural. -/
def Cfg.rows (c : Cfg) : Nat := c.m.toNat

/-- `K` as a natural. -/
def Cfg.depth (c : Cfg) : Nat := c.k.toNat

/-- `N` as a natural. -/
def Cfg.cols (c : Cfg) : Nat := c.n.toNat

/-- `G = ceil(K / GS)` (10_state.md R12, 41_dequant.md R75). -/
def groups (gs k : Nat) : Nat := (k + gs - 1) / gs

/-- The number of positions of group `kb`: `GS`, or what is left of K in the last group (41_dequant.md R75). -/
def groupSize (gs k kb : Nat) : Nat := min gs (k - gs * kb)

/-- `ROWB = 3·K/4`, the bytes of one packed row (20_memory.md R32). -/
def rowBytes (k : Nat) : Nat := 3 * k / 4

/-- `WINADDR(n, k)`: byte offset of the window that holds position `pos` of column `n` (40_unpack.md R70). -/
def winAddr (k n pos : Nat) : Nat := n * rowBytes k + 3 * (pos / 4)

/-- Linear index of `A[m, pos]` (20_memory.md R31). -/
def idxA (k m pos : Nat) : Nat := m * k + pos

/-- Linear index of `S[kb, n]` and `Z[kb, n]` (20_memory.md R33). -/
def idxSZ (n kb col : Nat) : Nat := kb * n + col

/-- Linear index of `C[row, col]` (20_memory.md R34). -/
def idxC (n row col : Nat) : Nat := row * n + col

/-- The byte range `(base, length)` a bound slot covers under storage type `T`: `len` elements, `len` bytes for B,
twelve bytes for the descriptor (20_memory.md R30, 30_encoding.md R56). An unbound slot covers nothing. -/
def slotRange (ty : Ty) (b : Bind) (slot : Slot) : Nat × Nat :=
  match b.get slot with
  | none => (0, 0)
  | some v =>
    match slot with
    | .b => (v.base, v.len)
    | .desc => (v.base, 4 * v.len)
    | _ => (v.base, v.len * ty.bytes)

/-- Two byte ranges share a byte. -/
def rangesMeet (p q : Nat × Nat) : Bool :=
  decide (0 < p.2) && decide (0 < q.2) && decide (p.1 < q.1 + q.2) && decide (q.1 < p.1 + p.2)

/-- The six slots, in the order of their numbers. -/
def allSlots : List Slot := [.a, .b, .s, .z, .desc, .c]

/-- The slots C must not overlap (43_dispatch.md R100, PRE_NOALIAS). -/
def inputSlots : List Slot := [.a, .b, .s, .z, .desc]

end Sys2Proof.Machine
end

