-- ==== Sys2Proof/Machine/HostMoves.lean ====
section
/-!
DEFINITION. What the host does besides LAUNCH: writing CFG, filling its memory, looking, reading C, aborting, resetting
(60_exceptions.md R157; 10_state.md R14, R25; 60_exceptions.md R154).
-/

namespace Sys2Proof.Machine

/-- A write of CFG outside a dispatch; it returns STATUS to IDLE (10_state.md R14). -/
def writeCfg (s : State) (cfg : Cfg) : State := { s with cfg := cfg, status := .idle }

/-- The byte range `bytes` would be stored to meets a bound view (duties H5, H6). -/
def storeTouchesView (ty : Ty) (b : Bind) (addr : Nat) (bytes : List Byte) : Bool :=
  allSlots.any fun slot => rangesMeet (addr, bytes.length) (slotRange ty b slot)

/-- The sizes the host writes (10_state.md R11, R12). A triple that does not fit 32 bits leaves the fields as they were and
marks them oversize: whether a size is refused is decided at LAUNCH (60_exceptions.md R151, R153; log 17). -/
def writeSizes (cfg : Cfg) (m k n : Nat) : Cfg :=
  if m < 2 ^ 32 ∧ k < 2 ^ 32 ∧ n < 2 ^ 32 then
    { cfg with m := BitVec.ofNat 32 m, k := BitVec.ofNat 32 k, n := BitVec.ofNat 32 n, oversize := false }
  else { cfg with oversize := true }

/-- The elements of C that a read of C covers: `C[0 .. M·N)`, as far as a bound view reaches. -/
def outputCount (cfg : Cfg) : Nat := min (cfg.rows * cfg.cols) (slotLen cfg.bind.c)

/-- The host reads C while no dispatch is in progress: it gets the elements memory holds (20_memory.md R44,
60_exceptions.md R157 H8). Under a selector that names no entry point C has no element type, and the read gives none
(log 29). -/
def readOutput (s : State) : State :=
  { s with seenC :=
      match decodeSel s.cfg.sel with
      | .ok i => (List.range (outputCount s.cfg)).map fun j => s.mem.elemAt i.ty (slotView s.cfg.bind.c) j
      | .error _ => [] }

/-- The host reads C before DONE: it may rely on none of the writes (20_memory.md R44), and gets any value for every element
(93_implementation_defined.md U12; log 29). -/
def readUnfinished (ty : Ty) (s : State) : State :=
  { s with seenC := freeElems ty s.draws (outputCount s.cfg), draws := s.draws + outputCount s.cfg }

/-- A host move while no dispatch is in progress (60_exceptions.md R157 H1 to H4, H8). -/
def hostIdle (h : HostMove) (s : State) : Host.Outcome State Fault Refusal :=
  match h with
  | .writeSel v => .next (writeCfg s { s.cfg with sel := v })
  | .writeSize m k n => .next (writeCfg s (writeSizes s.cfg m k n))
  | .bind slot v => .next (writeCfg s { s.cfg with bind := s.cfg.bind.set slot v })
  | .store addr bytes => .next { s with mem := s.mem.writeBytes addr bytes }
  | .look => .next s
  | .readC => .next (readOutput s)
  | .abort => .next s
  | .reset => .next (resetBlock s)

/-- A host move while a dispatch of storage type `ty` is in progress. A write of CFG or of a bound buffer has no defined
effect (duties H5, H6; 20_memory.md R46) and is refused (92_eei_decisions.md D30, 93_implementation_defined.md U9; log 13);
a read of C gets any value (U12); looking, storing elsewhere, aborting (H7, R154) and resetting go on. -/
def hostRunning (ty : Ty) (h : HostMove) (s : State) : Host.Outcome State Fault Refusal :=
  match h with
  | .writeSel _ => .refused .hostDutyBreached
  | .writeSize _ _ _ => .refused .hostDutyBreached
  | .bind _ _ => .refused .hostDutyBreached
  | .store addr bytes =>
    if storeTouchesView ty s.cfg.bind addr bytes then .refused .hostDutyBreached
    else .next { s with mem := s.mem.writeBytes addr bytes }
  | .look => .next s
  | .readC => .next (readUnfinished ty s)
  | .abort => .next (abortDispatch ty s)
  | .reset => .next (resetBlock (abortDispatch ty s))

/-- What the machine does next. -/
inductive Turn where
  /-- it executes the selected entry point at this state: a launch, or a dispatch in progress going on -/
  | execute (s : State)
  /-- something else happened, with this outcome -/
  | other (o : Host.Outcome State Fault Refusal)

/-- Whose turn it is: a dispatch in progress goes on; otherwise the head of the agenda decides, and with nothing to come
the block waits. A pick of a work unit when none exists does nothing. -/
def turn (s : State) : Turn :=
  match s.status with
  | .running => .execute s
  | .idle | .done =>
    match s.agenda with
    | [] => .other (.next s)
    | .unit _ :: rest => .other (.next { s with agenda := rest })
    | .launch g :: rest => .execute { s with agenda := rest, grid := g }
    | .host h :: rest => .other (hostIdle h { s with agenda := rest })

end Sys2Proof.Machine
end

