-- ==== Sys2Proof/Machine/BitUnpacker.lean ====
section
/-!
DEFINITION. The Bit Unpacker: LOADWIN fetches the window of the current position, UNPACK decodes its four codes; PACK is
the reference inverse (40_unpack.md).
-/

namespace Sys2Proof.Machine

/-- The four codes of a window. -/
structure Codes where
  w0 : Code
  w1 : Code
  w2 : Code
  w3 : Code
  deriving DecidableEq, Repr

/-- `UNPACK(b0, b1, b2)` by the source's formulas, evaluated in 8 bits (40_unpack.md R65, R67). -/
def unpackWindow (b0 b1 b2 : Byte) : Codes :=
  { w0 := (((b0 &&& 0x03#8) <<< 4) ||| (b1 &&& 0x0F#8)).setWidth 6
    w1 := (((b0 &&& 0x0C#8) <<< 2) ||| ((b1 &&& 0xF0#8) >>> 4)).setWidth 6
    w2 := ((b0 &&& 0x30#8) ||| (b2 &&& 0x0F#8)).setWidth 6
    w3 := (((b0 &&& 0xC0#8) >>> 2) ||| ((b2 &&& 0xF0#8) >>> 4)).setWidth 6 }

/-- `PACK(w0, w1, w2, w3)`, the inverse; not a hardware operation (40_unpack.md R68). -/
def packWindow (w : Codes) : Byte × Byte × Byte :=
  (w.w3.extractLsb' 4 2 ++ w.w2.extractLsb' 4 2 ++ w.w1.extractLsb' 4 2 ++ w.w0.extractLsb' 4 2,
    w.w1.extractLsb' 0 4 ++ w.w0.extractLsb' 0 4,
    w.w3.extractLsb' 0 4 ++ w.w2.extractLsb' 0 4)

/-- The code of a lane (30_encoding.md R52: lane `i` is the code of position `4·j + i`). -/
def Codes.lane (w : Codes) (i : Nat) : Code :=
  match i with
  | 0 => w.w0
  | 1 => w.w1
  | 2 => w.w2
  | _ => w.w3

/-- LOADWIN (40_unpack.md R71). -/
def opLoadWin (cfg : Cfg) (m : Memory) (u : WorkUnit) : Except Fault WorkUnit := do
  let win ← readWindow cfg.bind.b m (winAddr cfg.depth u.gx.toNat u.k)
  .ok { u with b0 := some win.1, b1 := some win.2.1, b2 := some win.2.2, op := .unpack }

/-- UNPACK (40_unpack.md R65): the window's registers to the four code registers; the first MAC follows (R72). -/
def opUnpack (u : WorkUnit) : Except Fault WorkUnit := do
  let b0 ← readReg u.b0
  let b1 ← readReg u.b1
  let b2 ← readReg u.b2
  let w := unpackWindow b0 b1 b2
  .ok { u with w0 := some w.w0, w1 := some w.w1, w2 := some w.w2, w3 := some w.w3, op := .mac 0 }

end Sys2Proof.Machine
end

