-- ==== Sys2Proof/Machine/Flags.lean ====
section
/-!
DEFINITION. This hardware has no flags, condition codes or predicates, and no operation sets one (10_state.md R16,
44_numerics.md R137). The only conditions are the loop tests, which compare counters directly (42_reduce.md R87, R88);
they stand here.
-/

namespace Sys2Proof.Machine

/-- The stride loop's test: `c < GS and k < K` (42_reduce.md R88). -/
def strideTest (gs k : Nat) (u : WorkUnit) : Bool := decide (u.c < gs) && decide (u.k < k)

/-- Whether another group follows: `kb` runs from 0 to `G − 1` (42_reduce.md R87). -/
def groupTest (gs k : Nat) (u : WorkUnit) : Bool := decide (u.kb + 1 < groups gs k)

/-- Where the loops of 42_reduce.md R86 lead from a loop test: into the next stride, to the next group (whose head is
FETCHSZ), or out of both loops to STOREC. -/
def loopNext (gs k : Nat) (u : WorkUnit) : WorkUnit :=
  if strideTest gs k u then { u with op := .loadWin }
  else if groupTest gs k u then { u with kb := u.kb + 1, op := .fetchSZ }
  else { u with op := .storeC }

end Sys2Proof.Machine
end

