-- ==== Sys2Proof/Machine/Numerics.lean ====
section
/-!
DEFINITION. The floating-point formats, the one rounding, and the five primitives (44_numerics.md). Values are computed
exactly on naturals and integers and rounded once: a finite value is a magnitude in units of a power of two. The
numerics below the formula are the spec's own decisions D8 to D14 (44_numerics.md R141's default choice; log 18).
-/

namespace Sys2Proof.Machine

/-- A format: the number of exponent bits `E` and of fraction bits `F` (44_numerics.md R125). -/
structure Fmt where
  expBits : Nat
  fracBits : Nat
  deriving DecidableEq, Repr

/-- binary32 (R126). -/
def binary32 : Fmt := ⟨8, 23⟩

/-- binary16 (R127). -/
def binary16 : Fmt := ⟨5, 10⟩

/-- bfloat16 (R128). -/
def bfloat16 : Fmt := ⟨8, 7⟩

/-- The format of a storage type (R125). -/
def fmtOf : Ty → Fmt
  | .f32 => binary32
  | .f16 => binary16
  | .bf16 => bfloat16

/-- The sign bit of a pattern. -/
def Fmt.sign (f : Fmt) (p : Elem) : Bool := p.toNat / 2 ^ (f.expBits + f.fracBits) % 2 == 1

/-- The biased exponent `e` of a pattern. -/
def Fmt.expo (f : Fmt) (p : Elem) : Nat := p.toNat / 2 ^ f.fracBits % 2 ^ f.expBits

/-- The fraction `f` of a pattern. -/
def Fmt.frac (f : Fmt) (p : Elem) : Nat := p.toNat % 2 ^ f.fracBits

/-- The exponent field of all ones, of infinities and NaNs. -/
def Fmt.maxExpo (f : Fmt) : Nat := 2 ^ f.expBits - 1

/-- The pattern is a NaN (R126 to R128). -/
def Fmt.isNaN (f : Fmt) (p : Elem) : Bool := f.expo p == f.maxExpo && f.frac p != 0

/-- The pattern is an infinity. -/
def Fmt.isInf (f : Fmt) (p : Elem) : Bool := f.expo p == f.maxExpo && f.frac p == 0

/-- The pattern is a zero. -/
def Fmt.isZero (f : Fmt) (p : Elem) : Bool := f.expo p == 0 && f.frac p == 0

/-- The smallest positive value of the format is `2^(-lsb)`: 149, 24, 133 (R126 to R128). -/
def Fmt.lsb (f : Fmt) : Nat := 2 ^ (f.expBits - 1) - 2 + f.fracBits

/-- The magnitude of a finite pattern in units of `2^(-lsb)` (R126 to R128). -/
def Fmt.mag (f : Fmt) (p : Elem) : Nat :=
  if f.expo p = 0 then f.frac p else (2 ^ f.fracBits + f.frac p) * 2 ^ (f.expo p - 1)

/-- The pattern with this sign whose exponent and fraction fields read together are `mant`. -/
def Fmt.pattern (f : Fmt) (neg : Bool) (mant : Nat) : Elem :=
  BitVec.ofNat 32 ((if neg then 2 ^ (f.expBits + f.fracBits) else 0) + mant)

/-- The zero of a sign. -/
def Fmt.zero (f : Fmt) (neg : Bool) : Elem := f.pattern neg 0

/-- The infinity of a sign. -/
def Fmt.inf (f : Fmt) (neg : Bool) : Elem := f.pattern neg (f.maxExpo * 2 ^ f.fracBits)

/-- The canonical quiet NaN: sign 0, top fraction bit 1, the other fraction bits 0 (R130). -/
def Fmt.nan (f : Fmt) : Elem := f.pattern false (f.maxExpo * 2 ^ f.fracBits + 2 ^ (f.fracBits - 1))

/-- `n / 2^d` rounded to the nearest integer, the even one when exactly halfway (R135). -/
def nearestEven (n d : Nat) : Nat :=
  let q := n / 2 ^ d
  let r := n % 2 ^ d
  if 2 * r < 2 ^ d then q
  else if 2 ^ d < 2 * r then q + 1
  else if q % 2 = 0 then q
  else q + 1

/-- `q + u` of R135 for `|x| = mag · 2^(-u)`: the exponent of the unit in the last place at `|x|`, counted from `2^(-u)`.
With `u ≥ lsb`, `floor(log2 |x|) = log2 mag - u` and `emin - F = -lsb`. -/
def Fmt.ulp (f : Fmt) (u mag : Nat) : Nat := max (Nat.log2 mag) (u - f.lsb + f.fracBits) - f.fracBits

/-- `round_fmt` (R135) of the value of sign `neg` and magnitude `mag · 2^(-u)`, for `u ≥ lsb`: nearest, ties to even,
overflow to infinity when the rounded magnitude reaches `2^(emax+1)` with `emax + 1 = 2^(E-1)`, subnormals kept, a zero
result with the sign of the value. The pattern of `r · 2^q` has `r + (q - (emin - F)) · 2^F` in its exponent and
fraction fields. -/
def roundFmt (f : Fmt) (neg : Bool) (u mag : Nat) : Elem :=
  let d := f.ulp u mag
  let r := nearestEven mag d
  if 2 ^ (2 ^ (f.expBits - 1) + u) ≤ r * 2 ^ d then f.inf neg
  else f.pattern neg (r + (d - (u - f.lsb)) * 2 ^ f.fracBits)

/-! ### The five primitives -/

/-- `cvt_in_T` (R131): storage pattern to binary32, exact. -/
def cvtIn (ty : Ty) (p : Elem) : F32 :=
  if (fmtOf ty).isNaN p then binary32.nan
  else
    match ty with
    | .f32 => p
    | .bf16 => p <<< 16
    | .f16 =>
      if binary16.isInf p then binary32.inf (binary16.sign p)
      else if binary16.isZero p then binary32.zero (binary16.sign p)
      else roundFmt binary32 (binary16.sign p) binary32.lsb
        (binary16.mag p * 2 ^ (binary32.lsb - binary16.lsb))

/-- `u2f` (R132): a 6-bit code to binary32, exact. -/
def u2f (w : Code) : F32 :=
  if w.toNat = 0 then 0#32
  else
    let h := Nat.log2 w.toNat
    BitVec.ofNat 32 (((127 + h) <<< 23) ||| ((w.toNat - 2 ^ h) <<< (23 - h)))

/-- `fmul` (R133): binary32 multiply, one rounding of the exact product. -/
def fmul (x y : F32) : F32 :=
  let neg := binary32.sign x != binary32.sign y
  if binary32.isNaN x || binary32.isNaN y then binary32.nan
  else if (binary32.isInf x && binary32.isZero y) || (binary32.isZero x && binary32.isInf y) then binary32.nan
  else if binary32.isInf x || binary32.isInf y then binary32.inf neg
  else if binary32.isZero x || binary32.isZero y then binary32.zero neg
  else roundFmt binary32 neg (2 * binary32.lsb) (binary32.mag x * binary32.mag y)

/-- The signed value of a finite binary32 pattern in units of `2^(-149)`. -/
def signedMag (x : F32) : Int := if binary32.sign x then -(binary32.mag x : Int) else (binary32.mag x : Int)

/-- `fadd` (R134): binary32 add, one rounding of the exact sum. -/
def fadd (x y : F32) : F32 :=
  if binary32.isNaN x || binary32.isNaN y then binary32.nan
  else if binary32.isInf x && binary32.isInf y && (binary32.sign x != binary32.sign y) then binary32.nan
  else if binary32.isInf x then x
  else if binary32.isInf y then y
  else if binary32.isZero x && binary32.isZero y then binary32.zero (binary32.sign x && binary32.sign y)
  else
    let sum := signedMag x + signedMag y
    if sum = 0 then binary32.zero false
    else roundFmt binary32 (decide (sum < 0)) binary32.lsb sum.natAbs

/-- `cvt_out_T` (R136): binary32 to storage pattern, the cast before the store. -/
def cvtOut (ty : Ty) (x : F32) : Elem :=
  if binary32.isNaN x then (fmtOf ty).nan
  else
    match ty with
    | .f32 => x
    | .f16 =>
      if binary32.isInf x then binary16.inf (binary32.sign x)
      else if binary32.isZero x then binary16.zero (binary32.sign x)
      else roundFmt binary16 (binary32.sign x) binary32.lsb (binary32.mag x)
    | .bf16 =>
      if binary32.isInf x then bfloat16.inf (binary32.sign x)
      else if binary32.isZero x then bfloat16.zero (binary32.sign x)
      else roundFmt bfloat16 (binary32.sign x) binary32.lsb (binary32.mag x)

end Sys2Proof.Machine
end

