-- ==== Sys2Proof/Machine/Dequantizer.lean ====
section
/-!
DEFINITION. The Grouped Dequantizer: FETCHSZ loads the group's scale and zero-point, DEQ turns a code into a weight
(41_dequant.md).
-/

namespace Sys2Proof.Machine

/-- FETCHSZ (41_dequant.md R76) at the head of a group, and the step to the group's first loop test: `c` is cleared
(42_reduce.md R86). As a unit's first step it makes the unit ACTIVE (10_state.md R17). -/
def opFetchSZ (p : Params) (cfg : Cfg) (m : Memory) (u : WorkUnit) : Except Fault WorkUnit := do
  let idx := idxSZ cfg.cols u.kb u.gx.toNat
  let s ← readElem p.ty cfg.bind.s m idx
  let z ← readElem p.ty cfg.bind.z m idx
  .ok (loopNext p.gs cfg.depth
    { u with s := some (cvtIn p.ty s), z := some (cvtIn p.ty z), c := 0, phase := .active })

/-- DEQ (41_dequant.md R77, R78): `scale · w + zero`, two separately rounded operations, the zero-point added after
scaling. -/
def deq (s : F32) (w : Code) (z : F32) : F32 := fadd (fmul s (u2f w)) z

end Sys2Proof.Machine
end

