-- ==== Sys2Proof/Machine/ReductionEngine.lean ====
section
/-!
DEFINITION. The Reduction Engine: MAC, STOREC, and the sequence of one work unit, one operation a step
(42_reduce.md R86, R89, R92; 70_reset_and_hazards.md R177).
-/

namespace Sys2Proof.Machine

/-- The code register of a lane. -/
def WorkUnit.code (u : WorkUnit) (i : Fin 4) : Option Code :=
  match i with
  | 0 => u.w0
  | 1 => u.w1
  | 2 => u.w2
  | 3 => u.w3

/-- What one MAC does to the accumulator: `fadd(acc, fmul(a, DEQ(s, w, z)))` (42_reduce.md R89). -/
def macValue (acc : F32) (a : F32) (s : F32) (w : Code) (z : F32) : F32 := fadd acc (fmul a (deq s w z))

/-- After lane `i`: the next lane, or after lane 3 the end of the stride, `k ← k + 4`, `c ← c + 4`, and the loop tests
(42_reduce.md R86, R88, R91). -/
def afterMac (gs k : Nat) (i : Fin 4) (u : WorkUnit) : WorkUnit :=
  match i with
  | 0 => { u with op := .mac 1 }
  | 1 => { u with op := .mac 2 }
  | 2 => { u with op := .mac 3 }
  | 3 => loopNext gs k { u with k := u.k + 4, c := u.c + 4 }

/-- MAC(i) (42_reduce.md R89). -/
def opMac (p : Params) (cfg : Cfg) (m : Memory) (i : Fin 4) (u : WorkUnit) : Except Fault WorkUnit := do
  let a ← readElem p.ty cfg.bind.a m (idxA cfg.depth u.gy.toNat (u.k + i.val))
  let s ← readReg u.s
  let w ← readReg (u.code i)
  let z ← readReg u.z
  .ok (afterMac p.gs cfg.depth i { u with acc := macValue u.acc (cvtIn p.ty a) s w z })

/-- STOREC (42_reduce.md R92): the unit's one write, and its retirement. -/
def opStoreC (p : Params) (cfg : Cfg) (m : Memory) (u : WorkUnit) : Except Fault (WorkUnit × Memory) := do
  let m' ← writeElem p.ty cfg.bind.c m (idxC cfg.cols u.gy.toNat u.gx.toNat) (cvtOut p.ty u.acc)
  .ok ({ u with phase := .retired }, m')

/-- One step of a work unit: its next operation. Only STOREC changes memory (20_memory.md R40). -/
def unitStep (p : Params) (cfg : Cfg) (m : Memory) (u : WorkUnit) : Except Fault (WorkUnit × Memory) :=
  match u.op with
  | .fetchSZ => (opFetchSZ p cfg m u).map (·, m)
  | .loadWin => (opLoadWin cfg m u).map (·, m)
  | .unpack => (opUnpack u).map (·, m)
  | .mac i => (opMac p cfg m i u).map (·, m)
  | .storeC => opStoreC p cfg m u

/-- How many steps one work unit takes from creation to retirement: `G` FETCHSZ, `K/4` LOADWIN, `K/4` UNPACK, `K` MAC
and one STOREC (70_reset_and_hazards.md R177). -/
def unitSteps (gs k : Nat) : Nat := groups gs k + k / 4 + k / 4 + k + 1

end Sys2Proof.Machine
end

