-- ==== Sys2Proof/Machine/Launch.lean ====
section
/-!
DEFINITION. LAUNCH with its premises, the grid of work units, their interleaving, completion, and the execution of one
dispatch (43_dispatch.md R100 to R104).
-/

namespace Sys2Proof.Machine

/-- The storage type is implemented (30_encoding.md R60). -/
def tyPresent (hasBf16 : Bool) (ty : Ty) : Bool := hasBf16 || ty != .bf16

/-- The launch premises in the order of the table of 43_dispatch.md R100, each with the refusal of 60_exceptions.md R151
for its violation. PRE_IDLE is the machine's to check (a LAUNCH while RUNNING is refused where it arrives); PRE_TYPE is
not detectable. -/
def premises (p : Params) (s : State) : List (Bool × Refusal) :=
  let cfg := s.cfg
  let b := cfg.bind
  [ -- PRE_SEL
    (tyPresent Config.hasBf16 p.ty, .unsupportedSelector),
    -- PRE_DIMS
    (decide (1 ≤ cfg.rows) && decide (1 ≤ cfg.cols) && decide (4 ≤ cfg.depth) && !cfg.oversize,
      .emptyOrOversizeDimension),
    -- PRE_K4
    (cfg.depth % 4 == 0, .kNotMultipleOf4),
    -- PRE_BOUND: all six slots; no length is asked of the descriptor's view
    (allSlots.all (fun slot => (b.get slot).isSome), .shortBuffer),
    -- PRE_LEN_A
    (decide (cfg.rows * cfg.depth ≤ slotLen b.a), .shortBuffer),
    -- PRE_LEN_B
    (decide (cfg.cols * rowBytes cfg.depth ≤ slotLen b.b), .shortBuffer),
    -- PRE_LEN_SZ
    (decide (groups p.gs cfg.depth * cfg.cols ≤ slotLen b.s) &&
      decide (groups p.gs cfg.depth * cfg.cols ≤ slotLen b.z), .shortTable),
    -- PRE_LEN_C
    (decide (cfg.rows * cfg.cols ≤ slotLen b.c), .shortBuffer),
    -- PRE_NOALIAS
    (inputSlots.all (fun slot => !rangesMeet (slotRange p.ty b .c) (slotRange p.ty b slot)), .outputAliasesInput),
    -- PRE_GRID
    (s.grid == ⟨cfg.cols, cfg.rows⟩, .gridMismatch) ]

/-- The refusal of a launch: the first premise of the list that fails, if any (60_exceptions.md R153; log 10). -/
def firstFailing (p : Params) (s : State) : Option Refusal :=
  ((premises p s).find? (fun q => !q.1)).map (·.2)

/-- A work unit at its start (10_state.md R17, R21). -/
def WorkUnit.start (n m : Nat) : WorkUnit :=
  { gx := BitVec.ofNat 32 n, gy := BitVec.ofNat 32 m, kb := 0, k := 0, c := 0
    s := none, z := none, b0 := none, b1 := none, b2 := none, w0 := none, w1 := none, w2 := none, w3 := none
    acc := 0x00000000#32, phase := .ready, op := .fetchSZ }

/-- The units of the grid: one per coordinate `(n, m)`, `n < N`, `m < M` (43_dispatch.md R101). -/
def gridUnits (n m : Nat) : List WorkUnit :=
  (List.range (m * n)).map fun j => WorkUnit.start (j % n) (j / n)

/-- LAUNCH, its premises met (43_dispatch.md R100). -/
def launch (s : State) : State :=
  { s with status := .running, units := gridUnits s.cfg.cols s.cfg.rows }

/-- The unit has not retired. -/
def WorkUnit.live (u : WorkUnit) : Bool := u.phase != .retired

/-- The position in the list of the live unit number `n`. -/
def nthLive : List WorkUnit → Nat → Option Nat
  | [], _ => none
  | u :: us, n =>
    if u.live then
      match n with
      | 0 => some 0
      | n + 1 => (nthLive us n).map (· + 1)
    else (nthLive us n).map (· + 1)

/-- The position of the unit a pick names: any number picks some live unit (43_dispatch.md R102). -/
def pickUnit (units : List WorkUnit) (pick : Nat) : Option Nat :=
  nthLive units (pick % units.countP WorkUnit.live)

/-- Completion: when every unit has retired STATUS becomes DONE and no unit remains (43_dispatch.md R103,
70_reset_and_hazards.md R170). -/
def completeIfRetired (s : State) : State :=
  if s.units.all (fun u => !u.live) then { s with status := .done, units := [] } else s

/-- One step of the picked work unit, and the completion of the dispatch if it was the last. -/
def tick (p : Params) (pick : Nat) (s : State) : Except Fault State :=
  match pickUnit s.units pick with
  | none => .ok (completeIfRetired s)
  | some j =>
    match s.units[j]? with
    | none => .ok (completeIfRetired s)
    | some u =>
      match unitStep p s.cfg s.mem u with
      | .error f => .error f
      | .ok (u', m') => .ok (completeIfRetired { s with units := s.units.set j u', mem := m' })

/-- A dispatch in progress goes on, at most `fuel` moves: the agenda says who moves, and when it is empty the first live
unit does (log 7). It ends when STATUS is no longer RUNNING, or when the host looks (log 8). -/
def runDispatch (p : Params) : Nat → State → Host.Outcome State Fault Refusal
  | 0, s => .next s
  | fuel + 1, s =>
    match s.status with
    | .idle | .done => .next s
    | .running =>
      match s.agenda with
      | [] =>
        match tick p 0 s with
        | .error f => .fault f
        | .ok s' => runDispatch p fuel s'
      | .unit pick :: rest =>
        match tick p pick { s with agenda := rest } with
        | .error f => .fault f
        | .ok s' => runDispatch p fuel s'
      | .launch _ :: _ => .refused .busy
      | .host .look :: rest => .next { s with agenda := rest }
      | .host h :: rest =>
        match hostRunning p.ty h { s with agenda := rest } with
        | .next s' => runDispatch p fuel s'
        | .fault f => .fault f
        | .refused r => .refused r

/-- Enough moves for every unit's steps and every move of the agenda. -/
def dispatchFuel (p : Params) (s : State) : Nat :=
  s.units.length * unitSteps p.gs s.cfg.depth + s.agenda.length + 1

/-- `QLK(GS, T)` (43_dispatch.md R104): a launch, refused when a premise fails, and its dispatch to the end; while
RUNNING, the dispatch in progress goes on. Defined for every group size (R118). -/
def execQlk (p : Params) (s : State) : Host.Outcome State Fault Refusal :=
  match s.status with
  | .running => runDispatch p (dispatchFuel p s) s
  | .idle | .done =>
    match firstFailing p s with
    | some r => .refused r
    | none => runDispatch p (dispatchFuel p (launch s)) (launch s)

end Sys2Proof.Machine
end

