-- ==== Sys2Proof/Machine/EntryPoints.lean ====
section
/-!
DEFINITION. The meaning of each of the twelve entry points: the common kernel with the entry point's two constants bound
(43_dispatch.md R104, R105 to R116).
-/

namespace Sys2Proof.Machine

/-- `QLK_32_F32` (R105). -/
def execQlk32F32 (s : State) : Host.Outcome State Fault Refusal := execQlk ⟨32, .f32⟩ s

/-- `QLK_64_F32` (R106). -/
def execQlk64F32 (s : State) : Host.Outcome State Fault Refusal := execQlk ⟨64, .f32⟩ s

/-- `QLK_128_F32` (R107). -/
def execQlk128F32 (s : State) : Host.Outcome State Fault Refusal := execQlk ⟨128, .f32⟩ s

/-- `QLK_256_F32` (R108). -/
def execQlk256F32 (s : State) : Host.Outcome State Fault Refusal := execQlk ⟨256, .f32⟩ s

/-- `QLK_32_F16` (R109). -/
def execQlk32F16 (s : State) : Host.Outcome State Fault Refusal := execQlk ⟨32, .f16⟩ s

/-- `QLK_64_F16` (R110). -/
def execQlk64F16 (s : State) : Host.Outcome State Fault Refusal := execQlk ⟨64, .f16⟩ s

/-- `QLK_128_F16` (R111). -/
def execQlk128F16 (s : State) : Host.Outcome State Fault Refusal := execQlk ⟨128, .f16⟩ s

/-- `QLK_256_F16` (R112). -/
def execQlk256F16 (s : State) : Host.Outcome State Fault Refusal := execQlk ⟨256, .f16⟩ s

/-- `QLK_32_BF16` (R113). -/
def execQlk32Bf16 (s : State) : Host.Outcome State Fault Refusal := execQlk ⟨32, .bf16⟩ s

/-- `QLK_64_BF16` (R114). -/
def execQlk64Bf16 (s : State) : Host.Outcome State Fault Refusal := execQlk ⟨64, .bf16⟩ s

/-- `QLK_128_BF16` (R115). -/
def execQlk128Bf16 (s : State) : Host.Outcome State Fault Refusal := execQlk ⟨128, .bf16⟩ s

/-- `QLK_256_BF16` (R116). -/
def execQlk256Bf16 (s : State) : Host.Outcome State Fault Refusal := execQlk ⟨256, .bf16⟩ s

end Sys2Proof.Machine
end

