-- ==== Sys2Proof/Machine/Dispatch.lean ====
section
/-!
DEFINITION. One arm per instruction, each a direct call of its meaning.
-/

namespace Sys2Proof.Machine

def exec (i : Instr) (s : State) : Host.Outcome State Fault Refusal :=
  match i with
  | .qlk32F32 => Sys2Proof.Machine.execQlk32F32 s
  | .qlk64F32 => Sys2Proof.Machine.execQlk64F32 s
  | .qlk128F32 => Sys2Proof.Machine.execQlk128F32 s
  | .qlk256F32 => Sys2Proof.Machine.execQlk256F32 s
  | .qlk32F16 => Sys2Proof.Machine.execQlk32F16 s
  | .qlk64F16 => Sys2Proof.Machine.execQlk64F16 s
  | .qlk128F16 => Sys2Proof.Machine.execQlk128F16 s
  | .qlk256F16 => Sys2Proof.Machine.execQlk256F16 s
  | .qlk32Bf16 => Sys2Proof.Machine.execQlk32Bf16 s
  | .qlk64Bf16 => Sys2Proof.Machine.execQlk64Bf16 s
  | .qlk128Bf16 => Sys2Proof.Machine.execQlk128Bf16 s
  | .qlk256Bf16 => Sys2Proof.Machine.execQlk256Bf16 s

end Sys2Proof.Machine
end

