-- ==== Sys2Proof/Machine/ProgramLoad.lean ====
section
/-!
DEFINITION. How a selector comes to run: the host's acts of 70_reset_and_hazards.md R173, written into the state at once
(log 22). The block fetches no instructions (20_memory.md R46); what runs is the entry point the host selected.
-/

namespace Sys2Proof.Machine

/-- The smallest dispatch: M = 1, K = 4, N = 1, six small views that do not overlap. -/
def smallestCfg (sel : BitVec 4) : Cfg :=
  { sel := sel, m := 1#32, k := 4#32, n := 1#32, oversize := false
    bind :=
      { a := some ⟨0, 4⟩, b := some ⟨16, 3⟩, s := some ⟨20, 1⟩, z := some ⟨24, 1⟩, desc := some ⟨28, 3⟩
        c := some ⟨40, 1⟩ } }

/-- The state with no dispatch in progress and this selector written. -/
def selectEntry (sel : BitVec 4) (s : State) : State :=
  { s with status := .idle, units := [], cfg := { s.cfg with sel := sel } }

/-- The launch premises hold for the selected entry point at this state's own sizes and views. -/
def readyToLaunch (s : State) : Bool :=
  match decodeSel s.cfg.sel with
  | .ok i => (firstFailing ⟨i.gs, i.ty⟩ { s with grid := ⟨s.cfg.cols, s.cfg.rows⟩ }).isNone
  | .error _ => true

/-- The state with the selector `w` written and its LAUNCH next on the agenda. Sizes and views that meet the launch
premises stay; otherwise the smallest dispatch is bound. -/
def placeSelector (w : Nat) (s : State) : State :=
  let s1 := selectEntry (selOfWord w) s
  let s2 := if readyToLaunch s1 then s1 else { s1 with cfg := smallestCfg s1.cfg.sel }
  { s2 with agenda := .launch ⟨s2.cfg.cols, s2.cfg.rows⟩ :: s2.agenda }

end Sys2Proof.Machine
end

