-- ==== Sys2Proof/Machine/Step.lean ====
section
/-!
DEFINITION. One step of the machine: the selected entry point executes, or the host does something else, or the block
waits.
-/

namespace Sys2Proof.Machine

/-- One step. A launch, or a dispatch in progress, runs the entry point that CFG.SEL names; a selector that names none is
refused (30_encoding.md R60). -/
def step (s : State) : Host.Outcome State Fault Refusal :=
  match turn s with
  | .other o => o
  | .execute s' =>
    match decodeSel s'.cfg.sel with
    | .ok i => exec i s'
    | .error _ => .refused .unsupportedSelector

/-- The state in which the very next step runs the instruction whose bits are `w` (log 22). -/
def State.withFetchWord (s : State) (_nbits w : Nat) : State := placeSelector w s

end Sys2Proof.Machine
end

