-- ==== Sys2Proof/Safety.lean ====
section
/-!
DEFINITION. What claims speak about: the launch premises as facts (43_dispatch.md R100), the value every element of C
ends with (R104), what a finished dispatch delivers (70_reset_and_hazards.md R178), and the invariants of the machine.
Nothing here is called by the machine.
-/

namespace Sys2Proof.Machine

/-! ### The value of an element: the closed form of 43_dispatch.md R104 -/

/-- `W[pos, col]` (30_encoding.md R52): lane `pos mod 4` of the window of `pos`. -/
def codeAt (cfg : Cfg) (m : Memory) (col pos : Nat) : Code :=
  let off := (slotView cfg.bind.b).base + winAddr cfg.depth col pos
  (unpackWindow (m.readByte off) (m.readByte (off + 1)) (m.readByte (off + 2))).lane (pos % 4)

/-- The dequantized weight of position `pos` and column `col`. -/
def weightAt (p : Params) (cfg : Cfg) (m : Memory) (col pos : Nat) : F32 :=
  let idx := idxSZ cfg.cols (pos / p.gs) col
  fadd (fmul (cvtIn p.ty (m.elemAt p.ty (slotView cfg.bind.s) idx)) (u2f (codeAt cfg m col pos)))
    (cvtIn p.ty (m.elemAt p.ty (slotView cfg.bind.z) idx))

/-- `acc_k(row, col)` of R104. -/
def accAt (p : Params) (cfg : Cfg) (m : Memory) (row col : Nat) : Nat → F32
  | 0 => 0x00000000#32
  | k + 1 =>
    fadd (accAt p cfg m row col k)
      (fmul (cvtIn p.ty (m.elemAt p.ty (slotView cfg.bind.a) (idxA cfg.depth row k))) (weightAt p cfg m col k))

/-- The value `C[row, col]` ends with. -/
def resultAt (p : Params) (cfg : Cfg) (m : Memory) (row col : Nat) : Elem :=
  cvtOut p.ty (accAt p cfg m row col cfg.depth)

/-! ### Rounding -/

/-- How far a finite pattern lies from the magnitude `mag · 2^(-u)`, in units of `2^(-u)`, for `u ≥ lsb`; signs aside. -/
def Fmt.error (f : Fmt) (u mag : Nat) (x : Elem) : Nat :=
  ((f.mag x * 2 ^ (u - f.lsb) : Nat) - (mag : Int) : Int).natAbs

/-- The finite pattern `r` of `T` is the magnitude `mag · 2^(-u)` rounded to nearest, ties to even (44_numerics.md R135):
no finite pattern is nearer, and where one of another magnitude is equally near the fraction of `r` is even. -/
def IsNearest (ty : Ty) (u mag : Nat) (r : Elem) : Prop :=
  let f := fmtOf ty
  ∀ x : Elem, x.toNat < 256 ^ ty.bytes → f.isNaN x = false → f.isInf x = false →
    f.error u mag r ≤ f.error u mag x ∧ (f.error u mag r = f.error u mag x → f.mag x ≠ f.mag r → f.frac r % 2 = 0)

/-! ### One work unit by itself -/

/-- Where the loop tests of 42_reduce.md R87 and R88 lead a unit that came to them in group `kb`, its `c` and `k` being
those tested: into the next stride; or to the head of the next group; or, with no group left, to STOREC. -/
structure TestsLead (gs k kb : Nat) (u : WorkUnit) : Prop where
  stride : u.c < gs ∧ u.k < k → u.kb = kb ∧ u.op = .loadWin
  group : ¬ (u.c < gs ∧ u.k < k) → kb + 1 < groups gs k → u.kb = kb + 1 ∧ u.op = .fetchSZ
  store : ¬ (u.c < gs ∧ u.k < k) → ¬ kb + 1 < groups gs k → u.kb = kb ∧ u.op = .storeC

/-- A work unit taking `n` steps of its sequence with nobody else moving (42_reduce.md R86). -/
def unitRun (p : Params) (cfg : Cfg) : Nat → Memory → WorkUnit → Except Fault (WorkUnit × Memory)
  | 0, m, u => .ok (u, m)
  | n + 1, m, u =>
    match unitRun p cfg n m u with
    | .error f => .error f
    | .ok (u', m') => unitStep p cfg m' u'

/-! ### The launch premises -/

/-- An address lies in a byte range. -/
def inRange (r : Nat × Nat) (a : Nat) : Prop := r.1 ≤ a ∧ a < r.1 + r.2

/-- The bytes of `C[0 .. M·N)`. -/
def outputRange (ty : Ty) (cfg : Cfg) : Nat × Nat :=
  ((slotView cfg.bind.c).base, cfg.rows * cfg.cols * ty.bytes)

/-- The launch premises that concern the configuration and the view lengths (43_dispatch.md R100). -/
structure CfgOk (p : Params) (cfg : Cfg) : Prop where
  sel : p.ty = .bf16 → Config.hasBf16 = true
  rows : 1 ≤ cfg.rows
  cols : 1 ≤ cfg.cols
  depth : 4 ≤ cfg.depth
  fits : cfg.oversize = false
  k4 : cfg.depth % 4 = 0
  bound : ∀ slot, (cfg.bind.get slot).isSome
  lenA : cfg.rows * cfg.depth ≤ slotLen cfg.bind.a
  lenB : cfg.cols * (3 * cfg.depth / 4) ≤ slotLen cfg.bind.b
  lenS : groups p.gs cfg.depth * cfg.cols ≤ slotLen cfg.bind.s
  lenZ : groups p.gs cfg.depth * cfg.cols ≤ slotLen cfg.bind.z
  lenC : cfg.rows * cfg.cols ≤ slotLen cfg.bind.c
  noAlias : ∀ slot, slot ≠ .c → ∀ a,
    inRange (slotRange p.ty cfg.bind .c) a → ¬ inRange (slotRange p.ty cfg.bind slot) a

/-- A group size the kernel is defined for: a positive multiple of 4 (41_dequant.md R75, 43_dispatch.md R118). -/
def GsOk (gs : Nat) : Prop := 0 < gs ∧ gs % 4 = 0

/-- All launch premises of 43_dispatch.md R100 that a model can check. -/
structure LaunchOk (p : Params) (s : State) : Prop where
  notRunning : s.status ≠ .running
  cfgOk : CfgOk p s.cfg
  grid : s.grid = ⟨s.cfg.cols, s.cfg.rows⟩

/-- The violation of the launch contract that a refusal names (60_exceptions.md R151, V1 to V5, V7, V8). The other
refusals name no launch premise. -/
def Violated (p : Params) (s : State) : Refusal → Prop
  | .unsupportedSelector => p.ty = .bf16 ∧ Config.hasBf16 = false
  | .kNotMultipleOf4 => s.cfg.depth % 4 ≠ 0
  | .emptyOrOversizeDimension => s.cfg.rows = 0 ∨ s.cfg.cols = 0 ∨ s.cfg.depth < 4 ∨ s.cfg.oversize = true
  | .shortBuffer =>
      (∃ slot, s.cfg.bind.get slot = none) ∨
        slotLen s.cfg.bind.a < s.cfg.rows * s.cfg.depth ∨
        slotLen s.cfg.bind.b < s.cfg.cols * (3 * s.cfg.depth / 4) ∨
        slotLen s.cfg.bind.c < s.cfg.rows * s.cfg.cols
  | .shortTable =>
      slotLen s.cfg.bind.s < groups p.gs s.cfg.depth * s.cfg.cols ∨
        slotLen s.cfg.bind.z < groups p.gs s.cfg.depth * s.cfg.cols
  | .gridMismatch => s.grid ≠ ⟨s.cfg.cols, s.cfg.rows⟩
  | .outputAliasesInput =>
      ∃ slot, slot ≠ .c ∧ ∃ a, inRange (slotRange p.ty s.cfg.bind .c) a ∧ inRange (slotRange p.ty s.cfg.bind slot) a
  | _ => False

/-- The steps a whole dispatch takes: every unit's (70_reset_and_hazards.md R177). -/
def dispatchSteps (p : Params) (cfg : Cfg) : Nat := cfg.rows * cfg.cols * unitSteps p.gs cfg.depth

/-- In the first `n` moves of the agenda the host does nothing: the work units alone move, in any order. -/
def UnitsMove (n : Nat) (agenda : List Move) : Prop := ∀ mv ∈ agenda.take n, ∃ pick, mv = .unit pick

/-! ### What a finished dispatch delivers -/

/-- `t` is the end of the dispatch of `QLK(GS, T)` launched at `s` (43_dispatch.md R104, 60_exceptions.md R157,
70_reset_and_hazards.md R178): STATUS is DONE, every element of `C[0 .. M·N)` holds its value, every other byte of the
host's memory is as it was, CFG is as it was, no work unit remains, and the agenda has lost the moves of the dispatch. -/
structure Delivers (p : Params) (s t : State) : Prop where
  status : t.status = .done
  result : ∀ row col, row < s.cfg.rows → col < s.cfg.cols →
    t.mem.elemAt p.ty (slotView s.cfg.bind.c) (idxC s.cfg.cols row col) = resultAt p s.cfg s.mem row col
  elsewhere : ∀ a, ¬ inRange (outputRange p.ty s.cfg) a → t.mem.readByte a = s.mem.readByte a
  cfg : t.cfg = s.cfg
  units : t.units = []
  grid : t.grid = s.grid
  draws : t.draws = s.draws
  seenC : t.seenC = s.seenC
  agenda : t.agenda = s.agenda.drop (dispatchSteps p s.cfg)

/-! ### Invariants -/

/-- The sequencing registers of a live unit are where the loops of 42_reduce.md R86 can have them, and the registers its
next operation reads are written (10_state.md R19, R20; 42_reduce.md R87, R88). -/
def SeqOk (gs k : Nat) (u : WorkUnit) : Prop :=
  match u.op with
  | .fetchSZ => u.kb < groups gs k ∧ u.k = u.kb * gs ∧ u.k < k
  | .loadWin => u.k < k ∧ u.k % 4 = 0 ∧ u.kb = u.k / gs ∧ u.c = u.k - u.kb * gs ∧ u.s.isSome ∧ u.z.isSome
  | .unpack => u.k < k ∧ u.k % 4 = 0 ∧ u.kb = u.k / gs ∧ u.c = u.k - u.kb * gs ∧ u.s.isSome ∧ u.z.isSome ∧
      u.b0.isSome ∧ u.b1.isSome ∧ u.b2.isSome
  | .mac _ => u.k < k ∧ u.k % 4 = 0 ∧ u.kb = u.k / gs ∧ u.c = u.k - u.kb * gs ∧ u.s.isSome ∧ u.z.isSome ∧
      u.w0.isSome ∧ u.w1.isSome ∧ u.w2.isSome ∧ u.w3.isSome
  | .storeC => u.k = k

/-- The work units of a dispatch: one per coordinate, each at a place of its sequence. -/
structure UnitsOk (p : Params) (cfg : Cfg) (units : List WorkUnit) : Prop where
  count : units.length = cfg.rows * cfg.cols
  coord : ∀ j u, units[j]? = some u → u.gx.toNat = j % cfg.cols ∧ u.gy.toNat = j / cfg.cols
  seq : ∀ u ∈ units, SeqOk p.gs cfg.depth u

/-- The machine's invariant: outside a dispatch no unit exists; in a dispatch the selector names an entry point whose
launch premises hold, and the units are those of the grid. -/
structure State.Inv (s : State) : Prop where
  memory : s.mem.wf
  quiet : s.status ≠ .running → s.units = []
  running : s.status = .running →
    ∃ i, decodeSel s.cfg.sel = .ok i ∧ CfgOk ⟨i.gs, i.ty⟩ s.cfg ∧ UnitsOk ⟨i.gs, i.ty⟩ s.cfg s.units

end Sys2Proof.Machine
end

