-- ==== Sys2Proof/Certificates/Slice0/Obligations.lean ====
section
/-!
DEFINITION. The statements about the model. Each docstring names the rules of spec/ it formalises and, where a clause
rests on a choice of the model's, the log entry.
-/

open Sys2Proof Sys2Proof.Machine

/-! ### Reset, the step, the selector -/

/-- After reset STATUS is IDLE, no work unit exists, every slot is unbound (10_state.md R25, 70_reset_and_hazards.md
R170), and a launch that the host has written nothing for is refused (R170's last paragraph). The reset values of the
unspecified fields are the model's (log 3), and the launch is refused because they violate the premises. -/
def Obligations.ResetIsIdleUnboundAndRefusesLaunch : Prop :=
  State.reset.status = .idle ∧ State.reset.units = [] ∧ (∀ slot, State.reset.cfg.bind.get slot = none) ∧
    ∀ g rest, ∃ r, step { State.reset with agenda := .launch g :: rest } = .refused r

/-- A step runs the selected entry point: where CFG.SEL decodes to `i`, a dispatch in progress goes on by `exec i` at
this state, and a launch next on the agenda runs `exec i` at the state that has taken it from the agenda and recorded its
grid (20_memory.md R46, 43_dispatch.md R117; the agenda is the model's, log 7, 11). -/
def Obligations.StepRunsSelectedEntryPoint : Prop :=
  ∀ s i, decodeSel s.cfg.sel = .ok i →
    (s.status = .running → step s = exec i s) ∧
    (s.status ≠ .running → ∀ g rest, s.agenda = .launch g :: rest →
      step s = exec i { s with agenda := rest, grid := g })

/-- The selector's words: the twelve rows of 30_encoding.md R59, and the four reserved values of R60. -/
def Obligations.SelectorWordsDecode : Prop :=
  decodeSel 0b0000#4 = .ok .qlk32F32 ∧ decodeSel 0b0001#4 = .ok .qlk64F32 ∧
  decodeSel 0b0010#4 = .ok .qlk128F32 ∧ decodeSel 0b0011#4 = .ok .qlk256F32 ∧
  decodeSel 0b0100#4 = .ok .qlk32F16 ∧ decodeSel 0b0101#4 = .ok .qlk64F16 ∧
  decodeSel 0b0110#4 = .ok .qlk128F16 ∧ decodeSel 0b0111#4 = .ok .qlk256F16 ∧
  decodeSel 0b1000#4 = .ok .qlk32Bf16 ∧ decodeSel 0b1001#4 = .ok .qlk64Bf16 ∧
  decodeSel 0b1010#4 = .ok .qlk128Bf16 ∧ decodeSel 0b1011#4 = .ok .qlk256Bf16 ∧
  decodeSel 0b1100#4 = .error .reservedType ∧ decodeSel 0b1101#4 = .error .reservedType ∧
  decodeSel 0b1110#4 = .error .reservedType ∧ decodeSel 0b1111#4 = .error .reservedType

/-- Selector encoding and decoding agree, with and without bfloat16, and a selector has one meaning (30_encoding.md R58
to R60). -/
def Obligations.SelectorRoundTrip : Prop :=
  (∀ hasBf16 i, decodeSelWith hasBf16 (encodeSel i) = if i.presentIn hasBf16 then .ok i else .error .noBf16) ∧
  (∀ hasBf16 sel i, decodeSelWith hasBf16 sel = .ok i → encodeSel i = sel ∧ i.presentIn hasBf16 = true) ∧
  (∀ i rest, i.wellFormed = true → decodeBytes (encodeBytes i ++ rest) = .ok (i, rest))

/-- A launch under a reserved selector is refused (30_encoding.md R60, 60_exceptions.md R151 V1). That the refusal has
this name also where other premises fail is the model's choice of the order of the checks (log 10): R153 leaves the name
open there. -/
def Obligations.ReservedSelectorRefused : Prop :=
  ∀ s g rest, s.status ≠ .running → s.agenda = .launch g :: rest → s.cfg.sel.extractLsb' 2 2 = 0b11#2 →
    step s = .refused .unsupportedSelector

/-- A CFG write outside a dispatch takes effect, returns STATUS to IDLE and changes nothing else (10_state.md R11, R14;
60_exceptions.md R156): the selector, the three sizes when each fits 32 bits, and each slot. Sizes that do not
fit leave the three fields as they were and mark the triple oversize, which a LAUNCH refuses (R151 V3; the mark is the
model's, log 17). -/
def Obligations.CfgWritesReturnToIdle : Prop :=
  ∀ s rest, s.status ≠ .running →
    (∀ v, s.agenda = .host (.writeSel v) :: rest →
      step s = .next { s with agenda := rest, status := .idle, cfg := { s.cfg with sel := v } }) ∧
    (∀ m k n, m < 2 ^ 32 → k < 2 ^ 32 → n < 2 ^ 32 → s.agenda = .host (.writeSize m k n) :: rest →
      ∃ t, step s = .next t ∧ t.cfg.rows = m ∧ t.cfg.depth = k ∧ t.cfg.cols = n ∧
        t = { s with agenda := rest, status := .idle,
                     cfg := { s.cfg with m := t.cfg.m, k := t.cfg.k, n := t.cfg.n, oversize := false } }) ∧
    (∀ m k n, 2 ^ 32 ≤ m ∨ 2 ^ 32 ≤ k ∨ 2 ^ 32 ≤ n → s.agenda = .host (.writeSize m k n) :: rest →
      step s = .next { s with agenda := rest, status := .idle, cfg := { s.cfg with oversize := true } }) ∧
    (∀ slot v, s.agenda = .host (.bind slot v) :: rest →
      ∃ t, step s = .next t ∧ t.cfg.bind.get slot = some v ∧
        (∀ other, other ≠ slot → t.cfg.bind.get other = s.cfg.bind.get other) ∧
        t = { s with agenda := rest, status := .idle, cfg := { s.cfg with bind := t.cfg.bind } })

/-- The host's other moves outside a dispatch: a store changes the bytes it names and no register, STATUS included;
looking and an abort with nothing to abort change nothing; a read of C gives the elements that memory holds (`seenC` is the
model's, log 29) and changes nothing else; a reset leaves the reset configuration, IDLE and no
unit, and the host's memory as it was (60_exceptions.md R157 H1, H2, H8; 10_state.md R25; logs 7, 13, 15, 16, 21). That SEL and
the sizes have the values of `State.reset` after it is the model's choice (log 3): R25 and R170 call them unspecified. -/
def Obligations.HostMovesOutsideDispatch : Prop :=
  ∀ s rest, s.status ≠ .running →
    (∀ addr bytes, s.agenda = .host (.store addr bytes) :: rest → s.mem.wf →
      ∃ t, step s = .next t ∧ t = { s with agenda := rest, mem := t.mem } ∧
        (∀ i, i < bytes.length → t.mem.readByte (addr + i) = bytes.getD i 0#8) ∧
        (∀ a, a < addr ∨ addr + bytes.length ≤ a → t.mem.readByte a = s.mem.readByte a)) ∧
    (∀ h, h = .look ∨ h = .abort → s.agenda = .host h :: rest → step s = .next { s with agenda := rest }) ∧
    (s.agenda = .host .readC :: rest →
      ∃ t, step s = .next t ∧ t = { s with agenda := rest, seenC := t.seenC } ∧
        ∀ i, decodeSel s.cfg.sel = .ok i → s.cfg.rows * s.cfg.cols ≤ slotLen s.cfg.bind.c →
          t.seenC.length = s.cfg.rows * s.cfg.cols ∧ ∀ j, j < s.cfg.rows * s.cfg.cols →
            t.seenC[j]? = some (s.mem.elemAt i.ty (slotView s.cfg.bind.c) j)) ∧
    (s.agenda = .host .reset :: rest →
      step s = .next { s with agenda := rest, status := .idle, cfg := State.reset.cfg, units := [] }) ∧
    (s.agenda = [] → step s = .next s)

/-! ### The Bit Unpacker -/

/-- Each code is its high field concatenated above its low field (30_encoding.md R50, R51; 40_unpack.md R66). -/
def Obligations.UnpackConcatenatesFields : Prop :=
  ∀ b0 b1 b2 : Byte,
    (unpackWindow b0 b1 b2).w0 = b0.extractLsb' 0 2 ++ b1.extractLsb' 0 4 ∧
    (unpackWindow b0 b1 b2).w1 = b0.extractLsb' 2 2 ++ b1.extractLsb' 4 4 ∧
    (unpackWindow b0 b1 b2).w2 = b0.extractLsb' 4 2 ++ b2.extractLsb' 0 4 ∧
    (unpackWindow b0 b1 b2).w3 = b0.extractLsb' 6 2 ++ b2.extractLsb' 4 4

/-- UNPACK, the unit's step (40_unpack.md R65; 10_state.md R20): with the three window registers written the four code
registers get their codes, in the slice form of R66, every other register stays, and the first MAC is next (`op` is the
model's, log 6); with one of the three not yet written it is the fault unwrittenRegister (log 5). -/
def Obligations.UnpackWritesCodes : Prop :=
  ∀ u : WorkUnit,
    (∀ b0 b1 b2 : Byte, u.b0 = some b0 → u.b1 = some b1 → u.b2 = some b2 → opUnpack u = .ok { u with
      w0 := some (b0.extractLsb' 0 2 ++ b1.extractLsb' 0 4)
      w1 := some (b0.extractLsb' 2 2 ++ b1.extractLsb' 4 4)
      w2 := some (b0.extractLsb' 4 2 ++ b2.extractLsb' 0 4)
      w3 := some (b0.extractLsb' 6 2 ++ b2.extractLsb' 4 4)
      op := .mac 0 }) ∧
    (u.b0 = none ∨ u.b1 = none ∨ u.b2 = none → opUnpack u = .error .unwrittenRegister)

/-- The packed window has no reserved pattern: PACK and UNPACK are inverse to each other, so every 4-tuple of codes has
exactly one window and every window decodes to exactly one 4-tuple (30_encoding.md R54; 40_unpack.md R68, R69). -/
def Obligations.PackedWindowBijection : Prop :=
  (∀ w : Codes, ∃! b : Byte × Byte × Byte, unpackWindow b.1 b.2.1 b.2.2 = w) ∧
  (∀ w : Codes, unpackWindow (packWindow w).1 (packWindow w).2.1 (packWindow w).2.2 = w) ∧
  (∀ b0 b1 b2 : Byte, packWindow (unpackWindow b0 b1 b2) = (b0, b1, b2))

/-- LOADWIN (40_unpack.md R70, R71; 20_memory.md R41): from a window that ends inside the view the three window registers get the bytes at
`off`, `off+1`, `off+2` and every other register of the unit stays, `op` (the model's, log 6) moving on to UNPACK; a
window that does not is the fault OutOfBounds. The four positions of a stride share the window. -/
def Obligations.LoadWinReadsWindow : Prop :=
  ∀ (cfg : Cfg) (m : Memory) (u : WorkUnit) (v : View), cfg.bind.b = some v →
    let off := u.gx.toNat * (3 * cfg.k.toNat / 4) + 3 * (u.k / 4)
    (off + 2 < v.len → opLoadWin cfg m u = .ok { u with
      b0 := some (m.readByte (v.base + off))
      b1 := some (m.readByte (v.base + (off + 1)))
      b2 := some (m.readByte (v.base + (off + 2)))
      op := .unpack }) ∧
    (v.len ≤ off + 2 → opLoadWin cfg m u = .error .outOfBounds) ∧
    (u.k % 4 = 0 → ∀ i, i < 4 → u.gx.toNat * (3 * cfg.k.toNat / 4) + 3 * ((u.k + i) / 4) = off)

/-! ### One work unit -/

/-- FETCHSZ (41_dequant.md R76): both tables at `kb·N + n`, converted to binary32 into `s` and `z`; the accumulator, the
position, the window and the codes stay; `c` is cleared and the unit is active (42_reduce.md R86, 10_state.md R17); `kb`
and `op` are where the loop tests lead (R87, R88); an index at or beyond either view is the fault OutOfBounds. -/
def Obligations.FetchSZLoadsGroup : Prop :=
  ∀ (p : Params) (cfg : Cfg) (m : Memory) (u : WorkUnit) (vs vz : View), cfg.bind.s = some vs → cfg.bind.z = some vz →
    let idx := u.kb * cfg.n.toNat + u.gx.toNat
    (idx < vs.len → idx < vz.len → ∃ u', opFetchSZ p cfg m u = .ok u' ∧
      u'.s = some (cvtIn p.ty (m.elemAt p.ty vs idx)) ∧ u'.z = some (cvtIn p.ty (m.elemAt p.ty vz idx)) ∧
      u'.c = 0 ∧ u'.phase = .active ∧ TestsLead p.gs cfg.depth u.kb u' ∧
      u' = { u with s := u'.s, z := u'.z, c := 0, phase := .active, kb := u'.kb, op := u'.op }) ∧
    (vs.len ≤ idx ∨ vz.len ≤ idx → opFetchSZ p cfg m u = .error .outOfBounds)

/-- MAC(i) (42_reduce.md R89): at an index inside the view, with scale, zero-point and the lane's code written, the
accumulator becomes `fadd(acc, fmul(a, fadd(fmul(s, u2f(w_i)), z)))`; before lane 3 no other register changes but the
model's `op`, which moves on to the next lane; after lane 3 `k` and `c` have advanced by 4 (R86), and `kb` and `op` are
where the loop tests lead (R87, R88). At or beyond the view it is the fault OutOfBounds; inside it, with scale, zero-point
or code not yet written, the fault unwrittenRegister (10_state.md R20, log 5). -/
def Obligations.MacAccumulates : Prop :=
  ∀ (p : Params) (cfg : Cfg) (m : Memory) (u : WorkUnit) (i : Fin 4) (v : View), cfg.bind.a = some v →
    let idx := u.gy.toNat * cfg.k.toNat + (u.k + i.val)
    (∀ s z w, u.s = some s → u.z = some z → u.code i = some w → idx < v.len →
      let acc := fadd u.acc (fmul (cvtIn p.ty (m.elemAt p.ty v idx)) (fadd (fmul s (u2f w)) z))
      ∃ u', opMac p cfg m i u = .ok u' ∧ u'.acc = acc ∧
        (∀ h : i.val < 3, u' = { u with acc := acc, op := .mac ⟨i.val + 1, by omega⟩ }) ∧
        (i.val = 3 → u' = { u with acc := acc, k := u.k + 4, c := u.c + 4, kb := u'.kb, op := u'.op } ∧
          TestsLead p.gs cfg.depth u.kb u')) ∧
    (idx < v.len → u.s = none ∨ u.code i = none ∨ u.z = none → opMac p cfg m i u = .error .unwrittenRegister) ∧
    (v.len ≤ idx → opMac p cfg m i u = .error .outOfBounds)

/-- STOREC (42_reduce.md R92): inside the view, the element at `gy·N + gx` of C becomes the cast of the accumulator, every
byte outside that element stays, and the unit is retired with its other registers as they were; at or beyond the view it
is the fault OutOfBounds. Memory is in its canonical form, which every step keeps. -/
def Obligations.StoreCWritesOneElement : Prop :=
  ∀ (p : Params) (cfg : Cfg) (m : Memory) (u : WorkUnit) (v : View), cfg.bind.c = some v → m.wf →
    let idx := u.gy.toNat * cfg.n.toNat + u.gx.toNat
    (idx < v.len → ∃ m', opStoreC p cfg m u = .ok ({ u with phase := .retired }, m') ∧
      m'.elemAt p.ty v idx = cvtOut p.ty u.acc ∧
      ∀ a, ¬ inRange (v.base + idx * p.ty.bytes, p.ty.bytes) a → m'.readByte a = m.readByte a) ∧
    (v.len ≤ idx → opStoreC p cfg m u = .error .outOfBounds)

/-- Only STOREC changes memory, and no step of a unit changes its coordinate (10_state.md R18, 20_memory.md R40). -/
def Obligations.OnlyStoreCWritesMemory : Prop :=
  ∀ (p : Params) (cfg : Cfg) (m m' : Memory) (u u' : WorkUnit), unitStep p cfg m u = .ok (u', m') →
    u'.gx = u.gx ∧ u'.gy = u.gy ∧ (u.op ≠ .storeC → m' = m)

/-- The loop invariant (10_state.md R19, R20; 42_reduce.md R87, R88): under the launch premises a live unit at a place of
its sequence takes its step without a fault, to a place of its sequence: at every loop test `kb = k / GS` and
`c = k - kb·GS`, `k` is a multiple of 4 that never passes K, and what an operation reads is written. -/
def Obligations.UnitSequenceInvariant : Prop :=
  ∀ (p : Params) (cfg : Cfg) (m : Memory) (u : WorkUnit), GsOk p.gs → CfgOk p cfg →
    u.gx.toNat < cfg.cols → u.gy.toNat < cfg.rows → u.phase ≠ .retired → SeqOk p.gs cfg.depth u →
      ∃ u' m', unitStep p cfg m u = .ok (u', m') ∧ SeqOk p.gs cfg.depth u' ∧ (u'.phase = .retired ↔ u.op = .storeC)

/-- One work unit by itself (42_reduce.md R86, R88; 70_reset_and_hazards.md R177): it retires after exactly G FETCHSZ, K/4
LOADWIN, K/4 UNPACK, K MAC and one STOREC steps, writes nothing before its last step, and leaves its element at the value
of 43_dispatch.md R104 and every byte outside the element as it was. -/
def Obligations.WorkUnitRetiresWithItsValue : Prop :=
  ∀ (p : Params) (cfg : Cfg) (m : Memory) (row col : Nat), GsOk p.gs → CfgOk p cfg → m.wf →
    row < cfg.rows → col < cfg.cols →
    let steps := groups p.gs cfg.depth + cfg.depth / 4 + cfg.depth / 4 + cfg.depth + 1
    (∀ n, n < steps → ∃ u', unitRun p cfg n m (WorkUnit.start col row) = .ok (u', m) ∧ u'.phase ≠ .retired) ∧
    ∃ u' m', unitRun p cfg steps m (WorkUnit.start col row) = .ok (u', m') ∧ u'.phase = .retired ∧
      m'.elemAt p.ty (slotView cfg.bind.c) (row * cfg.cols + col) = resultAt p cfg m row col ∧
      ∀ a, ¬ inRange ((slotView cfg.bind.c).base + (row * cfg.cols + col) * p.ty.bytes, p.ty.bytes) a →
        m'.readByte a = m.readByte a

/-- Group arithmetic (41_dequant.md R75): for every K ≥ 1 and every GS ≥ 1 the groups that occur are 0 to
`ceil(K/GS) - 1`; all but the last have exactly GS positions and the last has `K - GS·(G-1)`, at most GS; where GS and K
are multiples of 4 every group's size is a multiple of 4 and the four positions of a window lie in one group; where
GS ≥ K there is one group. -/
def Obligations.GroupSizes : Prop :=
  ∀ gs k, 0 < gs → 0 < k →
    let g := groups gs k
    let size := fun kb => ((List.range k).filter fun pos => pos / gs == kb).length
    g = (k + gs - 1) / gs ∧
    (∀ kb, 0 < size kb ↔ kb < g) ∧
    (∀ kb, kb + 1 < g → size kb = gs) ∧
    size (g - 1) = k - gs * (g - 1) ∧ size (g - 1) ≤ gs ∧
    (gs % 4 = 0 → k % 4 = 0 → (∀ kb, size kb % 4 = 0) ∧ 4 ≤ size (g - 1) ∧
      ∀ pos i, pos % 4 = 0 → i < 4 → (pos + i) / gs = pos / gs) ∧
    (k ≤ gs → g = 1)

/-! ### Numerics -/

/-- `cvt_in_T` is exact (44_numerics.md R131, property P-exact-in of R141; decisions D8, D13 of the spec): a pattern that
is no NaN keeps its sign and its value, infinities included; a NaN becomes the canonical NaN. -/
def Obligations.CvtInIsExact : Prop :=
  ∀ (ty : Ty) (x : Elem), x.toNat < 256 ^ ty.bytes →
    ((fmtOf ty).isNaN x = true → cvtIn ty x = 0x7FC00000#32) ∧
    ((fmtOf ty).isNaN x = false →
      binary32.isNaN (cvtIn ty x) = false ∧ binary32.sign (cvtIn ty x) = (fmtOf ty).sign x ∧
      binary32.isInf (cvtIn ty x) = (fmtOf ty).isInf x ∧
      ((fmtOf ty).isInf x = false →
        binary32.mag (cvtIn ty x) = (fmtOf ty).mag x * 2 ^ (binary32.lsb - (fmtOf ty).lsb)))

/-- `u2f` is exact on all 64 codes (44_numerics.md R132): a non-negative pattern of value `w`; `+0.0` for code 0, and
for `w ≥ 1` with `h = floor(log2 w)` the pattern of the rule; the rule's examples. -/
def Obligations.U2fIsExact : Prop :=
  (∀ w : Code, binary32.sign (u2f w) = false ∧ binary32.isNaN (u2f w) = false ∧ binary32.isInf (u2f w) = false ∧
    binary32.mag (u2f w) = w.toNat * 2 ^ binary32.lsb) ∧
  u2f 0#6 = 0x00000000#32 ∧
  (∀ (w : Code) (h : Fin 6), 2 ^ h.val ≤ w.toNat → w.toNat < 2 ^ (h.val + 1) →
    (u2f w).toNat = (127 + h.val) * 2 ^ 23 + (w.toNat - 2 ^ h.val) * 2 ^ (23 - h.val)) ∧
  u2f 1#6 = 0x3F800000#32 ∧ u2f 5#6 = 0x40A00000#32 ∧ u2f 32#6 = 0x42000000#32 ∧ u2f 63#6 = 0x427C0000#32

/-- Multiplication and addition are commutative bit for bit (44_numerics.md R133, R134). -/
def Obligations.ArithmeticCommutes : Prop :=
  ∀ x y : F32, fmul x y = fmul y x ∧ fadd x y = fadd y x

/-- Adding a zero of either sign to a non-zero number or infinity returns it (44_numerics.md R134). -/
def Obligations.AddingZeroChangesNothing : Prop :=
  ∀ x z : F32, binary32.isZero z = true → binary32.isZero x = false → binary32.isNaN x = false →
    fadd x z = x ∧ fadd z x = x

/-- Rounding is to nearest, ties to even, with gradual underflow (44_numerics.md R135; decisions D9, D13 of the spec):
when the result is finite, no finite pattern of the format is nearer to the exact value, and where another is equally
near the result's fraction is even. Magnitudes are in units of `2^(-u)`. -/
def Obligations.RoundingIsNearestEven : Prop :=
  ∀ (ty : Ty) (neg : Bool) (u mag : Nat), (fmtOf ty).lsb ≤ u →
    let f := fmtOf ty
    let r := roundFmt f neg u mag
    f.isNaN r = false ∧ f.sign r = neg ∧ (f.isInf r = false → IsNearest ty u mag r)

/-- Overflow (44_numerics.md R135, R136; decision D14 of the spec): the rounded value is an infinity exactly from half a
unit above the largest finite magnitude on, the tie included. -/
def Obligations.OverflowThreshold : Prop :=
  ∀ (ty : Ty) (neg : Bool) (u mag : Nat), (fmtOf ty).lsb ≤ u →
    let f := fmtOf ty
    (f.isInf (roundFmt f neg u mag) = true ↔
      (2 ^ (f.fracBits + 2) - 1) * 2 ^ (2 ^ (f.expBits - 1) - 1 - f.fracBits - 1 + u) ≤ mag)

/-- `fmul` (44_numerics.md R133, R135; property P-round of R141; decisions D9, D13 of the spec) on operands that are no NaN,
`neg` being the exclusive or of the signs: an infinity times anything but a zero is the infinity of sign `neg`; a zero
times a finite operand is the zero of sign `neg`; for finite non-zero operands the exact product, `mag x · mag y` in units
of `2^(-298)`, rounded once: no NaN, of sign `neg`, an infinity exactly from half a unit above the largest finite magnitude
on, and below that the nearest finite pattern, ties to even. The invalid product and the NaN operands are NaNIsCanonical's. -/
def Obligations.FmulIsCorrectlyRounded : Prop :=
  ∀ x y : F32, binary32.isNaN x = false → binary32.isNaN y = false →
    let neg := binary32.sign x ^^ binary32.sign y
    (binary32.isInf x = true → binary32.isZero y = false →
      fmul x y = (if neg then 0xFF800000#32 else 0x7F800000#32) ∧ fmul y x = fmul x y) ∧
    (binary32.isZero x = true → binary32.isInf y = false →
      fmul x y = (if neg then 0x80000000#32 else 0x00000000#32) ∧ fmul y x = fmul x y) ∧
    (binary32.isInf x = false → binary32.isInf y = false → binary32.isZero x = false → binary32.isZero y = false →
      let exact := binary32.mag x * binary32.mag y
      binary32.isNaN (fmul x y) = false ∧ binary32.sign (fmul x y) = neg ∧
      (binary32.isInf (fmul x y) = true ↔ (2 ^ 25 - 1) * 2 ^ (103 + 298) ≤ exact) ∧
      (binary32.isInf (fmul x y) = false → IsNearest .f32 298 exact (fmul x y)))

/-- `fadd` (44_numerics.md R134, R135; property P-round of R141; decisions D9, D13 of the spec) on operands that are no NaN:
an infinity plus a finite operand or an infinity of its sign is that infinity; zeros add to `-0.0` where both are `-0.0`,
else to `+0.0`; non-zeros that cancel give `+0.0`; for finite operands whose exact sum, in units of `2^(-149)`, is not 0
that sum rounded once: no NaN, of the sum's sign, an infinity exactly from half a unit above the largest finite magnitude
on, and below that the nearest finite pattern, ties to even. The invalid sum and the NaN operands are NaNIsCanonical's. -/
def Obligations.FaddIsCorrectlyRounded : Prop :=
  ∀ x y : F32, binary32.isNaN x = false → binary32.isNaN y = false →
    (binary32.isInf x = true → (binary32.isInf y = true → binary32.sign y = binary32.sign x) →
      fadd x y = x ∧ fadd y x = x) ∧
    (binary32.isZero x = true → binary32.isZero y = true →
      fadd x y = if binary32.sign x ∧ binary32.sign y then 0x80000000#32 else 0x00000000#32) ∧
    (binary32.isInf x = false → binary32.isInf y = false →
      let exact := signedMag x + signedMag y
      (binary32.isZero x = false → exact = 0 → fadd x y = 0x00000000#32) ∧
      (exact ≠ 0 → binary32.isNaN (fadd x y) = false ∧ binary32.sign (fadd x y) = decide (exact < 0) ∧
        (binary32.isInf (fadd x y) = true ↔ (2 ^ 25 - 1) * 2 ^ (103 + 149) ≤ exact.natAbs) ∧
        (binary32.isInf (fadd x y) = false → IsNearest .f32 149 exact.natAbs (fadd x y))))

/-- The bit-level form of the cast to bfloat16 (44_numerics.md R136): with upper half `h` and lower half `l`, `h + 1` when
`l` is above `0x8000`, or equal to it with `h` odd; else `h`. -/
def Obligations.Bf16CastBitForm : Prop :=
  ∀ x : F32, binary32.isNaN x = false →
    let h := x.toNat / 65536
    let l := x.toNat % 65536
    (cvtOut .bf16 x).toNat = if 0x8000 < l ∨ (l = 0x8000 ∧ h % 2 = 1) then h + 1 else h

/-- The cast to binary16 at its ends (44_numerics.md R136, 42_reduce.md R92): from 65520 on an infinity of the sign, up to
2^-25 a zero of the sign, and between the two neither an infinity nor a NaN. -/
def Obligations.F16CastEnds : Prop :=
  ∀ x : F32, binary32.isNaN x = false →
    (65520 * 2 ^ binary32.lsb ≤ binary32.mag x →
      cvtOut .f16 x = if binary32.sign x then 0xFC00#32 else 0x7C00#32) ∧
    (binary32.mag x ≤ 2 ^ (binary32.lsb - 25) →
      cvtOut .f16 x = if binary32.sign x then 0x8000#32 else 0x0000#32) ∧
    (binary32.mag x < 65520 * 2 ^ binary32.lsb →
      binary16.isInf (cvtOut .f16 x) = false ∧ binary16.isNaN (cvtOut .f16 x) = false)

/-- The cast to binary16 below 65520 (44_numerics.md R136, R135; property P-cast of R141; decision D14 of the spec): a
16-bit pattern, finite, of the operand's sign, and the nearest to the operand, ties to even; zeros, whose sign is kept,
among the operands. -/
def Obligations.F16CastIsNearestEven : Prop :=
  ∀ x : F32, binary32.isNaN x = false → binary32.mag x < 65520 * 2 ^ binary32.lsb →
    (cvtOut .f16 x).toNat < 2 ^ 16 ∧ binary16.isNaN (cvtOut .f16 x) = false ∧ binary16.isInf (cvtOut .f16 x) = false ∧
      binary16.sign (cvtOut .f16 x) = binary32.sign x ∧ IsNearest .f16 binary32.lsb (binary32.mag x) (cvtOut .f16 x)

/-- Widening a stored element and casting it back gives it again, NaNs aside (44_numerics.md R131, R136). -/
def Obligations.StorageRoundTrip : Prop :=
  ∀ (ty : Ty) (x : Elem), x.toNat < 256 ^ ty.bytes → (fmtOf ty).isNaN x = false → cvtOut ty (cvtIn ty x) = x

/-- Every NaN delivered is the canonical one of its format (44_numerics.md R130): whatever the operands, a result of
`cvt_in`, `fmul`, `fadd` or `cvt_out` that is a NaN of its format is the canonical NaN; and a NaN is delivered for a NaN
operand of any primitive, the invalid product, the invalid sum, and by a MAC whose accumulator is already NaN. -/
def Obligations.NaNIsCanonical : Prop :=
  (∀ ty x, binary32.isNaN (cvtIn ty x) = true → cvtIn ty x = 0x7FC00000#32) ∧
  (∀ x y, binary32.isNaN (fmul x y) = true → fmul x y = 0x7FC00000#32) ∧
  (∀ x y, binary32.isNaN (fadd x y) = true → fadd x y = 0x7FC00000#32) ∧
  (∀ x, (binary32.isNaN (cvtOut .f32 x) = true → cvtOut .f32 x = 0x7FC00000#32) ∧
    (binary16.isNaN (cvtOut .f16 x) = true → cvtOut .f16 x = 0x7E00#32) ∧
    (bfloat16.isNaN (cvtOut .bf16 x) = true → cvtOut .bf16 x = 0x7FC0#32)) ∧
  (∀ ty x, (fmtOf ty).isNaN x = true → cvtIn ty x = 0x7FC00000#32) ∧
  (∀ x y, binary32.isNaN x = true ∨ binary32.isNaN y = true → fmul x y = 0x7FC00000#32 ∧ fadd x y = 0x7FC00000#32) ∧
  (∀ x y, binary32.isInf x = true → binary32.isZero y = true →
    fmul x y = 0x7FC00000#32 ∧ fmul y x = 0x7FC00000#32) ∧
  (∀ x y, binary32.isInf x = true → binary32.isInf y = true → binary32.sign x ≠ binary32.sign y →
    fadd x y = 0x7FC00000#32) ∧
  (∀ x, binary32.isNaN x = true →
    cvtOut .f32 x = 0x7FC00000#32 ∧ cvtOut .f16 x = 0x7E00#32 ∧ cvtOut .bf16 x = 0x7FC0#32) ∧
  (∀ acc a s w z, binary32.isNaN acc = true → macValue acc a s w z = 0x7FC00000#32)

/-- Code 0 dequantizes to the zero-point (41_dequant.md R77, first corner case): with a finite scale and a zero-point that
is no NaN, `d = z`, but for `z = -0.0` under a scale without the sign bit, which gives `+0.0`. -/
def Obligations.CodeZeroGivesZeroPoint : Prop :=
  ∀ s z : F32, binary32.isNaN s = false → binary32.isInf s = false → binary32.isNaN z = false →
    deq s 0#6 z = if z = 0x80000000#32 ∧ binary32.sign s = false then 0x00000000#32 else z

/-! ### Dispatches -/

/-- LAUNCH (43_dispatch.md R100, R101; 10_state.md R17, R21; 70_reset_and_hazards.md R170), seen by a host that looks
before any unit moves: STATUS is RUNNING, there are exactly M·N units, one for each coordinate, each at the start values
the spec gives and at the head of its sequence, and nothing else has changed. That the look shows it, and that a register
whose start value is unspecified holds no value, is the model's (logs 8, 5). -/
def Obligations.LaunchCreatesGrid : Prop :=
  ∀ (i : Instr) (s : State) (rest : List Move), LaunchOk ⟨i.gs, i.ty⟩ s → s.agenda = .host .look :: rest →
    ∃ t, exec i s = .next t ∧ t = { s with status := .running, units := t.units, agenda := rest } ∧
      t.units.length = s.cfg.rows * s.cfg.cols ∧
      (∀ row col, row < s.cfg.rows → col < s.cfg.cols →
        ∃! j : Nat, ∃ u : WorkUnit, t.units[j]? = some u ∧ u.gx.toNat = col ∧ u.gy.toNat = row) ∧
      ∀ u ∈ t.units, u.kb = 0 ∧ u.k = 0 ∧ u.c = 0 ∧ u.acc = 0x00000000#32 ∧ u.phase = .ready ∧ u.op = .fetchSZ ∧
        u.s = none ∧ u.z = none ∧ u.b0 = none ∧ u.b1 = none ∧ u.b2 = none ∧
        u.w0 = none ∧ u.w1 = none ∧ u.w2 = none ∧ u.w3 = none

/-- `QLK_<GS>_F32` (43_dispatch.md R104, R105 to R108): from every launch state that meets the premises, whatever the
order in which the work units move, the entry point completes: STATUS DONE, every element of `C[0 .. M·N)` at the value
of R104, every other byte of memory, CFG and the slots unchanged, no work unit left. The host makes no move during the
dispatch, and memory is in its canonical form, which every step keeps. -/
def Obligations.F32EntryPointsDeliver : Prop :=
  ∀ (i : Instr) (gs : Nat), (i, gs) ∈ [(Instr.qlk32F32, 32), (Instr.qlk64F32, 64), (Instr.qlk128F32, 128),
      (Instr.qlk256F32, 256)] →
    ∀ s, LaunchOk ⟨gs, .f32⟩ s → s.mem.wf → UnitsMove (dispatchSteps ⟨gs, .f32⟩ s.cfg) s.agenda →
      ∃ t, exec i s = .next t ∧ Delivers ⟨gs, .f32⟩ s t

/-- `QLK_<GS>_F16` (43_dispatch.md R104, R109 to R112): as for F32, with binary16 elements. -/
def Obligations.F16EntryPointsDeliver : Prop :=
  ∀ (i : Instr) (gs : Nat), (i, gs) ∈ [(Instr.qlk32F16, 32), (Instr.qlk64F16, 64), (Instr.qlk128F16, 128),
      (Instr.qlk256F16, 256)] →
    ∀ s, LaunchOk ⟨gs, .f16⟩ s → s.mem.wf → UnitsMove (dispatchSteps ⟨gs, .f16⟩ s.cfg) s.agenda →
      ∃ t, exec i s = .next t ∧ Delivers ⟨gs, .f16⟩ s t

/-- `QLK_<GS>_BF16` (43_dispatch.md R104, R113 to R116): as for F32, with bfloat16 elements, where HAS_BF16. -/
def Obligations.Bf16EntryPointsDeliver : Prop :=
  ∀ (i : Instr) (gs : Nat), (i, gs) ∈ [(Instr.qlk32Bf16, 32), (Instr.qlk64Bf16, 64), (Instr.qlk128Bf16, 128),
      (Instr.qlk256Bf16, 256)] →
    ∀ s, LaunchOk ⟨gs, .bf16⟩ s → s.mem.wf → UnitsMove (dispatchSteps ⟨gs, .bf16⟩ s.cfg) s.agenda →
      ∃ t, exec i s = .next t ∧ Delivers ⟨gs, .bf16⟩ s t

/-- The result does not depend on the schedule (20_memory.md R43(d), 43_dispatch.md R102): two orders of the same
dispatch end with the same memory, STATUS and CFG. -/
def Obligations.ScheduleDoesNotMatter : Prop :=
  ∀ (i : Instr) (s : State) (other : List Move), LaunchOk ⟨i.gs, i.ty⟩ s → s.mem.wf →
    UnitsMove (dispatchSteps ⟨i.gs, i.ty⟩ s.cfg) s.agenda → UnitsMove (dispatchSteps ⟨i.gs, i.ty⟩ s.cfg) other →
    ∃ t t', exec i s = .next t ∧ exec i { s with agenda := other } = .next t' ∧
      t.mem = t'.mem ∧ t.status = t'.status ∧ t.cfg = t'.cfg

/-- Every schedule is a run (43_dispatch.md R102): any live unit can be the next to move. -/
def Obligations.AnyLiveUnitCanMoveNext : Prop :=
  ∀ (units : List WorkUnit) (j : Nat) (u : WorkUnit), units[j]? = some u → u.phase ≠ .retired →
    ∃ pick, pickUnit units pick = some j

/-- Purity (42_reduce.md R95): the element `C[row, col]` is a function of row `row` of A, row `col` of B, column `col` of S
and of Z, K, GS and T: two launches that agree on these, wherever the buffers lie and whatever else differs, deliver the
same element. -/
def Obligations.ElementDependsOnItsRowAndColumn : Prop :=
  ∀ (i : Instr) (s s' : State) (row col : Nat),
    let p : Params := ⟨i.gs, i.ty⟩
    LaunchOk p s → LaunchOk p s' → s.mem.wf → s'.mem.wf →
    UnitsMove (dispatchSteps p s.cfg) s.agenda → UnitsMove (dispatchSteps p s'.cfg) s'.agenda →
    s.cfg.depth = s'.cfg.depth → row < s.cfg.rows → row < s'.cfg.rows → col < s.cfg.cols → col < s'.cfg.cols →
    (∀ pos, pos < s.cfg.depth → s.mem.elemAt p.ty (slotView s.cfg.bind.a) (row * s.cfg.depth + pos) =
      s'.mem.elemAt p.ty (slotView s'.cfg.bind.a) (row * s.cfg.depth + pos)) →
    (∀ off, off < rowBytes s.cfg.depth →
      s.mem.readByte ((slotView s.cfg.bind.b).base + (col * rowBytes s.cfg.depth + off)) =
      s'.mem.readByte ((slotView s'.cfg.bind.b).base + (col * rowBytes s.cfg.depth + off))) →
    (∀ kb, kb < groups p.gs s.cfg.depth →
      s.mem.elemAt p.ty (slotView s.cfg.bind.s) (kb * s.cfg.cols + col) =
        s'.mem.elemAt p.ty (slotView s'.cfg.bind.s) (kb * s'.cfg.cols + col) ∧
      s.mem.elemAt p.ty (slotView s.cfg.bind.z) (kb * s.cfg.cols + col) =
        s'.mem.elemAt p.ty (slotView s'.cfg.bind.z) (kb * s'.cfg.cols + col)) →
    ∃ t t', exec i s = .next t ∧ exec i s' = .next t' ∧
      t.mem.elemAt p.ty (slotView s.cfg.bind.c) (row * s.cfg.cols + col) =
        t'.mem.elemAt p.ty (slotView s'.cfg.bind.c) (row * s'.cfg.cols + col)

/-- A launch that violates a premise is refused under the name of a premise it violates (43_dispatch.md R100,
60_exceptions.md R151 V1 to V5, V7, V8; which one, when several fail, is open: R153, log 10). The model judges the overlap
of C on the whole views (log 28) and knows a size that did not fit by its mark (log 17). -/
def Obligations.ViolatedLaunchRefused : Prop :=
  ∀ (i : Instr) (s : State), s.status ≠ .running → (∃ r, Violated ⟨i.gs, i.ty⟩ s r) →
    ∃ r, exec i s = .refused r ∧ Violated ⟨i.gs, i.ty⟩ s r

/-- While RUNNING (60_exceptions.md R151 V9, V10; R157 H5, H6; the refusals of V9 are the stricter model of decision D30,
log 13): a LAUNCH is refused Busy; a CFG write and a store that meets a bound view are refused; a store that meets none
goes on and, seen by a look after it (log 8), has changed exactly the bytes it names. -/
def Obligations.RunningRefusesHostBreaches : Prop :=
  ∀ (i : Instr) (s : State) (rest : List Move), s.status = .running →
    (∀ g, s.agenda = .launch g :: rest → exec i s = .refused .busy) ∧
    (∀ v, s.agenda = .host (.writeSel v) :: rest → exec i s = .refused .hostDutyBreached) ∧
    (∀ m k n, s.agenda = .host (.writeSize m k n) :: rest → exec i s = .refused .hostDutyBreached) ∧
    (∀ slot v, s.agenda = .host (.bind slot v) :: rest → exec i s = .refused .hostDutyBreached) ∧
    (∀ addr bytes slot a, s.agenda = .host (.store addr bytes) :: rest →
      inRange (addr, bytes.length) a → inRange (slotRange i.ty s.cfg.bind slot) a →
      exec i s = .refused .hostDutyBreached) ∧
    (∀ addr bytes, s.agenda = .host (.store addr bytes) :: .host .look :: rest → s.mem.wf →
      (∀ slot a, inRange (addr, bytes.length) a → ¬ inRange (slotRange i.ty s.cfg.bind slot) a) →
      ∃ t, exec i s = .next t ∧ t = { s with agenda := rest, mem := t.mem } ∧
        (∀ j, j < bytes.length → t.mem.readByte (addr + j) = bytes.getD j 0#8) ∧
        ∀ a, a < addr ∨ addr + bytes.length ≤ a → t.mem.readByte a = s.mem.readByte a)

/-- A read of C while RUNNING (20_memory.md R44; 93_implementation_defined.md U12: any value), seen by a look after it
(log 8): it changes nothing of the dispatch, the host gets a pattern of `T` for every element, and what it gets does not
depend on C: two states that agree on CFG and on the count of free values drawn give it the same, whatever memory and the
work units hold. Of the values, which are free, nothing is stated (log 29). -/
def Obligations.ReadOfUnfinishedCLearnsNothing : Prop :=
  ∀ (i : Instr) (s : State) (rest : List Move), s.status = .running → s.agenda = .host .readC :: .host .look :: rest →
    ∃ t, exec i s = .next t ∧ t = { s with agenda := rest, draws := t.draws, seenC := t.seenC } ∧
      (s.cfg.rows * s.cfg.cols ≤ slotLen s.cfg.bind.c → t.seenC.length = s.cfg.rows * s.cfg.cols) ∧
      (∀ e ∈ t.seenC, e.toNat < 256 ^ i.ty.bytes) ∧
      ∀ (s' : State) (rest' : List Move), s'.status = .running → s'.agenda = .host .readC :: .host .look :: rest' →
        s'.cfg = s.cfg → s'.draws = s.draws → ∃ t', exec i s' = .next t' ∧ t'.seenC = t.seenC

/-- Abort (60_exceptions.md R154): the work units cease to exist, STATUS is IDLE, CFG stays, and every byte outside
`C[0 .. M·N)` stays; what C holds is a free value per element (log 9), of which nothing is stated. A reset while RUNNING
is an abort that also resets CFG (log 15), and the values CFG then has are the model's choice (log 3). -/
def Obligations.AbortEndsDispatch : Prop :=
  (∀ (i : Instr) (s : State) (rest : List Move), s.status = .running → s.agenda = .host .abort :: rest →
    ∃ t, exec i s = .next t ∧ t.status = .idle ∧ t.units = [] ∧ t.cfg = s.cfg ∧ t.agenda = rest ∧ t.grid = s.grid ∧
      t.seenC = s.seenC ∧ ∀ a, ¬ inRange (outputRange i.ty s.cfg) a → t.mem.readByte a = s.mem.readByte a) ∧
  ∀ (i : Instr) (s : State) (rest : List Move), s.status = .running → s.agenda = .host .reset :: rest →
    ∃ t, exec i s = .next t ∧ t.status = .idle ∧ t.units = [] ∧ t.cfg = State.reset.cfg ∧ t.agenda = rest ∧
      t.grid = s.grid ∧ t.seenC = s.seenC ∧ ∀ a, ¬ inRange (outputRange i.ty s.cfg) a → t.mem.readByte a = s.mem.readByte a

/-- One move of one unit can be seen: while RUNNING, a pick followed by the host's look makes exactly the picked unit's
step and ends the machine's step there (43_dispatch.md R102, 60_exceptions.md R157 H9; log 8). -/
def Obligations.LookShowsOneUnitStep : Prop :=
  ∀ (i : Instr) (s : State) (pick j : Nat) (u u' : WorkUnit) (m' : Memory) (rest : List Move),
    s.status = .running → s.agenda = .unit pick :: .host .look :: rest →
    pickUnit s.units pick = some j → s.units[j]? = some u →
    unitStep ⟨i.gs, i.ty⟩ s.cfg s.mem u = .ok (u', m') → (∃ v ∈ s.units.set j u', v.phase ≠ .retired) →
      exec i s = .next { s with units := s.units.set j u', mem := m', agenda := rest }

/-- Looking does not disturb a dispatch (60_exceptions.md R157 H9; log 8): stopped by a look before its last step, the
dispatch is RUNNING, and the machine's next step ends it as if it had not been stopped. -/
def Obligations.InterruptedDispatchDelivers : Prop :=
  ∀ (i : Instr) (s : State) (before after : List Move), decodeSel s.cfg.sel = .ok i →
    LaunchOk ⟨i.gs, i.ty⟩ s → s.mem.wf →
    s.agenda = before ++ .host .look :: after → before.length < dispatchSteps ⟨i.gs, i.ty⟩ s.cfg →
    (∀ mv ∈ before, ∃ pick, mv = .unit pick) →
    UnitsMove (dispatchSteps ⟨i.gs, i.ty⟩ s.cfg - before.length) after →
    ∃ s1 t, exec i s = .next s1 ∧ s1.status = .running ∧ step s1 = .next t ∧ t.status = .done ∧ t.units = [] ∧
      (∀ row col, row < s.cfg.rows → col < s.cfg.cols →
        t.mem.elemAt i.ty (slotView s.cfg.bind.c) (row * s.cfg.cols + col) =
          resultAt ⟨i.gs, i.ty⟩ s.cfg s.mem row col) ∧
      ∀ a, ¬ inRange (outputRange i.ty s.cfg) a → t.mem.readByte a = s.mem.readByte a

/-- What the host sees of C (20_memory.md R44; 60_exceptions.md R157 H6, H8; 93_implementation_defined.md U12): a read of C
that arrives before the last step of a dispatch gets free values (log 29) and does not disturb the dispatch, which delivers
all the same; one that arrives after it finds STATUS DONE, gives the host every element at its value (43_dispatch.md
R104), and changes nothing else. -/
def Obligations.HostSeesResultAtDone : Prop :=
  ∀ (i : Instr) (s : State) (picks rest : List Move), decodeSel s.cfg.sel = .ok i → LaunchOk ⟨i.gs, i.ty⟩ s → s.mem.wf →
    s.agenda = picks ++ .host .readC :: rest → (∀ mv ∈ picks, ∃ pick, mv = .unit pick) →
    (picks.length < dispatchSteps ⟨i.gs, i.ty⟩ s.cfg →
      UnitsMove (dispatchSteps ⟨i.gs, i.ty⟩ s.cfg - picks.length) rest →
      ∃ t, exec i s = .next t ∧ t.status = .done ∧ t.units = [] ∧ t.cfg = s.cfg ∧
        t.seenC.length = s.cfg.rows * s.cfg.cols ∧
        (∀ row col, row < s.cfg.rows → col < s.cfg.cols →
          t.mem.elemAt i.ty (slotView s.cfg.bind.c) (row * s.cfg.cols + col) =
            resultAt ⟨i.gs, i.ty⟩ s.cfg s.mem row col) ∧
        ∀ a, ¬ inRange (outputRange i.ty s.cfg) a → t.mem.readByte a = s.mem.readByte a) ∧
    (picks.length = dispatchSteps ⟨i.gs, i.ty⟩ s.cfg →
      ∃ t t', exec i s = .next t ∧ t.status = .done ∧ t.agenda = .host .readC :: rest ∧
        step t = .next t' ∧ t' = { t with agenda := rest, seenC := t'.seenC } ∧
        t'.seenC.length = s.cfg.rows * s.cfg.cols ∧
        ∀ row col, row < s.cfg.rows → col < s.cfg.cols →
          t'.seenC[row * s.cfg.cols + col]? = some (resultAt ⟨i.gs, i.ty⟩ s.cfg s.mem row col))

/-! ### Invariants of every step -/

/-- The machine's invariant holds at reset. -/
def Obligations.InvariantAtReset : Prop := State.reset.Inv

/-- Every step keeps the machine's invariant (10_state.md R14, R19, R25; 43_dispatch.md R101): memory in canonical form;
outside a dispatch no work unit exists; in one, the launch premises hold and the units are those of the grid, each at a
place of its sequence. -/
def Obligations.InvariantKept : Prop :=
  ∀ s t : State, s.Inv → step s = .next t → t.Inv

/-- Every step keeps the canonical form of memory, from any state at all. -/
def Obligations.MemoryCanonicalKept : Prop :=
  ∀ s t : State, s.mem.wf → step s = .next t → t.mem.wf

/-- No step faults (20_memory.md R41, 10_state.md R20, 60_exceptions.md R150): under the machine's invariant no access
leaves its view and no register is read before it is written. -/
def Obligations.NoStepFaults : Prop :=
  ∀ s : State, s.Inv → ∀ f, step s ≠ .fault f

/-- What a dispatch leaves alone, from any state at all (60_exceptions.md R157, "What the core owes the host"): when the
host makes no move, an execution that answers a next state leaves every byte outside the view of C, CFG, the launched
grid, the free-value counter and what the host last read of C as they were. -/
def Obligations.ExecutionFrame : Prop :=
  ∀ (i : Instr) (s t : State), (∀ mv ∈ s.agenda, ∃ pick, mv = .unit pick) → exec i s = .next t →
    t.cfg = s.cfg ∧ t.grid = s.grid ∧ t.draws = s.draws ∧ t.seenC = s.seenC ∧
    ∀ a, ¬ inRange (slotRange i.ty s.cfg.bind .c) a → t.mem.readByte a = s.mem.readByte a
end

