-- ==== Sys2Proof/Laws/Indices.lean ====
section
/-!
SUPPORT. The arithmetic of groups, windows and indices: under the launch premises every index a work unit forms is
inside its view (20_memory.md R41).
-/

namespace Sys2Proof.Machine

theorem lt_groups_iff {gs k kb : Nat} (hgs : 0 < gs) : kb < groups gs k ↔ kb * gs < k := by
  unfold groups
  rw [Nat.lt_div_iff_mul_lt hgs]
  omega

theorem div_lt_groups {gs k pos : Nat} (hgs : 0 < gs) (h : pos < k) : pos / gs < groups gs k :=
  (lt_groups_iff hgs).mpr (lt_of_le_of_lt (Nat.div_mul_le_self pos gs) h)

theorem row_major_lt {rows cols r c : Nat} (hr : r < rows) (hc : c < cols) : r * cols + c < rows * cols := by
  calc r * cols + c < r * cols + cols := by omega
    _ = (r + 1) * cols := by ring
    _ ≤ rows * cols := Nat.mul_le_mul_right _ hr

theorem idxA_lt {rows k m pos : Nat} (hm : m < rows) (hp : pos < k) : idxA k m pos < rows * k :=
  row_major_lt hm hp

theorem idxSZ_lt {gs k cols kb col : Nat} (hkb : kb < groups gs k) (hc : col < cols) :
    idxSZ cols kb col < groups gs k * cols :=
  row_major_lt hkb hc

theorem idxC_lt {rows cols m n : Nat} (hm : m < rows) (hn : n < cols) : idxC cols m n < rows * cols :=
  row_major_lt hm hn

/-- Different output elements have different indices (20_memory.md R40). -/
theorem idxC_inj {cols m n m' n' : Nat} (hn : n < cols) (hn' : n' < cols) (h : idxC cols m n = idxC cols m' n') :
    m = m' ∧ n = n' := by
  unfold idxC at h
  have hpos : 0 < cols := by omega
  have h1 := congrArg (· / cols) h
  have h2 := congrArg (· % cols) h
  simp only [Nat.mul_comm _ cols, Nat.mul_add_div hpos, Nat.mul_add_mod, Nat.div_eq_of_lt hn, Nat.div_eq_of_lt hn',
    Nat.mod_eq_of_lt hn, Nat.mod_eq_of_lt hn', Nat.add_zero] at h1 h2
  exact ⟨h1, h2⟩

/-- A window of a position of row `n` ends inside the packed rows. -/
theorem winAddr_lt {k cols n pos : Nat} (h4 : k % 4 = 0) (hn : n < cols) (hp : pos < k) :
    winAddr k n pos + 2 < cols * rowBytes k := by
  have hrow : 3 * (pos / 4) + 2 < rowBytes k := by unfold rowBytes; omega
  unfold winAddr
  calc n * rowBytes k + 3 * (pos / 4) + 2 < n * rowBytes k + rowBytes k := by omega
    _ = (n + 1) * rowBytes k := by ring
    _ ≤ cols * rowBytes k := Nat.mul_le_mul_right _ hn

/-- The four positions of a stride share their window. -/
theorem winAddr_lane {k n pos : Nat} (i : Nat) (h4 : pos % 4 = 0) (hi : i < 4) :
    winAddr k n (pos + i) = winAddr k n pos := by
  unfold winAddr
  rw [show (pos + i) / 4 = pos / 4 by omega]

/-- The four positions of a stride share their group. -/
theorem group_lane {gs pos : Nat} (i : Nat) (hgs : GsOk gs) (h4 : pos % 4 = 0) (hi : i < 4) :
    (pos + i) / gs = pos / gs := by
  obtain ⟨h0, hg⟩ := hgs
  have hd : (pos + i) / 4 = pos / 4 := by omega
  rw [show gs = 4 * (gs / 4) by omega, ← Nat.div_div_eq_div_mul, ← Nat.div_div_eq_div_mul, hd]

/-! ### The end of a stride: where the counters are at the loop test (10_state.md R19, 42_reduce.md R87, R88) -/

theorem mul_mod_four {gs : Nat} (kb : Nat) (hgs : GsOk gs) : kb * gs % 4 = 0 := by
  rw [Nat.mul_mod, hgs.2, Nat.mul_zero, Nat.zero_mod]

/-- After a stride with positions of its group left: still the same group. -/
theorem stride_same_group {gs pos : Nat} (hgs : GsOk gs) (h : pos - pos / gs * gs + 4 < gs) :
    pos / gs = (pos + 4) / gs := by
  have h1 := Nat.div_add_mod' pos gs
  have h2 : pos % gs + 4 < gs := by omega
  rw [eq_comm, Nat.div_eq_iff hgs.1]
  constructor <;> omega

/-- After the last stride of a group that another group follows: at the head of that group. -/
theorem stride_next_group {gs k pos : Nat} (hgs : GsOk gs) (h4 : pos % 4 = 0) (hk4 : k % 4 = 0) (hp : pos < k)
    (hend : ¬ (pos - pos / gs * gs + 4 < gs ∧ pos + 4 < k)) (hmore : pos / gs + 1 < groups gs k) :
    pos + 4 = (pos / gs + 1) * gs ∧ pos + 4 < k := by
  have h1 := Nat.div_add_mod' pos gs
  have h2 := Nat.mod_lt pos hgs.1
  have h3 := (lt_groups_iff hgs.1).mp hmore
  have h5 := mul_mod_four (pos / gs) hgs
  have h6 := hgs.2
  rw [Nat.add_mul, Nat.one_mul] at h3 ⊢
  generalize pos / gs * gs = b at *
  constructor <;> omega

/-- After the last stride of the last group every position is consumed. -/
theorem stride_last {gs k pos : Nat} (hgs : GsOk gs) (h4 : pos % 4 = 0) (hk4 : k % 4 = 0) (hp : pos < k)
    (hend : ¬ (pos - pos / gs * gs + 4 < gs ∧ pos + 4 < k)) (hlast : ¬ pos / gs + 1 < groups gs k) :
    pos + 4 = k := by
  have h1 := Nat.div_add_mod' pos gs
  have h2 := Nat.mod_lt pos hgs.1
  have h3 := mt (lt_groups_iff hgs.1).mpr hlast
  have h5 := mul_mod_four (pos / gs) hgs
  have h6 := hgs.2
  rw [Nat.add_mul, Nat.one_mul] at h3
  generalize pos / gs * gs = b at *
  omega

end Sys2Proof.Machine
end

