-- ==== Sys2Proof/Laws/Memory.lean ====
section
/-!
SUPPORT. The laws of memory: a read after a write, what a write leaves alone, and that every operation keeps the
canonical form.
-/

namespace Sys2Proof.Machine

/-! ### Bytes -/

theorem readByte_of_below {m : Memory} {x : Nat} (h : ∀ p ∈ m, x < p.1) : m.readByte x = Memory.unlisted := by
  induction m with
  | nil => rfl
  | cons c m ih =>
    obtain ⟨a, b⟩ := c
    have hx : x < a := h _ (List.mem_cons_self ..)
    have : ¬ a = x := by omega
    simp only [Memory.readByte, this, if_false]
    exact ih fun p hp => h p (List.mem_cons_of_mem _ hp)

theorem wf_cons {a : Nat} {b : Byte} {m : Memory} :
    Memory.wf ((a, b) :: m) ↔ (∀ p ∈ m, a < p.1) ∧ b ≠ Memory.unlisted ∧ Memory.wf m := by
  simp only [Memory.wf, List.pairwise_cons, List.mem_cons, forall_eq_or_imp]
  tauto

theorem mem_writeByte {m : Memory} {x : Nat} {v : Byte} {p : Host.Cell} (h : p ∈ m.writeByte x v) :
    p ∈ m ∨ (p = (x, v) ∧ v ≠ Memory.unlisted) := by
  induction m with
  | nil => simp only [Memory.writeByte] at h; split_ifs at h <;> simp_all
  | cons c m ih =>
    obtain ⟨a, b⟩ := c
    simp only [Memory.writeByte] at h
    split_ifs at h <;> simp only [List.mem_cons] at h ⊢
    · exact .inl h
    · tauto
    · exact .inl (.inr h)
    · tauto
    · rcases h with h | h
      · exact .inl (.inl h)
      · rcases ih h with h | h <;> tauto

/-- Writing a byte keeps the canonical form. -/
theorem writeByte_wf {m : Memory} (h : m.wf) (x : Nat) (v : Byte) : (m.writeByte x v).wf := by
  induction m with
  | nil => simp only [Memory.writeByte]; split_ifs <;> simp_all [Memory.wf]
  | cons c m ih =>
    obtain ⟨a, b⟩ := c
    obtain ⟨ha, hb, hm⟩ := wf_cons.mp h
    simp only [Memory.writeByte]
    split_ifs with h1 h2 h3 h4
    · exact h
    · refine wf_cons.mpr ⟨?_, h2, h⟩
      intro p hp
      rcases List.mem_cons.mp hp with rfl | hp
      · exact h1
      · exact h1.trans (ha p hp)
    · exact hm
    · exact wf_cons.mpr ⟨h3 ▸ ha, h4, hm⟩
    · refine wf_cons.mpr ⟨?_, hb, ih hm⟩
      intro p hp
      rcases mem_writeByte hp with hp | ⟨rfl, -⟩
      · exact ha p hp
      · show a < x
        omega

/-- A write leaves every other address alone. -/
theorem readByte_writeByte_ne {m : Memory} {x y : Nat} (v : Byte) (h : y ≠ x) :
    (m.writeByte x v).readByte y = m.readByte y := by
  induction m with
  | nil => simp only [Memory.writeByte]; split_ifs <;> simp [Memory.readByte, Ne.symm h]
  | cons c m ih =>
    obtain ⟨a, b⟩ := c
    simp only [Memory.writeByte]
    split_ifs with h1 h2 h3 h4
    · rfl
    · simp [Memory.readByte, Ne.symm h]
    · have : ¬ a = y := by omega
      simp [Memory.readByte, this]
    · have : ¬ a = y := by omega
      simp [Memory.readByte, this, Ne.symm h]
    · simp only [Memory.readByte, ih]

/-- A read after a write to the same address gives the byte written. -/
theorem readByte_writeByte_same {m : Memory} (hm : m.wf) (x : Nat) (v : Byte) :
    (m.writeByte x v).readByte x = v := by
  induction m with
  | nil => simp only [Memory.writeByte]; split_ifs with h <;> simp [Memory.readByte, h]
  | cons c m ih =>
    obtain ⟨a, b⟩ := c
    obtain ⟨ha, hb, hm⟩ := wf_cons.mp hm
    simp only [Memory.writeByte]
    split_ifs with h1 h2 h3 h4
    · rw [h2]
      refine readByte_of_below fun p hp => ?_
      rcases List.mem_cons.mp hp with rfl | hp
      · exact h1
      · exact h1.trans (ha p hp)
    · simp [Memory.readByte]
    · rw [h4]
      exact readByte_of_below fun p hp => h3 ▸ ha p hp
    · simp [Memory.readByte]
    · have : ¬ a = x := by omega
      simp only [Memory.readByte, this, if_false, ih hm]

/-- In canonical form equal contents are equal data. -/
theorem memory_ext {m m' : Memory} (hm : m.wf) (hm' : m'.wf) (h : ∀ a, m.readByte a = m'.readByte a) : m = m' := by
  induction m generalizing m' with
  | nil =>
    cases m' with
    | nil => rfl
    | cons c m' =>
      obtain ⟨a, b⟩ := c
      have := h a
      simp [Memory.readByte] at this
      exact absurd this.symm (wf_cons.mp hm').2.1
  | cons c m ih =>
    obtain ⟨a, b⟩ := c
    obtain ⟨ha, hb, hm1⟩ := wf_cons.mp hm
    cases m' with
    | nil =>
      have := h a
      simp [Memory.readByte] at this
      exact absurd this hb
    | cons c' m' =>
      obtain ⟨a', b'⟩ := c'
      obtain ⟨ha', hb', hm1'⟩ := wf_cons.mp hm'
      have hlow {n : Memory} {y z : Nat} (hn : ∀ p ∈ n, y < p.1) (hz : z ≤ y) : n.readByte z = Memory.unlisted :=
        readByte_of_below fun p hp => lt_of_le_of_lt hz (hn p hp)
      have haa : a = a' := by
        rcases Nat.lt_trichotomy a a' with hlt | heq | hgt
        · have h1 := h a
          have : ¬ a' = a := by omega
          simp only [Memory.readByte, if_true, this, if_false] at h1
          exact absurd (h1.trans (hlow ha' (by omega))) hb
        · exact heq
        · have h1 := h a'
          have : ¬ a = a' := by omega
          simp only [Memory.readByte, if_true, this, if_false] at h1
          exact absurd (h1.symm.trans (hlow ha (by omega))) hb'
      subst haa
      have hbb : b = b' := by simpa [Memory.readByte] using h a
      subst hbb
      congr 1
      refine ih hm1 hm1' fun x => ?_
      by_cases hx : a = x
      · subst hx
        rw [hlow ha le_rfl, hlow ha' le_rfl]
      · simpa [Memory.readByte, hx] using h x

/-! ### Runs of bytes -/

theorem writeBytes_wf {m : Memory} (h : m.wf) (addr : Nat) (bs : List Byte) : (m.writeBytes addr bs).wf := by
  induction bs generalizing m addr with
  | nil => exact h
  | cons b bs ih => exact ih (writeByte_wf h addr b) (addr + 1)

theorem readByte_writeBytes_outside {m : Memory} {addr a : Nat} {bs : List Byte}
    (h : a < addr ∨ addr + bs.length ≤ a) : (m.writeBytes addr bs).readByte a = m.readByte a := by
  induction bs generalizing m addr with
  | nil => rfl
  | cons b bs ih =>
    simp only [List.length_cons] at h
    rw [Memory.writeBytes, ih (by omega), readByte_writeByte_ne _ (by omega)]

/-- A byte of the run reads back as written. -/
theorem readByte_writeBytes_inside {m : Memory} (hm : m.wf) {addr i : Nat} {bs : List Byte} (h : i < bs.length) :
    (m.writeBytes addr bs).readByte (addr + i) = bs.getD i 0#8 := by
  induction bs generalizing m addr i with
  | nil => simp at h
  | cons b bs ih =>
    rw [Memory.writeBytes]
    cases i with
    | zero => rw [readByte_writeBytes_outside (by omega), Nat.add_zero, readByte_writeByte_same hm]; rfl
    | succ i =>
      rw [show addr + (i + 1) = addr + 1 + i by omega, ih (writeByte_wf hm _ _) (by simpa using h)]
      rfl

theorem writeLE_wf {m : Memory} (h : m.wf) (addr n v : Nat) : (m.writeLE addr n v).wf := by
  induction n generalizing m addr v with
  | zero => exact h
  | succ n ih => exact ih (writeByte_wf h _ _) _ _

theorem readByte_writeLE_outside {m : Memory} {addr n v a : Nat} (h : a < addr ∨ addr + n ≤ a) :
    (m.writeLE addr n v).readByte a = m.readByte a := by
  induction n generalizing m addr v with
  | zero => rfl
  | succ n ih => rw [Memory.writeLE, ih (by omega), readByte_writeByte_ne _ (by omega)]

/-- Two memories that agree on the bytes of an item agree on the item. -/
theorem readLE_congr {m m' : Memory} {addr n : Nat}
    (h : ∀ a, addr ≤ a → a < addr + n → m.readByte a = m'.readByte a) : m.readLE addr n = m'.readLE addr n := by
  induction n generalizing addr with
  | zero => rfl
  | succ n ih =>
    simp only [Memory.readLE]
    rw [h addr (by omega) (by omega), ih fun a h1 h2 => h a (by omega) (by omega)]

/-- A little-endian item reads back as written, its high part cut off. -/
theorem readLE_writeLE_same {m : Memory} (hm : m.wf) (addr n v : Nat) :
    (m.writeLE addr n v).readLE addr n = v % 256 ^ n := by
  induction n generalizing m addr v with
  | zero => simp [Memory.readLE, Nat.mod_one]
  | succ n ih =>
    simp only [Memory.readLE, Memory.writeLE]
    rw [readByte_writeLE_outside (by omega), readByte_writeByte_same hm, ih (writeByte_wf hm _ _)]
    rw [Nat.pow_succ, Nat.mul_comm (256 ^ n), Nat.mod_mul]
    simp

/-! ### Elements -/

theorem ty_bytes_pos (ty : Ty) : 0 < ty.bytes := by cases ty <;> decide

theorem setElem_wf {m : Memory} (h : m.wf) (ty : Ty) (v : View) (idx : Nat) (e : Elem) : (m.setElem ty v idx e).wf :=
  writeLE_wf h _ _ _

/-- Writing an element leaves every byte outside it alone. -/
theorem readByte_setElem_outside {m : Memory} {ty : Ty} {v : View} {idx a : Nat} (e : Elem)
    (h : a < v.elemAddr ty idx ∨ v.elemAddr ty idx + ty.bytes ≤ a) :
    (m.setElem ty v idx e).readByte a = m.readByte a :=
  readByte_writeLE_outside h

theorem elemAt_congr {m m' : Memory} {ty : Ty} {v : View} {idx : Nat}
    (h : ∀ a, v.elemAddr ty idx ≤ a → a < v.elemAddr ty idx + ty.bytes → m.readByte a = m'.readByte a) :
    m.elemAt ty v idx = m'.elemAt ty v idx := by
  unfold Memory.elemAt
  rw [readLE_congr h]

/-- An element reads back as written, when it fits the storage type. -/
theorem elemAt_setElem_same {m : Memory} (hm : m.wf) {ty : Ty} {v : View} {idx : Nat} {e : Elem}
    (he : e.toNat < 256 ^ ty.bytes) : (m.setElem ty v idx e).elemAt ty v idx = e := by
  unfold Memory.elemAt Memory.setElem
  rw [readLE_writeLE_same hm, Nat.mod_eq_of_lt he, BitVec.ofNat_toNat, BitVec.setWidth_eq]

/-- Elements at different indices do not share a byte. -/
theorem elemAddr_apart (ty : Ty) (v : View) {i j : Nat} (h : i ≠ j) :
    v.elemAddr ty i + ty.bytes ≤ v.elemAddr ty j ∨ v.elemAddr ty j + ty.bytes ≤ v.elemAddr ty i := by
  unfold View.elemAddr
  rcases Nat.lt_or_gt_of_ne h with h | h
  · left; have := Nat.mul_le_mul_right ty.bytes (Nat.succ_le_of_lt h); rw [Nat.succ_mul] at this; omega
  · right; have := Nat.mul_le_mul_right ty.bytes (Nat.succ_le_of_lt h); rw [Nat.succ_mul] at this; omega

/-- Writing an element leaves the elements at other indices alone. -/
theorem elemAt_setElem_ne {m : Memory} {ty : Ty} {v : View} {i j : Nat} (e : Elem) (h : i ≠ j) :
    (m.setElem ty v i e).elemAt ty v j = m.elemAt ty v j := by
  refine elemAt_congr fun a h1 h2 => readByte_setElem_outside e ?_
  rcases elemAddr_apart ty v h with h | h <;> omega

theorem drawElems_wf {m : Memory} (h : m.wf) (ty : Ty) (v : View) (d n : Nat) : (drawElems ty v m d n).wf := by
  induction n with
  | zero => exact h
  | succ n ih => exact setElem_wf ih _ _ _ _

/-- Drawing the first `n` elements leaves every byte outside them alone. -/
theorem readByte_drawElems_outside {m : Memory} {ty : Ty} {v : View} {d n a : Nat}
    (h : a < v.base ∨ v.base + n * ty.bytes ≤ a) : (drawElems ty v m d n).readByte a = m.readByte a := by
  induction n with
  | zero => rfl
  | succ n ih =>
    rw [Nat.succ_mul] at h
    rw [drawElems, readByte_setElem_outside, ih] <;> unfold View.elemAddr at * <;> omega

end Sys2Proof.Machine
end

