-- ==== Sys2Proof/Laws/Numerics.lean ====
section
/-!
SUPPORT. The rounding and the range of the patterns it gives.
-/

namespace Sys2Proof.Machine

/-- Rounding moves the quotient up by at most one. -/
theorem nearestEven_bounds (n d : Nat) : n / 2 ^ d ≤ nearestEven n d ∧ nearestEven n d ≤ n / 2 ^ d + 1 := by
  unfold nearestEven
  dsimp only
  split_ifs <;> omega

/-- The rounded quotient is at most half a unit away from the exact one. -/
theorem nearestEven_half (n d : Nat) :
    2 * n ≤ 2 * (nearestEven n d * 2 ^ d) + 2 ^ d ∧ 2 * (nearestEven n d * 2 ^ d) ≤ 2 * n + 2 ^ d := by
  have h := Nat.div_add_mod n (2 ^ d)
  have hr := Nat.mod_lt n (Nat.two_pow_pos d)
  unfold nearestEven
  dsimp only
  rw [Nat.mul_comm] at h
  have hs : (n / 2 ^ d + 1) * 2 ^ d = n / 2 ^ d * 2 ^ d + 2 ^ d := Nat.succ_mul ..
  split_ifs <;> (try rw [hs]) <;> generalize n / 2 ^ d * 2 ^ d = q at * <;> omega

/-- Rounding by no places changes nothing. -/
@[simp] theorem nearestEven_zero (n : Nat) : nearestEven n 0 = n := by simp [nearestEven, Nat.mod_one]

/-- What is a multiple of the unit is not changed by rounding. -/
theorem nearestEven_mul (n d : Nat) : nearestEven (n * 2 ^ d) d = n := by
  simp [nearestEven, Nat.mul_div_cancel _ (Nat.two_pow_pos d)]

theorem log2_lt_pow (n : Nat) : n < 2 ^ (Nat.log2 n + 1) := Nat.lt_log2_self

/-- The unit in the last place is chosen so that the rounded significand has at most `F + 1` bits. -/
theorem nearestEven_ulp_le (f : Fmt) (u mag : Nat) : nearestEven mag (f.ulp u mag) ≤ 2 ^ (f.fracBits + 1) := by
  have hle : Nat.log2 mag + 1 ≤ f.fracBits + 1 + f.ulp u mag := by unfold Fmt.ulp; omega
  have hlt : mag < 2 ^ (f.fracBits + 1) * 2 ^ f.ulp u mag := by
    rw [← Nat.pow_add]
    exact lt_of_lt_of_le (log2_lt_pow mag) (Nat.pow_le_pow_right (by norm_num) hle)
  have hdiv : mag / 2 ^ f.ulp u mag < 2 ^ (f.fracBits + 1) := Nat.div_lt_of_lt_mul (by rwa [Nat.mul_comm])
  have := (nearestEven_bounds mag (f.ulp u mag)).2
  omega

/-- Above the smallest unit the rounded significand has its top bit: it is at least `2^F`. -/
theorem nearestEven_ulp_ge (f : Fmt) (u mag : Nat) (h : u - f.lsb < f.ulp u mag) :
    2 ^ f.fracBits ≤ nearestEven mag (f.ulp u mag) := by
  have hlog : Nat.log2 mag = f.fracBits + f.ulp u mag := by unfold Fmt.ulp at *; omega
  have hmag : mag ≠ 0 := by
    rintro rfl
    simp at hlog
    omega
  have hge : 2 ^ f.fracBits * 2 ^ f.ulp u mag ≤ mag := by
    rw [← Nat.pow_add, ← hlog]
    exact Nat.log2_self_le hmag
  exact ((Nat.le_div_iff_mul_le (Nat.two_pow_pos _)).mpr hge).trans (nearestEven_bounds mag _).1

/-- A format whose exponent field is wide enough for the exponent arithmetic (all three formats are). -/
def Fmt.Proper (f : Fmt) : Prop := 2 ≤ f.expBits ∧ 1 ≤ f.fracBits ∧ f.expBits + f.fracBits < 32

theorem fmtOf_proper (ty : Ty) : (fmtOf ty).Proper := by
  cases ty <;> simp only [Fmt.Proper] <;> decide

/-- When the rounded magnitude does not overflow, exponent and fraction fields stay below those of infinity. -/
theorem mant_lt_inf {f : Fmt} (hf : f.Proper) {u mag : Nat} (hu : f.lsb ≤ u)
    (h : nearestEven mag (f.ulp u mag) * 2 ^ f.ulp u mag < 2 ^ (2 ^ (f.expBits - 1) + u)) :
    nearestEven mag (f.ulp u mag) + (f.ulp u mag - (u - f.lsb)) * 2 ^ f.fracBits < f.maxExpo * 2 ^ f.fracBits := by
  obtain ⟨hE, hF, -⟩ := hf
  set d := f.ulp u mag with hd
  set r := nearestEven mag d with hr
  set b := d - (u - f.lsb) with hb
  have hrle : r ≤ 2 ^ (f.fracBits + 1) := nearestEven_ulp_le f u mag
  have hdge : u - f.lsb ≤ d := by rw [hd]; unfold Fmt.ulp; omega
  have hpow : 2 ^ f.expBits = 2 * 2 ^ (f.expBits - 1) := by
    conv_lhs => rw [show f.expBits = f.expBits - 1 + 1 by omega]
    rw [Nat.pow_succ, Nat.mul_comm]
  have h2 : 2 ≤ 2 ^ (f.expBits - 1) := by
    calc 2 = 2 ^ 1 := rfl
      _ ≤ 2 ^ (f.expBits - 1) := Nat.pow_le_pow_right (by norm_num) (by omega)
  have hlsb : f.lsb = 2 ^ (f.expBits - 1) - 2 + f.fracBits := rfl
  have hmax : f.maxExpo = 2 ^ f.expBits - 1 := rfl
  have hF1 : 2 ^ (f.fracBits + 1) = 2 * 2 ^ f.fracBits := by rw [Nat.pow_succ, Nat.mul_comm]
  have hFpos := Nat.two_pow_pos f.fracBits
  by_contra hcon
  push Not at hcon
  rcases Nat.lt_or_ge b (2 ^ f.expBits - 3) with hlow | hhigh
  · -- the exponent field is at least two below its maximum: nothing can reach infinity
    have : r + b * 2 ^ f.fracBits < f.maxExpo * 2 ^ f.fracBits := by
      calc r + b * 2 ^ f.fracBits ≤ 2 * 2 ^ f.fracBits + b * 2 ^ f.fracBits := by omega
        _ = (b + 2) * 2 ^ f.fracBits := by ring
        _ < f.maxExpo * 2 ^ f.fracBits := Nat.mul_lt_mul_of_pos_right (by omega) hFpos
    omega
  · have hreach : ∀ e : Nat, 2 ^ e ≤ r → 2 ^ (f.expBits - 1) + u ≤ e + d → False := by
      intro e he hed
      have : 2 ^ (2 ^ (f.expBits - 1) + u) ≤ r * 2 ^ d := by
        calc 2 ^ (2 ^ (f.expBits - 1) + u) ≤ 2 ^ (e + d) := Nat.pow_le_pow_right (by norm_num) hed
          _ = 2 ^ e * 2 ^ d := Nat.pow_add ..
          _ ≤ r * 2 ^ d := Nat.mul_le_mul_right _ he
      omega
    rcases Nat.eq_or_lt_of_le hhigh with heq | hgt
    · have hr2 : 2 ^ (f.fracBits + 1) ≤ r := by
        have hsplit : f.maxExpo = b + 2 := by omega
        rw [hsplit, Nat.add_mul] at hcon
        omega
      exact hreach _ hr2 (by omega)
    · exact hreach _ (nearestEven_ulp_ge f u mag (by omega)) (by omega)

theorem maxExpo_mul_lt {f : Fmt} : f.maxExpo * 2 ^ f.fracBits < 2 ^ (f.expBits + f.fracBits) := by
  rw [Nat.pow_add]
  exact Nat.mul_lt_mul_of_pos_right (by unfold Fmt.maxExpo; have := Nat.two_pow_pos f.expBits; omega)
    (Nat.two_pow_pos _)

/-- A pattern whose lower fields are in range has only the format's bits. -/
theorem pattern_lt {f : Fmt} {mant : Nat} (hm : mant < 2 ^ (f.expBits + f.fracBits)) (neg : Bool) :
    (f.pattern neg mant).toNat < 2 ^ (f.expBits + f.fracBits + 1) := by
  unfold Fmt.pattern
  rw [BitVec.toNat_ofNat]
  refine lt_of_le_of_lt (Nat.mod_le _ _) ?_
  rw [Nat.pow_succ]
  split <;> omega

theorem zero_lt (f : Fmt) (neg : Bool) : (f.zero neg).toNat < 2 ^ (f.expBits + f.fracBits + 1) :=
  pattern_lt (Nat.two_pow_pos _) neg

theorem inf_lt (f : Fmt) (neg : Bool) : (f.inf neg).toNat < 2 ^ (f.expBits + f.fracBits + 1) :=
  pattern_lt maxExpo_mul_lt neg

/-- What rounding delivers has only the format's bits. -/
theorem roundFmt_lt {f : Fmt} (hf : f.Proper) (neg : Bool) {u mag : Nat} (hu : f.lsb ≤ u) :
    (roundFmt f neg u mag).toNat < 2 ^ (f.expBits + f.fracBits + 1) := by
  unfold roundFmt
  dsimp only
  split_ifs with h
  · exact inf_lt f neg
  · exact pattern_lt ((mant_lt_inf hf hu (by omega)).trans maxExpo_mul_lt) neg

/-- The cast delivers a pattern of the storage type. -/
theorem cvtOut_fits (ty : Ty) (x : F32) : (cvtOut ty x).toNat < 256 ^ ty.bytes := by
  cases ty with
  | f32 => exact (cvtOut .f32 x).isLt
  | f16 =>
    have h : ∀ neg, (roundFmt binary16 neg binary32.lsb (binary32.mag x)).toNat < 2 ^ 16 := fun neg =>
      roundFmt_lt (f := binary16) (fmtOf_proper .f16) neg (by decide)
    have hi := inf_lt binary16
    have hz := zero_lt binary16
    unfold cvtOut
    dsimp only
    split_ifs
    · decide
    · exact hi _
    · exact hz _
    · exact h _
  | bf16 =>
    have h : ∀ neg, (roundFmt bfloat16 neg binary32.lsb (binary32.mag x)).toNat < 2 ^ 16 := fun neg =>
      roundFmt_lt (f := bfloat16) (fmtOf_proper .bf16) neg (by decide)
    have hi := inf_lt bfloat16
    have hz := zero_lt bfloat16
    unfold cvtOut
    dsimp only
    split_ifs
    · decide
    · exact hi _
    · exact hz _
    · exact h _

end Sys2Proof.Machine
end

