-- ==== Sys2Proof/Laws/State.lean ====
section
/-!
SUPPORT. What each named update does to each field: one lemma per field, true by unfolding the update once.
-/

namespace Sys2Proof.Machine

variable (s : State)

/-! ### LAUNCH -/

@[simp] theorem launch_status : (launch s).status = .running := rfl
@[simp] theorem launch_cfg : (launch s).cfg = s.cfg := rfl
@[simp] theorem launch_units : (launch s).units = gridUnits s.cfg.cols s.cfg.rows := rfl
@[simp] theorem launch_mem : (launch s).mem = s.mem := rfl
@[simp] theorem launch_grid : (launch s).grid = s.grid := rfl
@[simp] theorem launch_agenda : (launch s).agenda = s.agenda := rfl
@[simp] theorem launch_draws : (launch s).draws = s.draws := rfl
@[simp] theorem launch_seenC : (launch s).seenC = s.seenC := rfl

/-! ### Reset of the block -/

@[simp] theorem resetBlock_status : (resetBlock s).status = .idle := rfl
@[simp] theorem resetBlock_cfg : (resetBlock s).cfg = Cfg.reset := rfl
@[simp] theorem resetBlock_units : (resetBlock s).units = [] := rfl
@[simp] theorem resetBlock_mem : (resetBlock s).mem = s.mem := rfl
@[simp] theorem resetBlock_grid : (resetBlock s).grid = s.grid := rfl
@[simp] theorem resetBlock_agenda : (resetBlock s).agenda = s.agenda := rfl
@[simp] theorem resetBlock_draws : (resetBlock s).draws = s.draws := rfl
@[simp] theorem resetBlock_seenC : (resetBlock s).seenC = s.seenC := rfl

/-! ### Abort -/

@[simp] theorem abortDispatch_status (ty : Ty) : (abortDispatch ty s).status = .idle := rfl
@[simp] theorem abortDispatch_cfg (ty : Ty) : (abortDispatch ty s).cfg = s.cfg := rfl
@[simp] theorem abortDispatch_units (ty : Ty) : (abortDispatch ty s).units = [] := rfl
@[simp] theorem abortDispatch_mem (ty : Ty) : (abortDispatch ty s).mem =
    drawElems ty (slotView s.cfg.bind.c) s.mem s.draws (s.cfg.m.toNat * s.cfg.n.toNat) := rfl
@[simp] theorem abortDispatch_grid (ty : Ty) : (abortDispatch ty s).grid = s.grid := rfl
@[simp] theorem abortDispatch_agenda (ty : Ty) : (abortDispatch ty s).agenda = s.agenda := rfl
@[simp] theorem abortDispatch_draws (ty : Ty) :
    (abortDispatch ty s).draws = s.draws + s.cfg.m.toNat * s.cfg.n.toNat := rfl
@[simp] theorem abortDispatch_seenC (ty : Ty) : (abortDispatch ty s).seenC = s.seenC := rfl

/-! ### A write of CFG -/

@[simp] theorem writeCfg_status (cfg : Cfg) : (writeCfg s cfg).status = .idle := rfl
@[simp] theorem writeCfg_cfg (cfg : Cfg) : (writeCfg s cfg).cfg = cfg := rfl
@[simp] theorem writeCfg_units (cfg : Cfg) : (writeCfg s cfg).units = s.units := rfl
@[simp] theorem writeCfg_mem (cfg : Cfg) : (writeCfg s cfg).mem = s.mem := rfl
@[simp] theorem writeCfg_grid (cfg : Cfg) : (writeCfg s cfg).grid = s.grid := rfl
@[simp] theorem writeCfg_agenda (cfg : Cfg) : (writeCfg s cfg).agenda = s.agenda := rfl
@[simp] theorem writeCfg_draws (cfg : Cfg) : (writeCfg s cfg).draws = s.draws := rfl
@[simp] theorem writeCfg_seenC (cfg : Cfg) : (writeCfg s cfg).seenC = s.seenC := rfl

/-! ### A read of C -/

@[simp] theorem readOutput_status : (readOutput s).status = s.status := rfl
@[simp] theorem readOutput_cfg : (readOutput s).cfg = s.cfg := rfl
@[simp] theorem readOutput_units : (readOutput s).units = s.units := rfl
@[simp] theorem readOutput_mem : (readOutput s).mem = s.mem := rfl
@[simp] theorem readOutput_grid : (readOutput s).grid = s.grid := rfl
@[simp] theorem readOutput_agenda : (readOutput s).agenda = s.agenda := rfl
@[simp] theorem readOutput_draws : (readOutput s).draws = s.draws := rfl

/-- Outside a dispatch a read of C gives what memory holds. -/
theorem readOutput_seenC {i : Instr} (h : decodeSel s.cfg.sel = .ok i) : (readOutput s).seenC =
    (List.range (outputCount s.cfg)).map fun j => s.mem.elemAt i.ty (slotView s.cfg.bind.c) j := by
  simp [readOutput, h]

@[simp] theorem readUnfinished_status (ty : Ty) : (readUnfinished ty s).status = s.status := rfl
@[simp] theorem readUnfinished_cfg (ty : Ty) : (readUnfinished ty s).cfg = s.cfg := rfl
@[simp] theorem readUnfinished_units (ty : Ty) : (readUnfinished ty s).units = s.units := rfl
@[simp] theorem readUnfinished_mem (ty : Ty) : (readUnfinished ty s).mem = s.mem := rfl
@[simp] theorem readUnfinished_grid (ty : Ty) : (readUnfinished ty s).grid = s.grid := rfl
@[simp] theorem readUnfinished_agenda (ty : Ty) : (readUnfinished ty s).agenda = s.agenda := rfl
@[simp] theorem readUnfinished_draws (ty : Ty) : (readUnfinished ty s).draws = s.draws + outputCount s.cfg := rfl
@[simp] theorem readUnfinished_seenC (ty : Ty) :
    (readUnfinished ty s).seenC = freeElems ty s.draws (outputCount s.cfg) := rfl

@[simp] theorem freeElems_length (ty : Ty) (d n : Nat) : (freeElems ty d n).length = n := by simp [freeElems]

/-- A free element is a pattern of its type. -/
theorem freeElems_fits {ty : Ty} {d n : Nat} {e : Elem} (h : e ∈ freeElems ty d n) : e.toNat < 256 ^ ty.bytes := by
  obtain ⟨j, -, rfl⟩ := List.mem_map.mp h
  rw [BitVec.toNat_ofNat]
  exact (Nat.mod_le _ _).trans_lt (Nat.mod_lt _ (by positivity))

/-! ### The sizes the host writes -/

@[simp] theorem writeSizes_sel (cfg : Cfg) (m k n : Nat) : (writeSizes cfg m k n).sel = cfg.sel := by
  unfold writeSizes; split <;> rfl
@[simp] theorem writeSizes_bind (cfg : Cfg) (m k n : Nat) : (writeSizes cfg m k n).bind = cfg.bind := by
  unfold writeSizes; split <;> rfl

/-- Sizes that fit are held as written. -/
theorem writeSizes_fit (cfg : Cfg) {m k n : Nat} (hm : m < 2 ^ 32) (hk : k < 2 ^ 32) (hn : n < 2 ^ 32) :
    (writeSizes cfg m k n).rows = m ∧ (writeSizes cfg m k n).depth = k ∧ (writeSizes cfg m k n).cols = n ∧
      (writeSizes cfg m k n).oversize = false := by
  unfold writeSizes Cfg.rows Cfg.depth Cfg.cols
  rw [if_pos ⟨hm, hk, hn⟩]
  simp only [BitVec.toNat_ofNat]
  exact ⟨Nat.mod_eq_of_lt hm, Nat.mod_eq_of_lt hk, Nat.mod_eq_of_lt hn, trivial⟩

/-- Sizes that do not fit are only marked. -/
theorem writeSizes_oversize (cfg : Cfg) {m k n : Nat} (h : 2 ^ 32 ≤ m ∨ 2 ^ 32 ≤ k ∨ 2 ^ 32 ≤ n) :
    writeSizes cfg m k n = { cfg with oversize := true } := if_neg (by omega)

/-! ### Completion -/

@[simp] theorem completeIfRetired_cfg : (completeIfRetired s).cfg = s.cfg := by
  unfold completeIfRetired; split <;> rfl
@[simp] theorem completeIfRetired_mem : (completeIfRetired s).mem = s.mem := by
  unfold completeIfRetired; split <;> rfl
@[simp] theorem completeIfRetired_grid : (completeIfRetired s).grid = s.grid := by
  unfold completeIfRetired; split <;> rfl
@[simp] theorem completeIfRetired_agenda : (completeIfRetired s).agenda = s.agenda := by
  unfold completeIfRetired; split <;> rfl
@[simp] theorem completeIfRetired_draws : (completeIfRetired s).draws = s.draws := by
  unfold completeIfRetired; split <;> rfl
@[simp] theorem completeIfRetired_seenC : (completeIfRetired s).seenC = s.seenC := by
  unfold completeIfRetired; split <;> rfl

/-- Completion: with every unit retired STATUS is DONE and no unit remains. -/
theorem completeIfRetired_of_retired (h : s.units.all (fun u => !u.live) = true) :
    completeIfRetired s = { s with status := .done, units := [] } := by
  simp [completeIfRetired, h]

/-- With a live unit left the dispatch goes on. -/
theorem completeIfRetired_of_live (h : s.units.all (fun u => !u.live) = false) : completeIfRetired s = s := by
  simp [completeIfRetired, h]

/-! ### The loop tests: which registers they may touch -/

variable (gs k : Nat) (u : WorkUnit)

@[simp] theorem loopNext_gx : (loopNext gs k u).gx = u.gx := by unfold loopNext; split_ifs <;> rfl
@[simp] theorem loopNext_gy : (loopNext gs k u).gy = u.gy := by unfold loopNext; split_ifs <;> rfl
@[simp] theorem loopNext_k : (loopNext gs k u).k = u.k := by unfold loopNext; split_ifs <;> rfl
@[simp] theorem loopNext_c : (loopNext gs k u).c = u.c := by unfold loopNext; split_ifs <;> rfl
@[simp] theorem loopNext_s : (loopNext gs k u).s = u.s := by unfold loopNext; split_ifs <;> rfl
@[simp] theorem loopNext_z : (loopNext gs k u).z = u.z := by unfold loopNext; split_ifs <;> rfl
@[simp] theorem loopNext_b0 : (loopNext gs k u).b0 = u.b0 := by unfold loopNext; split_ifs <;> rfl
@[simp] theorem loopNext_b1 : (loopNext gs k u).b1 = u.b1 := by unfold loopNext; split_ifs <;> rfl
@[simp] theorem loopNext_b2 : (loopNext gs k u).b2 = u.b2 := by unfold loopNext; split_ifs <;> rfl
@[simp] theorem loopNext_w0 : (loopNext gs k u).w0 = u.w0 := by unfold loopNext; split_ifs <;> rfl
@[simp] theorem loopNext_w1 : (loopNext gs k u).w1 = u.w1 := by unfold loopNext; split_ifs <;> rfl
@[simp] theorem loopNext_w2 : (loopNext gs k u).w2 = u.w2 := by unfold loopNext; split_ifs <;> rfl
@[simp] theorem loopNext_w3 : (loopNext gs k u).w3 = u.w3 := by unfold loopNext; split_ifs <;> rfl
@[simp] theorem loopNext_acc : (loopNext gs k u).acc = u.acc := by unfold loopNext; split_ifs <;> rfl
@[simp] theorem loopNext_phase : (loopNext gs k u).phase = u.phase := by unfold loopNext; split_ifs <;> rfl

end Sys2Proof.Machine
end

