-- ==== Sys2Proof/Laws/WorkUnit.lean ====
section
/-!
SUPPORT. The sequence of one work unit (42_reduce.md R86): each operation by one equation, one step of the sequence, the
steps that remain, and the value the accumulator holds.
-/

namespace Sys2Proof.Machine

/-! ### Reading operands -/

theorem readElem_ok {ty : Ty} {v : Option View} {m : Memory} {idx : Nat} (h : idx < slotLen v) :
    readElem ty v m idx = .ok (m.elemAt ty (slotView v) idx) := by simp [readElem, h]

theorem readWindow_ok {v : Option View} {m : Memory} {off : Nat} (h : off + 2 < slotLen v) :
    readWindow v m off = .ok (m.readByte ((slotView v).base + off), m.readByte ((slotView v).base + off + 1),
      m.readByte ((slotView v).base + off + 2)) := by simp [readWindow, h]

theorem writeElem_ok {ty : Ty} {v : Option View} {m : Memory} {idx : Nat} {e : Elem} (h : idx < slotLen v) :
    writeElem ty v m idx e = .ok (m.setElem ty (slotView v) idx e) := by simp [writeElem, h]

@[simp] theorem readReg_some {α : Type} (x : α) : readReg (some x) = .ok x := rfl

/-! ### One equation per operation -/

variable {p : Params} {cfg : Cfg} {m : Memory} {u : WorkUnit}

theorem opFetchSZ_eq (hs : idxSZ cfg.cols u.kb u.gx.toNat < slotLen cfg.bind.s)
    (hz : idxSZ cfg.cols u.kb u.gx.toNat < slotLen cfg.bind.z) :
    opFetchSZ p cfg m u = .ok (loopNext p.gs cfg.depth
      { u with
        s := some (cvtIn p.ty (m.elemAt p.ty (slotView cfg.bind.s) (idxSZ cfg.cols u.kb u.gx.toNat)))
        z := some (cvtIn p.ty (m.elemAt p.ty (slotView cfg.bind.z) (idxSZ cfg.cols u.kb u.gx.toNat)))
        c := 0
        phase := .active }) := by
  simp [opFetchSZ, readElem_ok hs, readElem_ok hz, bind, Except.bind]

theorem opLoadWin_eq (h : winAddr cfg.depth u.gx.toNat u.k + 2 < slotLen cfg.bind.b) :
    opLoadWin cfg m u = .ok
      { u with
        b0 := some (m.readByte ((slotView cfg.bind.b).base + winAddr cfg.depth u.gx.toNat u.k))
        b1 := some (m.readByte ((slotView cfg.bind.b).base + winAddr cfg.depth u.gx.toNat u.k + 1))
        b2 := some (m.readByte ((slotView cfg.bind.b).base + winAddr cfg.depth u.gx.toNat u.k + 2))
        op := .unpack } := by
  simp [opLoadWin, readWindow_ok h, bind, Except.bind]

theorem opUnpack_eq {b0 b1 b2 : Byte} (h0 : u.b0 = some b0) (h1 : u.b1 = some b1) (h2 : u.b2 = some b2) :
    opUnpack u = .ok
      { u with
        w0 := some (unpackWindow b0 b1 b2).w0
        w1 := some (unpackWindow b0 b1 b2).w1
        w2 := some (unpackWindow b0 b1 b2).w2
        w3 := some (unpackWindow b0 b1 b2).w3
        op := .mac 0 } := by
  simp [opUnpack, h0, h1, h2, bind, Except.bind]

theorem opMac_eq {i : Fin 4} {s z : F32} {w : Code}
    (ha : idxA cfg.depth u.gy.toNat (u.k + i.val) < slotLen cfg.bind.a)
    (hs : u.s = some s) (hw : u.code i = some w) (hz : u.z = some z) :
    opMac p cfg m i u = .ok (afterMac p.gs cfg.depth i
      { u with
        acc := macValue u.acc
          (cvtIn p.ty (m.elemAt p.ty (slotView cfg.bind.a) (idxA cfg.depth u.gy.toNat (u.k + i.val)))) s w z }) := by
  simp [opMac, readElem_ok ha, hs, hw, hz, bind, Except.bind]

theorem opStoreC_eq (h : idxC cfg.cols u.gy.toNat u.gx.toNat < slotLen cfg.bind.c) :
    opStoreC p cfg m u = .ok
      ({ u with phase := .retired },
        m.setElem p.ty (slotView cfg.bind.c) (idxC cfg.cols u.gy.toNat u.gx.toNat) (cvtOut p.ty u.acc)) := by
  simp [opStoreC, writeElem_ok h, bind, Except.bind]

/-! ### The steps that remain -/

/-- The steps a unit has left: one FETCHSZ for each group to come, six for each stride to come (LOADWIN, UNPACK, four
MACs), and STOREC. -/
def remaining (gs k : Nat) (u : WorkUnit) : Nat :=
  if u.live then
    match u.op with
    | .fetchSZ => (groups gs k - u.kb) + 6 * ((k - u.k) / 4) + 1
    | .loadWin => (groups gs k - u.kb - 1) + 6 * ((k - u.k) / 4) + 1
    | .unpack => (groups gs k - u.kb - 1) + 6 * ((k - u.k) / 4)
    | .mac i => (groups gs k - u.kb - 1) + 6 * ((k - u.k) / 4) - 1 - i.val
    | .storeC => 1
  else 0

/-- The place of a unit in the grid. -/
def AtCoord (cfg : Cfg) (row col : Nat) (u : WorkUnit) : Prop :=
  u.gx.toNat = col ∧ u.gy.toNat = row ∧ col < cfg.cols ∧ row < cfg.rows

/-- What the registers of a live unit hold, `mem` being the memory the dispatch was launched with. -/
def Holds (p : Params) (cfg : Cfg) (mem : Memory) (row col : Nat) (u : WorkUnit) : Prop :=
  let scale := some (cvtIn p.ty (mem.elemAt p.ty (slotView cfg.bind.s) (idxSZ cfg.cols (u.k / p.gs) col)))
  let zero := some (cvtIn p.ty (mem.elemAt p.ty (slotView cfg.bind.z) (idxSZ cfg.cols (u.k / p.gs) col)))
  let off := (slotView cfg.bind.b).base + winAddr cfg.depth col u.k
  match u.op with
  | .fetchSZ => u.acc = accAt p cfg mem row col u.k
  | .loadWin => u.acc = accAt p cfg mem row col u.k ∧ u.s = scale ∧ u.z = zero
  | .unpack => u.acc = accAt p cfg mem row col u.k ∧ u.s = scale ∧ u.z = zero ∧
      u.b0 = some (mem.readByte off) ∧ u.b1 = some (mem.readByte (off + 1)) ∧ u.b2 = some (mem.readByte (off + 2))
  | .mac i => u.acc = accAt p cfg mem row col (u.k + i.val) ∧ u.s = scale ∧ u.z = zero ∧
      ∀ j : Fin 4, u.code j = some (codeAt cfg mem col (u.k + j.val))
  | .storeC => u.acc = accAt p cfg mem row col cfg.depth

/-- What one step of a live unit does: it moves on in its sequence, or it retires with its one write. -/
structure Stepped (p : Params) (cfg : Cfg) (m : Memory) (u : WorkUnit) (u' : WorkUnit) (m' : Memory) : Prop where
  gx : u'.gx = u.gx
  gy : u'.gy = u.gy
  fewer : remaining p.gs cfg.depth u = remaining p.gs cfg.depth u' + 1
  onward : (u'.live = true ∧ m' = m ∧ SeqOk p.gs cfg.depth u') ∨
    (u'.live = false ∧ u.op = .storeC ∧
      m' = m.setElem p.ty (slotView cfg.bind.c) (idxC cfg.cols u.gy.toNat u.gx.toNat) (cvtOut p.ty u.acc))

theorem live_of_active (h : u.phase = .active) : u.live = true := by simp [WorkUnit.live, h]

/-- A unit that has left FETCHSZ for the first time is active. -/
def Started (u : WorkUnit) : Prop := u.op = .fetchSZ ∨ u.live = true

/-- Out of FETCHSZ the loop test leads into the group's first stride. -/
theorem loopNext_head (hgs : 0 < p.gs) (hk : u.k < cfg.depth) (hc : u.c = 0) :
    loopNext p.gs cfg.depth u = { u with op := .loadWin } := by
  simp [loopNext, strideTest, hk, hc, hgs]

/-- The loop test after a stride, by the three ways it can go. -/
theorem loopNext_stride {gs k : Nat} {v : WorkUnit} (hgs : GsOk gs) (hk4 : k % 4 = 0) {pos : Nat} (hp : pos < k)
    (h4 : pos % 4 = 0) (hkb : v.kb = pos / gs) (hk : v.k = pos + 4) (hc : v.c = pos - pos / gs * gs + 4) :
    (pos + 4 < k ∧ pos / gs = (pos + 4) / gs ∧ loopNext gs k v = { v with op := .loadWin }) ∨
    (pos + 4 = (pos / gs + 1) * gs ∧ pos + 4 < k ∧ pos / gs + 1 < groups gs k ∧
      loopNext gs k v = { v with kb := pos / gs + 1, op := .fetchSZ }) ∨
    (pos + 4 = k ∧ ¬ pos / gs + 1 < groups gs k ∧ loopNext gs k v = { v with op := .storeC }) := by
  unfold loopNext strideTest groupTest
  rw [hk, hc, hkb]
  by_cases h1 : pos - pos / gs * gs + 4 < gs ∧ pos + 4 < k
  · left
    exact ⟨h1.2, stride_same_group hgs h1.1, by simp [h1.1, h1.2]⟩
  · right
    have hcond : (decide (pos - pos / gs * gs + 4 < gs) && decide (pos + 4 < k)) = false := by
      simpa using h1
    by_cases h2 : pos / gs + 1 < groups gs k
    · left
      obtain ⟨ha, hb⟩ := stride_next_group hgs h4 hk4 hp h1 h2
      exact ⟨ha, hb, h2, by simp [hcond, h2]⟩
    · right
      exact ⟨stride_last hgs h4 hk4 hp h1 h2, h2, by simp [hcond, h2]⟩

/-- The loop tests lead where 42_reduce.md R87 and R88 say, whatever unit comes to them. -/
theorem loopNext_testsLead {gs k kb : Nat} {v : WorkUnit} (hkb : v.kb = kb) : TestsLead gs k kb (loopNext gs k v) := by
  subst hkb
  have hs : strideTest gs k v = true ↔ v.c < gs ∧ v.k < k := by simp [strideTest]
  have hg : groupTest gs k v = true ↔ v.kb + 1 < groups gs k := by simp [groupTest]
  constructor
  · intro h
    simp only [loopNext_c, loopNext_k, ← hs] at h
    simp [loopNext, h]
  · intro h1 h2
    simp only [loopNext_c, loopNext_k, ← hs] at h1
    simp [loopNext, h1, hg.mpr h2]
  · intro h1 h2
    simp only [loopNext_c, loopNext_k, ← hs] at h1
    rw [← hg] at h2
    simp [loopNext, h1, h2]

end Sys2Proof.Machine
end

