-- ==== Sys2Proof/Laws/UnitStep.lean ====
section
/-!
SUPPORT. One step of a live work unit: it never faults under the launch premises, it moves on in its sequence or retires,
and it keeps the values its registers hold.
-/

namespace Sys2Proof.Machine

variable {p : Params} {cfg : Cfg} {m mem : Memory} {u : WorkUnit} {row col : Nat}

/-! ### The steps that remain, at each place of the sequence -/

theorem remaining_of_op {gs k : Nat} (h : u.live = true) :
    remaining gs k u =
      match u.op with
      | .fetchSZ => (groups gs k - u.kb) + 6 * ((k - u.k) / 4) + 1
      | .loadWin => (groups gs k - u.kb - 1) + 6 * ((k - u.k) / 4) + 1
      | .unpack => (groups gs k - u.kb - 1) + 6 * ((k - u.k) / 4)
      | .mac i => (groups gs k - u.kb - 1) + 6 * ((k - u.k) / 4) - 1 - i.val
      | .storeC => 1 := if_pos h

@[simp] theorem remaining_retired {gs k : Nat} (h : u.live = false) : remaining gs k u = 0 := by
  simp [remaining, h]

/-- A whole unit's steps (70_reset_and_hazards.md R177). -/
theorem remaining_start {gs k n r : Nat} (hk4 : k % 4 = 0) :
    remaining gs k (WorkUnit.start n r) = unitSteps gs k := by
  have : (WorkUnit.start n r).live = true := rfl
  rw [remaining_of_op this]
  simp only [WorkUnit.start, unitSteps]
  omega

/-! ### The sequence -/

theorem step_fetchSZ (hgs : GsOk p.gs) (hc : CfgOk p cfg) (hat : AtCoord cfg row col u)
    (hop : u.op = .fetchSZ) (hseq : SeqOk p.gs cfg.depth u) :
    unitStep p cfg m u = .ok
      ({ u with
          s := some (cvtIn p.ty (m.elemAt p.ty (slotView cfg.bind.s) (idxSZ cfg.cols u.kb col)))
          z := some (cvtIn p.ty (m.elemAt p.ty (slotView cfg.bind.z) (idxSZ cfg.cols u.kb col)))
          c := 0
          phase := .active
          op := .loadWin }, m) := by
  obtain ⟨hgx, hgy, hcol, hrow⟩ := hat
  simp only [SeqOk, hop] at hseq
  obtain ⟨hkb, hk, hlt⟩ := hseq
  have hidx := idxSZ_lt (cols := cfg.cols) hkb hcol
  have hs : idxSZ cfg.cols u.kb u.gx.toNat < slotLen cfg.bind.s := by rw [hgx]; exact hidx.trans_le hc.lenS
  have hz : idxSZ cfg.cols u.kb u.gx.toNat < slotLen cfg.bind.z := by rw [hgx]; exact hidx.trans_le hc.lenZ
  unfold unitStep
  rw [hop]
  dsimp only
  rw [opFetchSZ_eq hs hz, loopNext_head hgs.1 (by exact hlt) rfl, hgx]
  rfl

theorem step_loadWin (hc : CfgOk p cfg) (hat : AtCoord cfg row col u)
    (hop : u.op = .loadWin) (hseq : SeqOk p.gs cfg.depth u) :
    unitStep p cfg m u = .ok
      ({ u with
          b0 := some (m.readByte ((slotView cfg.bind.b).base + winAddr cfg.depth col u.k))
          b1 := some (m.readByte ((slotView cfg.bind.b).base + winAddr cfg.depth col u.k + 1))
          b2 := some (m.readByte ((slotView cfg.bind.b).base + winAddr cfg.depth col u.k + 2))
          op := .unpack }, m) := by
  obtain ⟨hgx, hgy, hcol, hrow⟩ := hat
  simp only [SeqOk, hop] at hseq
  have hwin : winAddr cfg.depth u.gx.toNat u.k + 2 < slotLen cfg.bind.b := by
    rw [hgx]; exact (winAddr_lt hc.k4 hcol hseq.1).trans_le hc.lenB
  simp only [unitStep, hop, opLoadWin_eq hwin, Except.map, hgx]

theorem step_unpack (hop : u.op = .unpack) {b0 b1 b2 : Byte} (h0 : u.b0 = some b0) (h1 : u.b1 = some b1)
    (h2 : u.b2 = some b2) :
    unitStep p cfg m u = .ok
      ({ u with
          w0 := some (unpackWindow b0 b1 b2).w0
          w1 := some (unpackWindow b0 b1 b2).w1
          w2 := some (unpackWindow b0 b1 b2).w2
          w3 := some (unpackWindow b0 b1 b2).w3
          op := .mac 0 }, m) := by
  unfold unitStep
  rw [hop]
  dsimp only
  rw [opUnpack_eq h0 h1 h2]
  rfl

theorem step_mac (hc : CfgOk p cfg) (hat : AtCoord cfg row col u) {i : Fin 4} {s z : F32} {w : Code}
    (hop : u.op = .mac i) (hseq : SeqOk p.gs cfg.depth u)
    (hs : u.s = some s) (hz : u.z = some z) (hw : u.code i = some w) :
    unitStep p cfg m u = .ok (afterMac p.gs cfg.depth i
      { u with
        acc := macValue u.acc
          (cvtIn p.ty (m.elemAt p.ty (slotView cfg.bind.a) (idxA cfg.depth row (u.k + i.val)))) s w z }, m) := by
  obtain ⟨hgx, hgy, hcol, hrow⟩ := hat
  simp only [SeqOk, hop] at hseq
  obtain ⟨hlt, h4, -⟩ := hseq
  have hk4 := hc.k4
  have hpos : u.k + i.val < cfg.depth := by have := i.isLt; omega
  have ha : idxA cfg.depth u.gy.toNat (u.k + i.val) < slotLen cfg.bind.a := by
    rw [hgy]; exact (idxA_lt hrow hpos).trans_le hc.lenA
  simp only [unitStep, hop, opMac_eq ha hs hw hz, Except.map, hgy]

theorem step_storeC (hc : CfgOk p cfg) (hat : AtCoord cfg row col u) (hop : u.op = .storeC) :
    unitStep p cfg m u = .ok ({ u with phase := .retired },
      m.setElem p.ty (slotView cfg.bind.c) (idxC cfg.cols row col) (cvtOut p.ty u.acc)) := by
  obtain ⟨hgx, hgy, hcol, hrow⟩ := hat
  have h : idxC cfg.cols u.gy.toNat u.gx.toNat < slotLen cfg.bind.c := by
    rw [hgx, hgy]; exact (idxC_lt hrow hcol).trans_le hc.lenC
  simp only [unitStep, hop, opStoreC_eq h, hgx, hgy]

/-- The code registers are all written while the four MACs of a stride run. -/
theorem code_isSome (i : Fin 4) (h0 : u.w0.isSome) (h1 : u.w1.isSome) (h2 : u.w2.isSome) (h3 : u.w3.isSome) :
    (u.code i).isSome := by
  match i with
  | 0 => exact h0
  | 1 => exact h1
  | 2 => exact h2
  | 3 => exact h3

/-- Counting: what one stride and one group cost. -/
theorem strides_left {k pos : Nat} (hk4 : k % 4 = 0) (h4 : pos % 4 = 0) (h : pos < k) :
    (k - pos) / 4 = (k - (pos + 4)) / 4 + 1 := by omega

/-- After lane 3 the unit is at a place of its sequence, one step nearer its end. -/
theorem afterMac_last (hgs : GsOk p.gs) (hc : CfgOk p cfg) {v : WorkUnit} (hlive : v.live = true)
    (hlt : v.k < cfg.depth) (h4 : v.k % 4 = 0) (hkb : v.kb = v.k / p.gs) (hcc : v.c = v.k - v.kb * p.gs)
    (hs : v.s.isSome) (hz : v.z.isSome) :
    let u' := afterMac p.gs cfg.depth 3 v
    u'.live = true ∧ SeqOk p.gs cfg.depth u' ∧
      remaining p.gs cfg.depth u' = (groups p.gs cfg.depth - v.kb - 1) + 6 * ((cfg.depth - v.k) / 4) - 5 := by
  have hk4 := hc.k4
  have hst := strides_left hk4 h4 hlt
  have hcount := div_lt_groups hgs.1 hlt
  rcases loopNext_stride (v := { v with k := v.k + 4, c := v.c + 4 }) hgs hk4 hlt h4 hkb rfl
      (by rw [hcc, hkb]) with ⟨ha, hb, he⟩ | ⟨ha, hb, hcg, he⟩ | ⟨ha, hb, he⟩ <;>
    simp only [afterMac, he]
  · refine ⟨hlive, ?_, ?_⟩
    · simp only [SeqOk]
      refine ⟨ha, by omega, by rw [hkb, hb], ?_, hs, hz⟩
      have := Nat.div_mul_le_self v.k p.gs
      rw [hcc, hkb]; omega
    · rw [remaining_of_op (by exact hlive)]
      dsimp only
      rw [hst]; omega
  · refine ⟨hlive, ?_, ?_⟩
    · simp only [SeqOk]
      exact ⟨hcg, ha, hb⟩
    · rw [remaining_of_op (by exact hlive)]
      dsimp only
      rw [hst, hkb]; omega
  · refine ⟨hlive, ?_, ?_⟩
    · simp only [SeqOk]
      exact ha
    · rw [remaining_of_op (by exact hlive)]
      dsimp only
      rw [hst, hkb, show cfg.depth - (v.k + 4) = 0 by omega]; omega

/-- One step of a live unit at a place of its sequence: no fault, and on to the next place. -/
theorem unitStep_stepped (hgs : GsOk p.gs) (hc : CfgOk p cfg) (hat : AtCoord cfg row col u)
    (hlive : u.live = true) (hseq : SeqOk p.gs cfg.depth u) :
    ∃ u' m', unitStep p cfg m u = .ok (u', m') ∧ Stepped p cfg m u u' m' := by
  have hk4 := hc.k4
  cases hop : u.op with
  | fetchSZ =>
    have he := step_fetchSZ (m := m) hgs hc hat hop hseq
    refine ⟨_, _, he, rfl, rfl, ?_, .inl ⟨rfl, rfl, ?_⟩⟩
    · rw [remaining_of_op hlive, remaining_of_op (by rfl)]
      simp only [SeqOk, hop] at hseq
      simp only [hop]
      omega
    · simp only [SeqOk, hop] at hseq ⊢
      obtain ⟨hkb, hk, hlt⟩ := hseq
      refine ⟨hlt, by rw [hk]; exact mul_mod_four _ hgs, ?_, by omega, rfl, rfl⟩
      rw [hk, Nat.mul_div_cancel _ hgs.1]
  | loadWin =>
    have he := step_loadWin (m := m) hc hat hop hseq
    refine ⟨_, _, he, rfl, rfl, ?_, .inl ⟨hlive, rfl, ?_⟩⟩
    · rw [remaining_of_op hlive, remaining_of_op (by exact hlive)]
      simp only [hop]
    · simp only [SeqOk, hop] at hseq ⊢
      exact ⟨hseq.1, hseq.2.1, hseq.2.2.1, hseq.2.2.2.1, hseq.2.2.2.2.1, hseq.2.2.2.2.2, rfl, rfl, rfl⟩
  | unpack =>
    simp only [SeqOk, hop] at hseq
    obtain ⟨hlt, h4, hkb, hcc, hs, hz, h0, h1, h2⟩ := hseq
    obtain ⟨b0, h0⟩ := Option.isSome_iff_exists.mp h0
    obtain ⟨b1, h1⟩ := Option.isSome_iff_exists.mp h1
    obtain ⟨b2, h2⟩ := Option.isSome_iff_exists.mp h2
    refine ⟨_, _, step_unpack hop h0 h1 h2, rfl, rfl, ?_, .inl ⟨hlive, rfl, ?_⟩⟩
    · rw [remaining_of_op hlive, remaining_of_op (by exact hlive)]
      simp only [hop, strides_left hk4 h4 hlt]
      simp
      omega
    · simp only [SeqOk]
      exact ⟨hlt, h4, hkb, hcc, hs, hz, rfl, rfl, rfl, rfl⟩
  | mac i =>
    have hseq' := hseq
    simp only [SeqOk, hop] at hseq
    obtain ⟨hlt, h4, hkb, hcc, hs, hz, h0, h1, h2, h3⟩ := hseq
    obtain ⟨s, hs'⟩ := Option.isSome_iff_exists.mp hs
    obtain ⟨z, hz'⟩ := Option.isSome_iff_exists.mp hz
    obtain ⟨w, hw'⟩ := Option.isSome_iff_exists.mp (code_isSome i h0 h1 h2 h3)
    have he := step_mac (m := m) hc hat hop hseq' hs' hz' hw'
    have hst := strides_left hk4 h4 hlt
    match i, he, hop with
    | 0, he, hop =>
      refine ⟨_, _, he, rfl, rfl, ?_, .inl ⟨hlive, rfl, ⟨hlt, h4, hkb, hcc, hs, hz, h0, h1, h2, h3⟩⟩⟩
      rw [remaining_of_op hlive, remaining_of_op (by exact hlive)]
      simp only [hop, afterMac, hst]
      simp
      omega
    | 1, he, hop =>
      refine ⟨_, _, he, rfl, rfl, ?_, .inl ⟨hlive, rfl, ⟨hlt, h4, hkb, hcc, hs, hz, h0, h1, h2, h3⟩⟩⟩
      rw [remaining_of_op hlive, remaining_of_op (by exact hlive)]
      simp only [hop, afterMac, hst]
      simp
      omega
    | 2, he, hop =>
      refine ⟨_, _, he, rfl, rfl, ?_, .inl ⟨hlive, rfl, ⟨hlt, h4, hkb, hcc, hs, hz, h0, h1, h2, h3⟩⟩⟩
      rw [remaining_of_op hlive, remaining_of_op (by exact hlive)]
      simp only [hop, afterMac, hst]
      simp
      omega
    | 3, he, hop =>
      obtain ⟨hl, hsq, hrem⟩ := afterMac_last (v := { u with
        acc := macValue u.acc
          (cvtIn p.ty (m.elemAt p.ty (slotView cfg.bind.a) (idxA cfg.depth row (u.k + 3)))) s w z })
        hgs hc hlive hlt h4 hkb hcc hs hz
      refine ⟨_, _, he, by simp [afterMac], by simp [afterMac], ?_, .inl ⟨hl, rfl, hsq⟩⟩
      refine Eq.trans ?_ (congrArg (· + 1) hrem.symm)
      rw [remaining_of_op hlive]
      simp only [hop]
      simp only [hst]
      simp
      omega
  | storeC =>
    have he := step_storeC (m := m) hc hat hop
    refine ⟨_, _, he, rfl, rfl, ?_, .inr ⟨rfl, hop, ?_⟩⟩
    · rw [remaining_of_op hlive, remaining_retired (by rfl)]
      simp only [hop]
    · obtain ⟨hgx, hgy, -, -⟩ := hat
      rw [hgx, hgy]

/-- One step of any work unit, live or not, leaves every byte outside the view of C alone. -/
theorem unitStep_outside {u' : WorkUnit} {m' : Memory} (h : unitStep p cfg m u = .ok (u', m')) {a : Nat}
    (ha : ¬ inRange (slotRange p.ty cfg.bind .c) a) : m'.readByte a = m.readByte a := by
  have hmap : ∀ {x : Except Fault WorkUnit}, x.map (·, m) = .ok (u', m') → m'.readByte a = m.readByte a := by
    intro x hx
    cases x with
    | error f => cases hx
    | ok v => cases hx; rfl
  unfold unitStep at h
  split at h
  · exact hmap h
  · exact hmap h
  · exact hmap h
  · exact hmap h
  · unfold opStoreC writeElem at h
    split_ifs at h with hi
    · cases h
      cases hb : cfg.bind.c with
      | none => rw [hb] at hi; exact absurd hi (Nat.not_lt_zero _)
      | some v =>
        rw [hb] at hi
        refine readByte_setElem_outside _ ?_
        have hr : slotRange p.ty cfg.bind .c = (v.base, v.len * p.ty.bytes) := by simp [slotRange, Bind.get, hb]
        rw [hr] at ha
        have := Nat.mul_le_mul_right p.ty.bytes (Nat.succ_le_of_lt hi)
        rw [Nat.succ_mul] at this
        simp only [inRange, View.elemAddr, slotView, slotLen] at *
        omega
    · cases h

end Sys2Proof.Machine
end

