-- ==== Sys2Proof/Laws/UnitValues.lean ====
section
/-!
SUPPORT. The values a work unit's registers hold are those of the closed form (43_dispatch.md R104), however much of C
has been written meanwhile: no unit reads C (20_memory.md R40, R43).
-/

namespace Sys2Proof.Machine

variable {p : Params} {cfg : Cfg} {m mem : Memory} {u : WorkUnit} {row col : Nat}

/-- Two memories agree on every byte outside a range. -/
def AgreeOff (r : Nat × Nat) (m mem : Memory) : Prop := ∀ a, ¬ inRange r a → m.readByte a = mem.readByte a

theorem AgreeOff.refl (r : Nat × Nat) (m : Memory) : AgreeOff r m m := fun _ _ => rfl

theorem slotView_of_bound {v : Option View} (h : v.isSome) : v = some (slotView v) := by
  cases v with
  | none => simp at h
  | some v => rfl

theorem slotLen_eq {v : Option View} (h : v.isSome) : slotLen v = (slotView v).len := by
  cases v with
  | none => simp at h
  | some v => rfl

/-- The output elements lie in the view bound to slot 5. -/
theorem outputRange_sub (hc : CfgOk p cfg) {a : Nat} (h : inRange (outputRange p.ty cfg) a) :
    inRange (slotRange p.ty cfg.bind .c) a := by
  have hb : cfg.bind.c.isSome := hc.bound .c
  have hlen := hc.lenC
  rw [slotLen_eq hb] at hlen
  have he : cfg.bind.get .c = some (slotView cfg.bind.c) := slotView_of_bound hb
  unfold slotRange
  rw [he]
  unfold inRange outputRange at *
  dsimp only at *
  have := Nat.mul_le_mul_right p.ty.bytes hlen
  omega

/-- An element inside an input view is not touched by what happens to C. -/
theorem elemAt_agree (hc : CfgOk p cfg) (hag : AgreeOff (outputRange p.ty cfg) m mem) {slot : Slot}
    (hslot : slot = .a ∨ slot = .s ∨ slot = .z) {idx : Nat} (hidx : idx < slotLen (cfg.bind.get slot)) :
    m.elemAt p.ty (slotView (cfg.bind.get slot)) idx = mem.elemAt p.ty (slotView (cfg.bind.get slot)) idx := by
  refine elemAt_congr fun a h1 h2 => hag a fun hin => ?_
  have hb := hc.bound slot
  rw [slotLen_eq hb] at hidx
  have hsome := slotView_of_bound hb
  refine hc.noAlias slot (by rcases hslot with rfl | rfl | rfl <;> decide) a (outputRange_sub hc hin) ?_
  have hr : slotRange p.ty cfg.bind slot =
      ((slotView (cfg.bind.get slot)).base, (slotView (cfg.bind.get slot)).len * p.ty.bytes) := by
    unfold slotRange
    rw [hsome]
    rcases hslot with rfl | rfl | rfl <;> rfl
  rw [hr]
  unfold inRange View.elemAddr at *
  dsimp only
  have := Nat.mul_le_mul_right p.ty.bytes (Nat.succ_le_of_lt hidx)
  rw [Nat.succ_mul] at this
  omega

/-- A packed byte inside the view of B is not touched by what happens to C. -/
theorem byte_agree (hc : CfgOk p cfg) (hag : AgreeOff (outputRange p.ty cfg) m mem) {off : Nat}
    (h : off < slotLen cfg.bind.b) :
    m.readByte ((slotView cfg.bind.b).base + off) = mem.readByte ((slotView cfg.bind.b).base + off) := by
  refine hag _ fun hin => ?_
  have hb : cfg.bind.b.isSome := hc.bound .b
  rw [slotLen_eq hb] at h
  refine hc.noAlias .b (by decide) _ (outputRange_sub hc hin) ?_
  have hr : slotRange p.ty cfg.bind .b = ((slotView cfg.bind.b).base, (slotView cfg.bind.b).len) := by
    have : cfg.bind.get .b = some (slotView cfg.bind.b) := slotView_of_bound hb
    unfold slotRange
    rw [this]
  rw [hr]
  unfold inRange
  dsimp only
  omega

theorem Codes.lane_mod (w : Codes) {pos : Nat} (i : Fin 4) (h4 : pos % 4 = 0) : w.lane ((pos + i.val) % 4) =
    match i with | 0 => w.w0 | 1 => w.w1 | 2 => w.w2 | 3 => w.w3 := by
  have hi : (pos + i.val) % 4 = i.val := by have := i.isLt; omega
  rw [hi]
  match i with
  | 0 => rfl
  | 1 => rfl
  | 2 => rfl
  | 3 => rfl

/-- One MAC at position `pos` takes the accumulator from `acc_pos` to `acc_{pos+1}`. -/
theorem macValue_accAt (hag : AgreeOff (outputRange p.ty cfg) m mem) (hc : CfgOk p cfg) (hrow : row < cfg.rows)
    {pos : Nat} (hpos : pos < cfg.depth) {kb : Nat} (hkb : kb = pos / p.gs) :
    macValue (accAt p cfg mem row col pos)
      (cvtIn p.ty (m.elemAt p.ty (slotView cfg.bind.a) (idxA cfg.depth row pos)))
      (cvtIn p.ty (mem.elemAt p.ty (slotView cfg.bind.s) (idxSZ cfg.cols kb col)))
      (codeAt cfg mem col pos)
      (cvtIn p.ty (mem.elemAt p.ty (slotView cfg.bind.z) (idxSZ cfg.cols kb col))) =
    accAt p cfg mem row col (pos + 1) := by
  have ha : m.elemAt p.ty (slotView cfg.bind.a) (idxA cfg.depth row pos) =
      mem.elemAt p.ty (slotView cfg.bind.a) (idxA cfg.depth row pos) :=
    elemAt_agree hc hag (slot := .a) (.inl rfl) ((idxA_lt hrow hpos).trans_le hc.lenA)
  subst hkb
  rw [ha]
  rfl

/-- One step of a live unit keeps what its registers hold. -/
theorem unitStep_holds (hgs : GsOk p.gs) (hc : CfgOk p cfg) (hat : AtCoord cfg row col u)
    (hseq : SeqOk p.gs cfg.depth u) (hag : AgreeOff (outputRange p.ty cfg) m mem)
    (hh : Holds p cfg mem row col u) {u' : WorkUnit} {m' : Memory} (he : unitStep p cfg m u = .ok (u', m'))
    (hlive' : u'.live = true) : Holds p cfg mem row col u' := by
  have hk4 := hc.k4
  have hcol := hat.2.2.1
  have hrow := hat.2.2.2
  cases hop : u.op with
  | fetchSZ =>
    rw [step_fetchSZ hgs hc hat hop hseq] at he
    simp only [SeqOk, hop] at hseq
    obtain ⟨hkb, hk, hlt⟩ := hseq
    simp only [Holds, hop] at hh
    cases he
    have hdiv : u.k / p.gs = u.kb := by rw [hk, Nat.mul_div_cancel _ hgs.1]
    have hidx := idxSZ_lt (cols := cfg.cols) hkb hcol
    simp only [Holds, hdiv]
    refine ⟨hh, ?_, ?_⟩
    · exact congrArg (fun e => some (cvtIn p.ty e))
        (elemAt_agree hc hag (slot := .s) (.inr (.inl rfl)) (hidx.trans_le hc.lenS))
    · exact congrArg (fun e => some (cvtIn p.ty e))
        (elemAt_agree hc hag (slot := .z) (.inr (.inr rfl)) (hidx.trans_le hc.lenZ))
  | loadWin =>
    rw [step_loadWin hc hat hop hseq] at he
    simp only [SeqOk, hop] at hseq
    simp only [Holds, hop] at hh
    cases he
    have hwin := (winAddr_lt hc.k4 hcol hseq.1).trans_le hc.lenB
    simp only [Holds]
    refine ⟨hh.1, hh.2.1, hh.2.2, ?_, ?_, ?_⟩
    · rw [byte_agree hc hag (by omega)]
    · rw [Nat.add_assoc, byte_agree hc hag (by omega)]
    · rw [Nat.add_assoc, byte_agree hc hag (by omega)]
  | unpack =>
    simp only [SeqOk, hop] at hseq
    simp only [Holds, hop] at hh
    obtain ⟨hacc, hs, hz, h0, h1, h2⟩ := hh
    rw [step_unpack hop h0 h1 h2] at he
    cases he
    simp only [Holds]
    refine ⟨hacc, hs, hz, fun j => ?_⟩
    have hw := winAddr_lane (k := cfg.depth) (n := col) j.val hseq.2.1 j.isLt
    have hl := Codes.lane_mod (unpackWindow
      (mem.readByte ((slotView cfg.bind.b).base + winAddr cfg.depth col u.k))
      (mem.readByte ((slotView cfg.bind.b).base + winAddr cfg.depth col u.k + 1))
      (mem.readByte ((slotView cfg.bind.b).base + winAddr cfg.depth col u.k + 2))) j hseq.2.1
    simp only [codeAt, hw, hl]
    match j with
    | 0 => rfl
    | 1 => rfl
    | 2 => rfl
    | 3 => rfl
  | mac i =>
    simp only [Holds, hop] at hh
    obtain ⟨hacc, hs, hz, hw⟩ := hh
    rw [step_mac hc hat hop hseq hs hz (hw i)] at he
    simp only [SeqOk, hop] at hseq
    obtain ⟨hlt, h4, hkb, hcc, -⟩ := hseq
    have hpos : u.k + i.val < cfg.depth := by have := i.isLt; omega
    have hgrp := group_lane (gs := p.gs) i.val hgs h4 i.isLt
    have hmac := macValue_accAt (row := row) (col := col) hag hc hrow hpos (kb := u.k / p.gs) hgrp.symm
    rw [← hacc] at hmac
    match i, he, hmac with
    | 0, he, hmac => cases he; exact ⟨hmac, hs, hz, hw⟩
    | 1, he, hmac => cases he; exact ⟨hmac, hs, hz, hw⟩
    | 2, he, hmac => cases he; exact ⟨hmac, hs, hz, hw⟩
    | 3, he, hmac =>
      simp only [afterMac] at he
      rcases loopNext_stride (v := { u with
          acc := macValue u.acc
            (cvtIn p.ty (m.elemAt p.ty (slotView cfg.bind.a) (idxA cfg.depth row (u.k + 3))))
            (cvtIn p.ty (mem.elemAt p.ty (slotView cfg.bind.s) (idxSZ cfg.cols (u.k / p.gs) col)))
            (codeAt cfg mem col (u.k + 3))
            (cvtIn p.ty (mem.elemAt p.ty (slotView cfg.bind.z) (idxSZ cfg.cols (u.k / p.gs) col)))
          k := u.k + 4
          c := u.c + 4 }) hgs hk4 hlt h4 hkb rfl (by rw [hcc, hkb]) with
        ⟨ha, hb, hn⟩ | ⟨ha, hb, hg, hn⟩ | ⟨ha, hb, hn⟩
      · have he' := (Except.ok.inj he)
        obtain ⟨rfl, rfl⟩ := Prod.mk.inj (he'.symm.trans (congrArg (·, m) hn))
        exact ⟨hmac, by simp only [← hb]; exact hs, by simp only [← hb]; exact hz⟩
      · have he' := (Except.ok.inj he)
        obtain ⟨rfl, rfl⟩ := Prod.mk.inj (he'.symm.trans (congrArg (·, m) hn))
        exact hmac
      · have he' := (Except.ok.inj he)
        obtain ⟨rfl, rfl⟩ := Prod.mk.inj (he'.symm.trans (congrArg (·, m) hn))
        exact hmac.trans (congrArg (accAt p cfg mem row col) ha)
  | storeC =>
    rw [step_storeC hc hat hop] at he
    cases he
    simp [WorkUnit.live] at hlive'

/-- The unit's one write is the element's value. -/
theorem storeC_value (hop : u.op = .storeC) (hh : Holds p cfg mem row col u) :
    cvtOut p.ty u.acc = resultAt p cfg mem row col := by
  simp only [Holds, hop] at hh
  rw [hh]
  rfl

/-- A unit at its start holds what it should. -/
theorem start_holds (hgs : GsOk p.gs) (hc : CfgOk p cfg) (n r : Nat) :
    SeqOk p.gs cfg.depth (WorkUnit.start n r) ∧ Holds p cfg mem row col (WorkUnit.start n r) := by
  have hd := hc.depth
  refine ⟨?_, rfl⟩
  simp only [SeqOk, WorkUnit.start]
  exact ⟨(lt_groups_iff hgs.1).mpr (by omega), by omega, by omega⟩

end Sys2Proof.Machine
end

