-- ==== Sys2Proof/Laws/Tick.lean ====
section
/-!
SUPPORT. One move of a work unit in a dispatch: which unit a pick names, what the move can do, and that it is one step
nearer the end.
-/

namespace Sys2Proof.Machine

/-! ### Picks -/

theorem nthLive_some {us : List WorkUnit} {n j : Nat} (h : nthLive us n = some j) :
    ∃ u, us[j]? = some u ∧ u.live = true := by
  induction us generalizing n j with
  | nil => simp [nthLive] at h
  | cons v us ih =>
    unfold nthLive at h
    split_ifs at h with hv
    · cases n with
      | zero => simp at h; subst h; exact ⟨v, rfl, hv⟩
      | succ n =>
        obtain ⟨j', hj', rfl⟩ := Option.map_eq_some_iff.mp h
        exact ih hj'
    · obtain ⟨j', hj', rfl⟩ := Option.map_eq_some_iff.mp h
      exact ih hj'

theorem nthLive_isSome {us : List WorkUnit} {n : Nat} (h : n < us.countP WorkUnit.live) :
    (nthLive us n).isSome := by
  induction us generalizing n with
  | nil => simp at h
  | cons v us ih =>
    unfold nthLive
    by_cases hv : v.live = true
    · rw [List.countP_cons_of_pos hv] at h
      cases n with
      | zero => simp [hv]
      | succ n => simpa [hv] using ih (by omega)
    · rw [List.countP_cons_of_neg hv] at h
      simpa [hv] using ih h

/-- Any pick names a live unit while there is one (43_dispatch.md R102). -/
theorem pickUnit_of_live {us : List WorkUnit} (pick : Nat) (h : ∃ u ∈ us, u.live = true) :
    ∃ j u, pickUnit us pick = some j ∧ us[j]? = some u ∧ u.live = true := by
  have hpos : 0 < us.countP WorkUnit.live := List.countP_pos_iff.mpr h
  have hs := nthLive_isSome (Nat.mod_lt pick hpos)
  obtain ⟨j, hj⟩ := Option.isSome_iff_exists.mp hs
  obtain ⟨u, hu, hl⟩ := nthLive_some hj
  exact ⟨j, u, hj, hu, hl⟩

theorem pickUnit_of_none_live {us : List WorkUnit} (pick : Nat) (h : ∀ u ∈ us, u.live = false) :
    pickUnit us pick = none := by
  cases hp : pickUnit us pick with
  | none => rfl
  | some j =>
    obtain ⟨u, hu, hl⟩ := nthLive_some hp
    rw [h u (List.mem_of_getElem? hu)] at hl
    cases hl

/-! ### The work left in a dispatch -/

/-- The steps all units together have left. -/
def workLeft (gs k : Nat) (us : List WorkUnit) : Nat := (us.map (remaining gs k)).sum

theorem workLeft_set {gs k : Nat} {us : List WorkUnit} {j : Nat} {u u' : WorkUnit} (h : us[j]? = some u) :
    workLeft gs k (us.set j u') + remaining gs k u = workLeft gs k us + remaining gs k u' := by
  induction us generalizing j with
  | nil => simp at h
  | cons v us ih =>
    cases j with
    | zero =>
      simp only [List.getElem?_cons_zero, Option.some.injEq] at h
      subst h
      simp [workLeft]
      omega
    | succ j =>
      simp only [List.getElem?_cons_succ] at h
      have := ih h
      simp [workLeft] at this ⊢
      omega

theorem all_retired_iff {us : List WorkUnit} :
    us.all (fun u => !u.live) = true ↔ ∀ u ∈ us, u.live = false := by simp

/-! ### Units in their places -/

theorem coord_of {cfg : Cfg} {p : Params} {us : List WorkUnit} (hu : UnitsOk p cfg us) (hc : CfgOk p cfg) {j : Nat}
    {u : WorkUnit} (h : us[j]? = some u) : AtCoord cfg (j / cfg.cols) (j % cfg.cols) u := by
  obtain ⟨hx, hy⟩ := hu.coord j u h
  have hj : j < cfg.rows * cfg.cols := hu.count ▸ (List.getElem?_eq_some_iff.mp h).1
  exact ⟨hx, hy, Nat.mod_lt _ hc.cols, Nat.div_lt_of_lt_mul (by rwa [Nat.mul_comm])⟩

/-- A step of one unit leaves the units in their places. -/
theorem unitsOk_set {p : Params} {cfg : Cfg} {us : List WorkUnit} (hu : UnitsOk p cfg us) {j : Nat}
    {u u' : WorkUnit} (hj : us[j]? = some u) (hx : u'.gx = u.gx) (hy : u'.gy = u.gy)
    (hseq : SeqOk p.gs cfg.depth u') : UnitsOk p cfg (us.set j u') where
  count := by rw [List.length_set, hu.count]
  coord := by
    intro i v hv
    rw [List.getElem?_set] at hv
    split_ifs at hv with h1 h2
    · cases hv
      subst h1
      rw [hx, hy]
      exact hu.coord j u hj
    · exact hu.coord i v hv
  seq := by
    intro v hv
    rcases List.mem_or_eq_of_mem_set hv with hv | rfl
    · exact hu.seq v hv
    · exact hseq

/-- What one move of a work unit can do: nothing is left to do, or one live unit takes one step. -/
theorem tick_cases {p : Params} {s : State} (hgs : GsOk p.gs) (hc : CfgOk p s.cfg) (hu : UnitsOk p s.cfg s.units)
    (pick : Nat) :
    ((∀ u ∈ s.units, u.live = false) ∧ tick p pick s = .ok (completeIfRetired s)) ∨
    ∃ j u u' m', s.units[j]? = some u ∧ u.live = true ∧ unitStep p s.cfg s.mem u = .ok (u', m') ∧
      Stepped p s.cfg s.mem u u' m' ∧ UnitsOk p s.cfg (s.units.set j u') ∧
      tick p pick s = .ok (completeIfRetired { s with units := s.units.set j u', mem := m' }) := by
  by_cases h : ∃ u ∈ s.units, u.live = true
  · right
    obtain ⟨j, u, hp, hj, hl⟩ := pickUnit_of_live pick h
    have hseq := hu.seq u (List.mem_of_getElem? hj)
    obtain ⟨u', m', he, hst⟩ := unitStep_stepped (m := s.mem) hgs hc (coord_of hu hc hj) hl hseq
    refine ⟨j, u, u', m', hj, hl, he, hst, ?_, ?_⟩
    · refine unitsOk_set hu hj hst.gx hst.gy ?_
      rcases hst.onward with ⟨-, -, h⟩ | ⟨-, hop, -⟩
      · exact h
      · have he' := step_storeC (m := s.mem) hc (coord_of hu hc hj) hop
        rw [he'] at he
        cases he
        simp only [SeqOk, hop] at hseq ⊢
        exact hseq
    · simp [tick, hp, hj, he]
  · left
    have h' : ∀ u ∈ s.units, u.live = false := fun u hu' => by
      cases hl : u.live
      · rfl
      · exact absurd ⟨u, hu', hl⟩ h
    exact ⟨h', by simp [tick, pickUnit_of_none_live pick h']⟩

end Sys2Proof.Machine
end

