-- ==== Sys2Proof/Laws/Run.lean ====
section
/-!
SUPPORT. A whole dispatch: under the launch premises, whatever the order in which the work units move, it ends with every
element of C holding its value and nothing else changed (43_dispatch.md R104, 20_memory.md R43).
-/

namespace Sys2Proof.Machine

variable {p : Params} {cfg : Cfg} {mem : Memory}

/-! ### The invariant of a dispatch in progress -/

/-- A dispatch in progress that was launched with the memory `mem`: every live unit holds what it should, every retired
unit's element has its value, and memory outside C is as at launch. -/
structure InDispatch (p : Params) (mem : Memory) (s : State) : Prop where
  status : s.status = .running
  wf : s.mem.wf
  units : UnitsOk p s.cfg s.units
  agree : AgreeOff (outputRange p.ty s.cfg) s.mem mem
  holds : ∀ j u, s.units[j]? = some u → u.live = true →
    Holds p s.cfg mem (j / s.cfg.cols) (j % s.cfg.cols) u
  written : ∀ j u, s.units[j]? = some u → u.live = false →
    s.mem.elemAt p.ty (slotView s.cfg.bind.c) j = resultAt p s.cfg mem (j / s.cfg.cols) (j % s.cfg.cols)

/-- The end of a dispatch that was launched with the memory `mem`. -/
structure Ended (p : Params) (cfg : Cfg) (mem : Memory) (t : State) : Prop where
  status : t.status = .done
  cfg_eq : t.cfg = cfg
  units : t.units = []
  wf : t.mem.wf
  agree : AgreeOff (outputRange p.ty cfg) t.mem mem
  result : ∀ j, j < cfg.rows * cfg.cols →
    t.mem.elemAt p.ty (slotView cfg.bind.c) j = resultAt p cfg mem (j / cfg.cols) (j % cfg.cols)

theorem idxC_div_mod (cols j : Nat) : idxC cols (j / cols) (j % cols) = j := by
  unfold idxC
  exact Nat.div_add_mod' j cols

/-- An output element lies in the output range. -/
theorem elem_in_outputRange {ty : Ty} {j a : Nat} (hj : j < cfg.rows * cfg.cols)
    (h1 : (slotView cfg.bind.c).elemAddr ty j ≤ a) (h2 : a < (slotView cfg.bind.c).elemAddr ty j + ty.bytes) :
    inRange (outputRange ty cfg) a := by
  unfold inRange outputRange View.elemAddr at *
  dsimp only
  have := Nat.mul_le_mul_right ty.bytes (Nat.succ_le_of_lt hj)
  rw [Nat.succ_mul] at this
  omega

/-- LAUNCH, its premises met, starts a dispatch. -/
theorem launch_inDispatch {s : State} (hgs : GsOk p.gs) (hc : CfgOk p s.cfg) (hwf : s.mem.wf) :
    InDispatch p s.mem (launch s) := by
  have hget : ∀ j u, (gridUnits s.cfg.cols s.cfg.rows)[j]? = some u →
      j < s.cfg.rows * s.cfg.cols ∧ u = WorkUnit.start (j % s.cfg.cols) (j / s.cfg.cols) := by
    intro j u h
    unfold gridUnits at h
    rw [List.getElem?_map] at h
    obtain ⟨i, hi, rfl⟩ := Option.map_eq_some_iff.mp h
    obtain ⟨hlt, rfl⟩ := List.getElem?_eq_some_iff.mp hi
    rw [List.length_range] at hlt
    rw [List.getElem_range]
    exact ⟨hlt, rfl⟩
  have hN : s.cfg.cols < 2 ^ 32 := s.cfg.n.isLt
  have hM : s.cfg.rows < 2 ^ 32 := s.cfg.m.isLt
  have hcols := hc.cols
  refine ⟨rfl, hwf, ⟨by simp [gridUnits], ?_, ?_⟩, AgreeOff.refl _ _, ?_, ?_⟩
  · intro j u h
    obtain ⟨hlt, rfl⟩ := hget j u h
    have h1 : j % s.cfg.cols < s.cfg.cols := Nat.mod_lt _ (by omega)
    have h2 : j / s.cfg.cols < s.cfg.rows := Nat.div_lt_of_lt_mul (by rwa [Nat.mul_comm])
    simp only [WorkUnit.start, BitVec.toNat_ofNat, launch_cfg]
    exact ⟨Nat.mod_eq_of_lt (by omega), Nat.mod_eq_of_lt (by omega)⟩
  · intro u hu
    obtain ⟨j, hj⟩ := List.mem_iff_getElem?.mp hu
    obtain ⟨-, rfl⟩ := hget j u hj
    exact (start_holds (row := 0) (col := 0) (mem := s.mem) hgs hc _ _).1
  · intro j u h _
    obtain ⟨-, rfl⟩ := hget j u h
    exact (start_holds hgs hc _ _).2
  · intro j u h hl
    obtain ⟨-, rfl⟩ := hget j u h
    cases hl

/-- While a unit is live there is work left. -/
theorem workLeft_pos {us : List WorkUnit} (hgs : GsOk p.gs) (hc : CfgOk p cfg) (hu : UnitsOk p cfg us)
    (h : ∃ u ∈ us, u.live = true) : 0 < workLeft p.gs cfg.depth us := by
  obtain ⟨v, hv, hlv⟩ := h
  obtain ⟨i, hi⟩ := List.mem_iff_getElem?.mp hv
  obtain ⟨_, _, _, hst⟩ := unitStep_stepped (m := []) hgs hc (coord_of hu hc hi) hlv (hu.seq v hv)
  have hge : remaining p.gs cfg.depth v ≤ workLeft p.gs cfg.depth us :=
    List.single_le_sum (by simp) _ (List.mem_map_of_mem hv)
  have := hst.fewer
  omega

/-- One move of a work unit goes on with the dispatch, one step nearer its end, or ends it. -/
theorem tick_inDispatch {s : State} (hgs : GsOk p.gs) (hc : CfgOk p s.cfg) (hd : InDispatch p mem s)
    (pick : Nat) :
    ∃ s', tick p pick s = .ok s' ∧ s'.cfg = s.cfg ∧ s'.grid = s.grid ∧ s'.agenda = s.agenda ∧ s'.draws = s.draws ∧
      s'.seenC = s.seenC ∧
      ((InDispatch p mem s' ∧ 0 < workLeft p.gs s.cfg.depth s'.units ∧
          workLeft p.gs s.cfg.depth s.units = workLeft p.gs s.cfg.depth s'.units + 1) ∨
        (Ended p s.cfg mem s' ∧ workLeft p.gs s.cfg.depth s.units ≤ 1)) := by
  rcases tick_cases hgs hc hd.units pick with ⟨hall, he⟩ | ⟨j, u, u', m', hj, hl, hu, hst, hok, he⟩
  · -- every unit has retired already
    refine ⟨_, he, by simp, by simp, by simp, by simp, by simp, .inr ⟨?_, ?_⟩⟩
    · rw [completeIfRetired_of_retired _ (all_retired_iff.mpr hall)]
      refine ⟨rfl, rfl, rfl, hd.wf, hd.agree, fun i hi => ?_⟩
      obtain ⟨v, hv⟩ : ∃ v, s.units[i]? = some v := by
        rw [← hd.units.count] at hi
        exact ⟨_, List.getElem?_eq_getElem hi⟩
      exact hd.written i v hv (hall v (List.mem_of_getElem? hv))
    · have : workLeft p.gs s.cfg.depth s.units = 0 := by
        unfold workLeft
        rw [List.sum_eq_zero]
        intro x hx
        obtain ⟨v, hv, rfl⟩ := List.mem_map.mp hx
        exact remaining_retired (hall v hv)
      omega
  · have hat := coord_of hd.units hc hj
    have hseq := hd.units.seq u (List.mem_of_getElem? hj)
    have hwork := workLeft_set (gs := p.gs) (k := s.cfg.depth) (u' := u') hj
    have hfew := hst.fewer
    have hjlt : j < s.cfg.rows * s.cfg.cols := hd.units.count ▸ (List.getElem?_eq_some_iff.mp hj).1
    -- the state after the unit's step, before completion is looked at
    have hmid : InDispatch p mem { s with units := s.units.set j u', mem := m' } := by
      have hsame : ∀ i v, (s.units.set j u')[i]? = some v → i ≠ j → s.units[i]? = some v := by
        intro i v hv hne
        rwa [List.getElem?_set_ne (Ne.symm hne)] at hv
      have hself : ∀ v, (s.units.set j u')[j]? = some v → v = u' := by
        intro v hv
        rw [List.getElem?_set_self (List.getElem?_eq_some_iff.mp hj).1] at hv
        exact (Option.some.inj hv).symm
      rcases hst.onward with ⟨hl', rfl, hseq'⟩ | ⟨hl', hop, hm'⟩
      · refine ⟨hd.status, hd.wf, hok, hd.agree, ?_, ?_⟩
        · intro i v hv hlv
          by_cases hij : i = j
          · subst hij
            cases hself v hv
            exact unitStep_holds hgs hc hat hseq hd.agree (hd.holds i u hj hl) hu hlv
          · exact hd.holds i v (hsame i v hv hij) hlv
        · intro i v hv hlv
          by_cases hij : i = j
          · subst hij
            cases hself v hv
            rw [hl'] at hlv
            cases hlv
          · exact hd.written i v (hsame i v hv hij) hlv
      · have hidx : idxC s.cfg.cols u.gy.toNat u.gx.toNat = j := by
          rw [hat.1, hat.2.1, idxC_div_mod]
        rw [hidx] at hm'
        subst hm'
        refine ⟨hd.status, setElem_wf hd.wf _ _ _ _, hok, ?_, ?_, ?_⟩
        · intro a ha
          rw [← hd.agree a ha]
          refine readByte_setElem_outside (v := slotView s.cfg.bind.c) _ ?_
          by_contra hcon
          exact ha (elem_in_outputRange (cfg := s.cfg) hjlt (by omega) (by omega))
        · intro i v hv hlv
          by_cases hij : i = j
          · subst hij
            cases hself v hv
            rw [hl'] at hlv
            cases hlv
          · exact hd.holds i v (hsame i v hv hij) hlv
        · intro i v hv hlv
          by_cases hij : i = j
          · subst hij
            show Memory.elemAt _ _ _ _ = _
            rw [elemAt_setElem_same hd.wf (cvtOut_fits p.ty u.acc)]
            exact storeC_value hop (hd.holds i u hj hl)
          · show Memory.elemAt _ _ _ _ = _
            rw [elemAt_setElem_ne _ (Ne.symm hij)]
            exact hd.written i v (hsame i v hv hij) hlv
    refine ⟨_, he, by simp, by simp, by simp, by simp, by simp, ?_⟩
    cases hall : (s.units.set j u').all (fun v => !v.live) with
    | false =>
      left
      rw [completeIfRetired_of_live _ hall]
      refine ⟨hmid, workLeft_pos hgs hc hok ?_, by show _ = workLeft _ _ (s.units.set j u') + 1; omega⟩
      by_contra hcon
      push Not at hcon
      have := all_retired_iff.mpr fun v hv => by simpa using hcon v hv
      rw [this] at hall
      cases hall
    | true =>
      right
      rw [completeIfRetired_of_retired _ hall]
      have hret := all_retired_iff.mp hall
      refine ⟨⟨rfl, rfl, rfl, hmid.wf, hmid.agree, fun i hi => ?_⟩, ?_⟩
      · obtain ⟨v, hv⟩ : ∃ v, (s.units.set j u')[i]? = some v := by
          rw [← hd.units.count, ← List.length_set (as := s.units) (i := j) (a := u')] at hi
          exact ⟨_, List.getElem?_eq_getElem hi⟩
        exact hmid.written i v hv (hret v (List.mem_of_getElem? hv))
      · have hz : workLeft p.gs s.cfg.depth (s.units.set j u') = 0 := by
          unfold workLeft
          rw [List.sum_eq_zero]
          intro x hx
          obtain ⟨v, hv, rfl⟩ := List.mem_map.mp hx
          exact remaining_retired (hret v hv)
        have hz' : remaining p.gs s.cfg.depth u' = 0 := by
          refine remaining_retired (hret u' ?_)
          exact List.mem_of_getElem? (List.getElem?_set_self (List.getElem?_eq_some_iff.mp hj).1)
        omega

/-! ### The run -/

theorem runDispatch_not_running {fuel : Nat} {s : State} (h : s.status ≠ .running) :
    runDispatch p fuel s = .next s := by
  cases fuel with
  | zero => rfl
  | succ n => cases hs : s.status <;> simp_all [runDispatch]

/-- With nothing on the agenda the first live unit moves. -/
theorem runDispatch_empty {fuel : Nat} {s s' : State} (h : s.status = .running) (ha : s.agenda = [])
    (ht : tick p 0 s = .ok s') : runDispatch p (fuel + 1) s = runDispatch p fuel s' := by
  simp only [runDispatch, h, ha, ht]

/-- A pick on the agenda moves the unit it names. -/
theorem runDispatch_pick {fuel pick : Nat} {rest : List Move} {s s' : State} (h : s.status = .running)
    (ha : s.agenda = .unit pick :: rest) (ht : tick p pick { s with agenda := rest } = .ok s') :
    runDispatch p (fuel + 1) s = runDispatch p fuel s' := by
  rw [h] at ht
  simp only [runDispatch, h, ha, ht]

theorem UnitsMove.tail {n : Nat} {mv : Move} {rest : List Move} (h : UnitsMove (n + 1) (mv :: rest)) :
    (∃ pick, mv = .unit pick) ∧ UnitsMove n rest :=
  ⟨h mv (by simp), fun x hx => h x (by simp [hx])⟩

/-- A dispatch in progress in which the work units alone move ends, with enough fuel, having taken the moves of its
steps from the agenda. -/
theorem runDispatch_ends {fuel : Nat} {s : State} (hgs : GsOk p.gs) (hc : CfgOk p s.cfg)
    (hd : InDispatch p mem s) (hfuel : workLeft p.gs s.cfg.depth s.units < fuel)
    (hpos : 0 < workLeft p.gs s.cfg.depth s.units)
    (hag : UnitsMove (workLeft p.gs s.cfg.depth s.units) s.agenda) :
    ∃ t, runDispatch p fuel s = .next t ∧ Ended p s.cfg mem t ∧ t.grid = s.grid ∧ t.draws = s.draws ∧
      t.seenC = s.seenC ∧ t.agenda = s.agenda.drop (workLeft p.gs s.cfg.depth s.units) := by
  induction fuel generalizing s with
  | zero => omega
  | succ fuel ih =>
    obtain ⟨w, hw⟩ : ∃ w, workLeft p.gs s.cfg.depth s.units = w + 1 := ⟨_, (Nat.succ_pred_eq_of_pos hpos).symm⟩
    -- the move: a pick, and the agenda it leaves
    obtain ⟨pick, rest, hstep, hrest, hdrop⟩ : ∃ pick rest,
        (∀ s', tick p pick { s with agenda := rest } = .ok s' → runDispatch p (fuel + 1) s = runDispatch p fuel s') ∧
        UnitsMove w rest ∧ s.agenda.drop (w + 1) = rest.drop w := by
      cases hagenda : s.agenda with
      | nil =>
        refine ⟨0, [], fun s' h => ?_, by intro x hx; simp at hx, by simp⟩
        have hs : { s with agenda := [] } = s := by rw [← hagenda]
        rw [hs] at h
        exact runDispatch_empty hd.status hagenda h
      | cons mv rest =>
        rw [hagenda, hw] at hag
        obtain ⟨⟨pick, rfl⟩, hag'⟩ := hag.tail
        exact ⟨pick, rest, fun s' h => runDispatch_pick hd.status hagenda h, hag', by simp⟩
    have hd' : InDispatch p mem { s with agenda := rest } :=
      ⟨hd.status, hd.wf, hd.units, hd.agree, hd.holds, hd.written⟩
    obtain ⟨s', ht, hcfg, hgrid, hagd, hdraws, hseen, hcase⟩ := tick_inDispatch hgs (by exact hc) hd' pick
    rw [hstep s' ht, hw, hdrop]
    dsimp only at hcfg hgrid hagd hdraws hseen
    simp only [hw] at hcase
    rcases hcase with ⟨hin, hleft, hwork⟩ | ⟨hend, hwork⟩
    · have hwork' : workLeft p.gs s'.cfg.depth s'.units = w := by rw [hcfg]; omega
      obtain ⟨t, hrun, hend, hg, hdr, hsn, hagt⟩ := ih (s := s') (hcfg ▸ hc) hin (by rw [hwork']; omega)
        (by rw [hcfg]; exact hleft) (by rw [hwork', hagd]; exact hrest)
      refine ⟨t, hrun, hcfg ▸ hend, hg.trans hgrid, hdr.trans hdraws, hsn.trans hseen, ?_⟩
      rw [hagt, hwork', hagd]
    · have hz : w = 0 := by omega
      subst hz
      refine ⟨s', ?_, hend, hgrid, hdraws, hseen, by rw [hagd]; simp⟩
      exact runDispatch_not_running (by rw [hend.status]; decide)

/-- Fewer picks than the dispatch has steps left: each is taken, and the dispatch goes on after them, still in progress. -/
theorem runDispatch_picks {fuel : Nat} {s : State} {before after : List Move} (hgs : GsOk p.gs) (hc : CfgOk p s.cfg)
    (hd : InDispatch p mem s) (hag : s.agenda = before ++ after) (hpicks : ∀ mv ∈ before, ∃ pick, mv = .unit pick)
    (hwork : before.length < workLeft p.gs s.cfg.depth s.units) :
    ∃ t, runDispatch p (before.length + fuel) s = runDispatch p fuel t ∧ InDispatch p mem t ∧ t.cfg = s.cfg ∧
      t.grid = s.grid ∧ t.draws = s.draws ∧ t.seenC = s.seenC ∧ t.agenda = after ∧
      workLeft p.gs s.cfg.depth t.units = workLeft p.gs s.cfg.depth s.units - before.length := by
  induction before generalizing s with
  | nil => exact ⟨s, by simp, hd, rfl, rfl, rfl, rfl, hag, rfl⟩
  | cons mv before ih =>
    obtain ⟨pick, rfl⟩ := hpicks mv (by simp)
    rw [List.length_cons] at hwork
    have hd' : InDispatch p mem { s with agenda := before ++ after } :=
      ⟨hd.status, hd.wf, hd.units, hd.agree, hd.holds, hd.written⟩
    obtain ⟨s', ht, hcfg, hgrid, hagd, hdraws, hseen, hcase⟩ := tick_inDispatch hgs (by exact hc) hd' pick
    dsimp only at hcfg hgrid hagd hdraws hseen hcase
    rw [List.length_cons, show before.length + 1 + fuel = before.length + fuel + 1 by omega,
      runDispatch_pick hd.status (by simpa using hag) ht]
    rcases hcase with ⟨hin, -, hleft⟩ | ⟨-, hleft⟩
    · obtain ⟨t, h1, h2, h3, h4, h5, h6, h7, h8⟩ := ih (s := s') (hcfg ▸ hc) hin hagd
        (fun mv hm => hpicks mv (by simp [hm])) (by rw [hcfg]; omega)
      refine ⟨t, h1, h2, h3.trans hcfg, h4.trans hgrid, h5.trans hdraws, h6.trans hseen, h7, ?_⟩
      rw [hcfg] at h8
      rw [h8]
      omega
    · omega

/-- A dispatch in progress up to the host's look, before its last step: still in progress, the steps of the picks taken. -/
theorem runDispatch_look {fuel : Nat} {s : State} {before after : List Move} (hgs : GsOk p.gs) (hc : CfgOk p s.cfg)
    (hd : InDispatch p mem s) (hag : s.agenda = before ++ .host .look :: after)
    (hpicks : ∀ mv ∈ before, ∃ pick, mv = .unit pick)
    (hwork : before.length < workLeft p.gs s.cfg.depth s.units) (hfuel : before.length < fuel) :
    ∃ t, runDispatch p fuel s = .next t ∧ InDispatch p mem t ∧ t.cfg = s.cfg ∧ t.grid = s.grid ∧ t.draws = s.draws ∧
      t.seenC = s.seenC ∧ t.agenda = after ∧
      workLeft p.gs s.cfg.depth t.units = workLeft p.gs s.cfg.depth s.units - before.length := by
  obtain ⟨n, rfl⟩ : ∃ n, fuel = before.length + (n + 1) := ⟨fuel - before.length - 1, by omega⟩
  obtain ⟨t, h1, h2, h3, h4, h5, h6, h7, h8⟩ := runDispatch_picks (fuel := n + 1) hgs hc hd hag hpicks hwork
  refine ⟨{ t with agenda := after }, ?_, ⟨h2.status, h2.wf, h2.units, h2.agree, h2.holds, h2.written⟩, h3, h4, h5, h6, rfl, h8⟩
  rw [h1]
  simp only [runDispatch, h2.status, h7]

end Sys2Proof.Machine
end

