-- ==== Sys2Proof/Laws/Exec.lean ====
section
/-!
SUPPORT. A launch and its dispatch: the premises as the machine checks them are the premises as facts; a launch that
meets them delivers; a launch that does not is refused under the name of a premise that fails.
-/

namespace Sys2Proof.Machine

variable {p : Params} {s : State}

/-! ### The premises -/

theorem rangesMeet_iff {q r : Nat × Nat} : rangesMeet q r = true ↔ ∃ a, inRange q a ∧ inRange r a := by
  simp only [rangesMeet, Bool.and_eq_true, decide_eq_true_eq, inRange]
  constructor
  · rintro ⟨⟨⟨h1, h2⟩, h3⟩, h4⟩
    exact ⟨max q.1 r.1, by omega, by omega⟩
  · rintro ⟨a, h1, h2⟩
    omega

theorem inputSlots_meet_iff {ty : Ty} {b : Bind} :
    inputSlots.all (fun slot => !rangesMeet (slotRange ty b .c) (slotRange ty b slot)) = true ↔
      ∀ slot, slot ≠ .c → ∀ a, inRange (slotRange ty b .c) a → ¬ inRange (slotRange ty b slot) a := by
  have hno : ∀ slot, (!rangesMeet (slotRange ty b .c) (slotRange ty b slot)) = true ↔
      ∀ a, inRange (slotRange ty b .c) a → ¬ inRange (slotRange ty b slot) a := by
    intro slot
    rw [Bool.not_eq_true', ← Bool.not_eq_true, rangesMeet_iff]
    push Not
    rfl
  rw [List.all_eq_true]
  constructor
  · intro h slot hs
    refine (hno slot).mp (h slot ?_)
    cases slot <;> first | exact absurd rfl hs | decide
  · intro h slot hs
    refine (hno slot).mpr (h slot ?_)
    rintro rfl
    exact absurd hs (by decide)

theorem allSlots_bound_iff {b : Bind} :
    allSlots.all (fun slot => (b.get slot).isSome) = true ↔ ∀ slot, (b.get slot).isSome := by
  rw [List.all_eq_true]
  exact ⟨fun h slot => h slot (by cases slot <;> decide), fun h slot _ => h slot⟩

/-- The machine lets a launch through exactly when all premises hold. -/
theorem firstFailing_none_iff :
    firstFailing p s = none ↔ CfgOk p s.cfg ∧ s.grid = ⟨s.cfg.cols, s.cfg.rows⟩ := by
  have hall : firstFailing p s = none ↔ ∀ q ∈ premises p s, q.1 = true := by
    unfold firstFailing
    rw [Option.map_eq_none_iff, List.find?_eq_none]
    simp
  rw [hall]
  simp only [premises, List.forall_mem_cons, List.not_mem_nil, false_imp_iff, implies_true, and_true,
    Bool.and_eq_true, decide_eq_true_eq, Bool.not_eq_true', beq_iff_eq, allSlots_bound_iff, inputSlots_meet_iff]
  have hsel : tyPresent Config.hasBf16 p.ty = true ↔ (p.ty = .bf16 → Config.hasBf16 = true) := by
    unfold tyPresent
    cases Config.hasBf16 <;> simp
  rw [hsel]
  constructor
  · rintro ⟨h1, ⟨⟨⟨h2, h3⟩, h4⟩, h5⟩, h6, h7, h8, h9, ⟨h10, h11⟩, h12, h13, h14⟩
    exact ⟨⟨h1, h2, h3, h4, h5, h6, h7, h8, h9, h10, h11, h12, h13⟩, h14⟩
  · rintro ⟨⟨h1, h2, h3, h4, h5, h6, h7, h8, h9, h10, h11, h12, h13⟩, h14⟩
    exact ⟨h1, ⟨⟨⟨h2, h3⟩, h4⟩, h5⟩, h6, h7, h8, h9, ⟨h10, h11⟩, h12, h13, h14⟩

/-- A refusal of the machine's list names a premise that fails. -/
theorem firstFailing_violated {r : Refusal} (h : firstFailing p s = some r) : Violated p s r := by
  unfold firstFailing at h
  obtain ⟨q, hq, rfl⟩ := Option.map_eq_some_iff.mp h
  have hmem := List.mem_of_find?_eq_some hq
  have hfalse : q.1 = false := by simpa using List.find?_some hq
  simp only [premises, List.mem_cons, List.not_mem_nil, or_false] at hmem
  rcases hmem with rfl | rfl | rfl | rfl | rfl | rfl | rfl | rfl | rfl | rfl <;> dsimp only at hfalse <;>
    simp only [Violated]
  · unfold tyPresent at hfalse
    cases hb : Config.hasBf16 <;> simp_all
  · simp only [Bool.and_eq_false_iff, decide_eq_false_iff_not, Bool.not_eq_false'] at hfalse
    rcases hfalse with h | h
    · omega
    · exact .inr (.inr (.inr h))
  · simpa using hfalse
  · left
    by_contra hcon
    push Not at hcon
    have := allSlots_bound_iff.mpr fun slot => Option.isSome_iff_ne_none.mpr (hcon slot)
    rw [this] at hfalse
    cases hfalse
  · right; left; simpa using hfalse
  · right; right; left; exact not_le.mp (of_decide_eq_false hfalse)
  · simp only [Bool.and_eq_false_iff, decide_eq_false_iff_not] at hfalse
    omega
  · right; right; right; simpa using hfalse
  · by_contra hcon
    push Not at hcon
    rw [inputSlots_meet_iff.mpr hcon] at hfalse
    cases hfalse
  · simpa using hfalse

/-! ### Execution -/

/-- Every entry point is the common kernel with its own two constants (43_dispatch.md R104). -/
theorem exec_eq (i : Instr) (s : State) : exec i s = execQlk ⟨i.gs, i.ty⟩ s := by cases i <;> rfl

theorem gsOk_instr (i : Instr) : GsOk i.gs := by cases i <;> exact ⟨by decide, by decide⟩

theorem execQlk_launch (hidle : s.status ≠ .running) (h : firstFailing p s = none) :
    execQlk p s = runDispatch p (dispatchFuel p (launch s)) (launch s) := by
  cases hs : s.status <;> simp_all [execQlk]

theorem execQlk_refused (hidle : s.status ≠ .running) {r : Refusal} (h : firstFailing p s = some r) :
    execQlk p s = .refused r := by
  cases hs : s.status <;> simp_all [execQlk]

theorem execQlk_running (h : s.status = .running) : execQlk p s = runDispatch p (dispatchFuel p s) s := by
  simp [execQlk, h]

/-- The work of a dispatch just launched (70_reset_and_hazards.md R177). -/
theorem workLeft_launch (hc : CfgOk p s.cfg) :
    workLeft p.gs s.cfg.depth (launch s).units = dispatchSteps p s.cfg := by
  simp only [launch_units, gridUnits, workLeft, List.map_map]
  have : (remaining p.gs s.cfg.depth ∘ fun j => WorkUnit.start (j % s.cfg.cols) (j / s.cfg.cols)) =
      fun _ => unitSteps p.gs s.cfg.depth := funext fun j => remaining_start hc.k4
  rw [this, List.map_const', List.sum_replicate, List.length_range, smul_eq_mul, dispatchSteps]

theorem dispatchSteps_pos (hc : CfgOk p s.cfg) : 0 < dispatchSteps p s.cfg :=
  Nat.mul_pos (Nat.mul_pos hc.rows hc.cols) (by unfold unitSteps; omega)

/-- A launch whose premises hold, and in which the work units alone move, delivers. -/
theorem execQlk_delivers (hgs : GsOk p.gs) (hok : LaunchOk p s) (hwf : s.mem.wf)
    (hag : UnitsMove (dispatchSteps p s.cfg) s.agenda) :
    ∃ t, execQlk p s = .next t ∧ Delivers p s t ∧ t.mem.wf := by
  have hc := hok.cfgOk
  have hff := firstFailing_none_iff.mpr ⟨hc, hok.grid⟩
  have hwork := workLeft_launch hc
  have hpos := dispatchSteps_pos hc
  obtain ⟨t, hrun, hend, hg, hdr, hsn, hagt⟩ := runDispatch_ends (fuel := dispatchFuel p (launch s)) hgs (by exact hc)
    (launch_inDispatch hgs hc hwf)
    (by
      rw [launch_cfg, hwork]
      simp only [dispatchFuel, dispatchSteps, launch_units, launch_cfg, gridUnits, List.length_map, List.length_range]
      omega)
    (by rw [launch_cfg, hwork]; exact hpos) (by rw [launch_cfg, hwork]; exact hag)
  refine ⟨t, by rw [execQlk_launch hok.notRunning hff, hrun], ?_, hend.wf⟩
  refine ⟨hend.status, ?_, hend.agree, hend.cfg_eq, hend.units, hg, hdr, hsn, ?_⟩
  · intro row col hrow hcol
    have := hend.result (idxC s.cfg.cols row col) (idxC_lt hrow hcol)
    obtain ⟨h1, h2⟩ : idxC s.cfg.cols row col / s.cfg.cols = row ∧ idxC s.cfg.cols row col % s.cfg.cols = col := by
      have hcols : 0 < s.cfg.cols := by omega
      unfold idxC
      rw [Nat.mul_comm, Nat.mul_add_div hcols, Nat.mul_add_mod, Nat.div_eq_of_lt hcol, Nat.mod_eq_of_lt hcol]
      simp
    simpa [h1, h2] using this
  · rw [hagt, launch_cfg, hwork]
    rfl

end Sys2Proof.Machine
end

