-- ==== Sys2Proof/Laws/Invariant.lean ====
section
/-!
SUPPORT. What every step of the machine keeps: the canonical form of memory from any state, and the machine's invariant,
under which no step faults.
-/

namespace Sys2Proof.Machine

/-! ### The canonical form of memory -/

theorem map_fst_ok {α β : Type} {x : Except Fault α} {b : β} {y : α × β} (h : x.map (·, b) = .ok y) : y.2 = b := by
  cases x with
  | error e => cases h
  | ok a => cases h; rfl

/-- One step of any work unit keeps the canonical form. -/
theorem unitStep_wf {p : Params} {cfg : Cfg} {m m' : Memory} {u u' : WorkUnit} (hwf : m.wf)
    (h : unitStep p cfg m u = .ok (u', m')) : m'.wf := by
  unfold unitStep at h
  split at h
  all_goals first
    | have hm : m' = m := map_fst_ok h
      rwa [hm]
    | skip
  unfold opStoreC writeElem at h
  split_ifs at h with hi
  · cases h
    exact setElem_wf hwf _ _ _ _
  · cases h

theorem tick_wf {p : Params} {pick : Nat} {s s' : State} (hwf : s.mem.wf) (h : tick p pick s = .ok s') :
    s'.mem.wf := by
  unfold tick at h
  split at h
  · cases h; simpa using hwf
  · split at h
    · cases h; simpa using hwf
    · split at h
      · cases h
      · rename_i hu
        cases h
        simpa using unitStep_wf hwf hu

theorem hostIdle_wf {hm : HostMove} {s s' : State} (hwf : s.mem.wf) (h : hostIdle hm s = .next s') : s'.mem.wf := by
  unfold hostIdle at h
  split at h
  · cases h; exact hwf
  · cases h; exact hwf
  · cases h; exact hwf
  · cases h; exact writeBytes_wf hwf _ _
  · cases h; exact hwf
  · cases h; exact hwf
  · cases h; exact hwf
  · cases h; exact hwf

theorem hostRunning_wf {ty : Ty} {hm : HostMove} {s s' : State} (hwf : s.mem.wf) (h : hostRunning ty hm s = .next s') :
    s'.mem.wf := by
  unfold hostRunning at h
  split at h
  · cases h
  · cases h
  · cases h
  · split_ifs at h; cases h; exact writeBytes_wf hwf _ _
  · cases h; exact hwf
  · cases h; exact hwf
  · cases h; exact drawElems_wf hwf _ _ _ _
  · cases h; exact drawElems_wf hwf _ _ _ _

theorem runDispatch_wf {p : Params} {fuel : Nat} {s t : State} (hwf : s.mem.wf) (h : runDispatch p fuel s = .next t) :
    t.mem.wf := by
  induction fuel generalizing s with
  | zero => cases h; exact hwf
  | succ n ih =>
    unfold runDispatch at h
    split at h
    · cases h; exact hwf
    · cases h; exact hwf
    · split at h
      · split at h
        · cases h
        · rename_i ht; exact ih (tick_wf hwf ht) h
      · split at h
        · cases h
        · rename_i ht; exact ih (tick_wf (by exact hwf) ht) h
      · cases h
      · cases h; exact hwf
      · split at h
        · rename_i hh; exact ih (hostRunning_wf (by exact hwf) hh) h
        · cases h
        · cases h

theorem execQlk_wf {p : Params} {s t : State} (hwf : s.mem.wf) (h : execQlk p s = .next t) : t.mem.wf := by
  unfold execQlk at h
  split at h
  · exact runDispatch_wf hwf h
  all_goals
    split at h
    · cases h
    · exact runDispatch_wf (by exact hwf) h

/-- What a step does: the host's move or waiting, or the execution of the selected entry point. -/
theorem step_cases {s t : State} (h : step s = .next t) :
    (s.status ≠ .running ∧ s.agenda = [] ∧ t = s) ∨
    (∃ pick rest, s.status ≠ .running ∧ s.agenda = .unit pick :: rest ∧ t = { s with agenda := rest }) ∨
    (∃ hm rest, s.status ≠ .running ∧ s.agenda = .host hm :: rest ∧ hostIdle hm { s with agenda := rest } = .next t) ∨
    (∃ g rest i, s.status ≠ .running ∧ s.agenda = .launch g :: rest ∧ decodeSel s.cfg.sel = .ok i ∧
      exec i { s with agenda := rest, grid := g } = .next t) ∨
    (∃ i, s.status = .running ∧ decodeSel s.cfg.sel = .ok i ∧ exec i s = .next t) := by
  unfold step turn at h
  cases hs : s.status with
  | running =>
    simp only [hs] at h
    split at h
    · rename_i i hi
      exact .inr (.inr (.inr (.inr ⟨i, rfl, hi, h⟩)))
    · cases h
  | idle | done =>
    simp only [hs] at h
    cases ha : s.agenda with
    | nil =>
      simp only [ha] at h
      cases h
      exact .inl ⟨by decide, rfl, rfl⟩
    | cons mv rest =>
      cases mv with
      | unit pick =>
        simp only [ha] at h
        cases h
        refine .inr (.inl ⟨pick, rest, by decide, rfl, ?_⟩)
        rw [← hs]
      | launch g =>
        simp only [ha] at h
        split at h
        · rename_i i hi
          refine .inr (.inr (.inr (.inl ⟨g, rest, i, by decide, rfl, hi, ?_⟩)))
          exact h
        · cases h
      | host hm =>
        simp only [ha] at h
        refine .inr (.inr (.inl ⟨hm, rest, by decide, rfl, ?_⟩))
        exact h

/-! ### The machine's invariant -/

/-- The invariant of a dispatch of `QLK(GS, T)`, in progress or over. -/
structure RunInv (p : Params) (s : State) : Prop where
  quiet : s.status ≠ .running → s.units = []
  running : s.status = .running → CfgOk p s.cfg ∧ UnitsOk p s.cfg s.units

theorem completeIfRetired_status {s : State} (h : s.status = .running) :
    ((completeIfRetired s).status = .running ∧ completeIfRetired s = s) ∨
      ((completeIfRetired s).status = .done ∧ (completeIfRetired s).units = []) := by
  cases hb : s.units.all (fun u => !u.live) with
  | true => right; rw [completeIfRetired_of_retired s hb]; exact ⟨rfl, rfl⟩
  | false => left; rw [completeIfRetired_of_live s hb]; exact ⟨h, rfl⟩

theorem runInv_complete {p : Params} {s : State} (h : s.status = .running) (hc : CfgOk p s.cfg)
    (hu : UnitsOk p s.cfg s.units) : RunInv p (completeIfRetired s) := by
  rcases completeIfRetired_status h with ⟨hr, he⟩ | ⟨hd, hu'⟩
  · rw [he]
    exact ⟨fun hn => absurd h hn, fun _ => ⟨hc, hu⟩⟩
  · exact ⟨fun _ => hu', fun hr => by rw [hd] at hr; cases hr⟩

/-- One move of a work unit neither faults nor breaks the invariant. -/
theorem tick_runInv {p : Params} {s : State} (hgs : GsOk p.gs) (hr : s.status = .running) (hi : RunInv p s)
    (pick : Nat) : ∃ s', tick p pick s = .ok s' ∧ RunInv p s' ∧ s'.cfg = s.cfg := by
  obtain ⟨hc, hu⟩ := hi.running hr
  rcases tick_cases hgs hc hu pick with ⟨-, he⟩ | ⟨j, u, u', m', -, -, -, -, hok, he⟩
  · exact ⟨_, he, runInv_complete hr hc hu, by simp⟩
  · exact ⟨_, he, runInv_complete (s := { s with units := s.units.set j u', mem := m' }) hr hc hok, by simp⟩

theorem hostRunning_runInv {p : Params} {ty : Ty} {hm : HostMove} {s s' : State} (hi : RunInv p s)
    (h : hostRunning ty hm s = .next s') : RunInv p s' ∧ (s'.status = .running → s'.cfg = s.cfg) := by
  unfold hostRunning at h
  split at h
  · cases h
  · cases h
  · cases h
  · split_ifs at h; cases h; exact ⟨⟨hi.quiet, hi.running⟩, fun _ => rfl⟩
  · cases h; exact ⟨hi, fun _ => rfl⟩
  · cases h; exact ⟨⟨hi.quiet, hi.running⟩, fun _ => rfl⟩
  · cases h; exact ⟨⟨fun _ => rfl, by simp⟩, by simp⟩
  · cases h; exact ⟨⟨fun _ => rfl, by simp⟩, by simp⟩

/-- A dispatch never faults, and leaves the invariant. -/
theorem runDispatch_runInv {p : Params} (hgs : GsOk p.gs) {fuel : Nat} {s : State} (hi : RunInv p s) :
    (∀ f, runDispatch p fuel s ≠ .fault f) ∧
      ∀ t, runDispatch p fuel s = .next t → RunInv p t ∧ (t.status = .running → t.cfg = s.cfg) := by
  induction fuel generalizing s with
  | zero => exact ⟨fun f h => (by cases h), fun t h => by cases h; exact ⟨hi, fun _ => rfl⟩⟩
  | succ n ih =>
    by_cases hr : s.status = .running
    · have hmove : ∀ (pick : Nat) (s0 : State), s0.status = .running → RunInv p s0 → s0.cfg = s.cfg →
          ∃ s', tick p pick s0 = .ok s' ∧ (∀ f, runDispatch p n s' ≠ .fault f) ∧
            ∀ t, runDispatch p n s' = .next t → RunInv p t ∧ (t.status = .running → t.cfg = s.cfg) := by
        intro pick s0 hr0 hi0 hc0
        obtain ⟨s', ht, hi', hcfg⟩ := tick_runInv hgs hr0 hi0 pick
        obtain ⟨h1, h2⟩ := ih hi'
        exact ⟨s', ht, h1, fun t h => ⟨(h2 t h).1, fun hs => ((h2 t h).2 hs).trans (hcfg.trans hc0)⟩⟩
      cases ha : s.agenda with
      | nil =>
        obtain ⟨s', ht, h⟩ := hmove 0 s hr hi rfl
        rw [runDispatch_empty hr ha ht]
        exact h
      | cons mv rest =>
        have hi' : RunInv p { s with agenda := rest } := ⟨hi.quiet, hi.running⟩
        cases mv with
        | unit pick =>
          obtain ⟨s', ht, h⟩ := hmove pick { s with agenda := rest } hr hi' rfl
          rw [runDispatch_pick hr ha ht]
          exact h
        | launch g =>
          have he : runDispatch p (n + 1) s = .refused .busy := by simp only [runDispatch, hr, ha]
          rw [he]
          exact ⟨fun f h => (by cases h), fun t h => by cases h⟩
        | host hm =>
          by_cases hl : hm = .look
          · subst hl
            have he : runDispatch p (n + 1) s = .next { s with agenda := rest } := by
              simp only [runDispatch, hr, ha]
            rw [he]
            exact ⟨fun f h => (by cases h), fun t h => by cases h; exact ⟨hi', fun _ => rfl⟩⟩
          · have he : runDispatch p (n + 1) s =
                (match hostRunning p.ty hm { s with agenda := rest } with
                | .next s' => runDispatch p n s'
                | .fault f => .fault f
                | .refused r => .refused r) := by
              cases hm <;> first | exact absurd rfl hl | (simp only [runDispatch, hr, ha] <;> rfl)
            rw [he]
            cases hh : hostRunning p.ty hm { s with agenda := rest } with
            | next s' =>
              obtain ⟨hinv, hcfg⟩ := hostRunning_runInv hi' hh
              obtain ⟨h1, h2⟩ := ih hinv
              refine ⟨h1, fun t h => ⟨(h2 t h).1, fun hs => ?_⟩⟩
              have hs' : s'.status = .running := by
                by_contra hcon
                dsimp only at h
                rw [runDispatch_not_running hcon] at h
                cases h
                exact hcon hs
              exact ((h2 t h).2 hs).trans (hcfg hs')
            | fault f =>
              exfalso
              unfold hostRunning at hh
              split at hh <;> first | cases hh | (split_ifs at hh)
            | refused r => exact ⟨fun f h => (by cases h), fun t h => by cases h⟩
    · rw [runDispatch_not_running hr]
      exact ⟨fun f h => (by cases h), fun t h => by cases h; exact ⟨hi, fun _ => rfl⟩⟩

/-- Execution never faults under the invariant, and leaves it. -/
theorem execQlk_runInv {p : Params} (hgs : GsOk p.gs) {s : State}
    (hi : s.status = .running → CfgOk p s.cfg ∧ UnitsOk p s.cfg s.units) :
    (∀ f, execQlk p s ≠ .fault f) ∧
      ∀ t, execQlk p s = .next t → RunInv p t ∧ (t.status = .running → t.cfg = s.cfg) := by
  by_cases hr : s.status = .running
  · rw [execQlk_running hr]
    exact runDispatch_runInv hgs ⟨fun h => absurd hr h, hi⟩
  · cases hf : firstFailing p s with
    | some r =>
      rw [execQlk_refused hr hf]
      exact ⟨fun f h => (by cases h), fun t h => by cases h⟩
    | none =>
      rw [execQlk_launch hr hf]
      obtain ⟨hc, -⟩ := firstFailing_none_iff.mp hf
      have hcount : (launch s).units.length = s.cfg.rows * s.cfg.cols := by simp [gridUnits]
      have hu : UnitsOk p (launch s).cfg (launch s).units := by
        have hwf : Memory.wf ([] : Memory) := by decide
        exact (launch_inDispatch (s := { s with mem := [] }) hgs hc hwf).units
      exact runDispatch_runInv hgs ⟨fun h => absurd rfl h, fun _ => ⟨hc, hu⟩⟩

theorem hostIdle_quiet {hm : HostMove} {s s' : State} (h : hostIdle hm s = .next s') (hs : s.status ≠ .running)
    (hu : s.units = []) : s'.status ≠ .running ∧ s'.units = [] := by
  unfold hostIdle at h
  split at h
  · cases h; exact ⟨by simp, hu⟩
  · cases h; exact ⟨by simp, hu⟩
  · cases h; exact ⟨by simp, hu⟩
  · cases h; exact ⟨hs, hu⟩
  · cases h; exact ⟨hs, hu⟩
  · cases h; exact ⟨hs, hu⟩
  · cases h; exact ⟨hs, hu⟩
  · cases h; exact ⟨by simp, rfl⟩

end Sys2Proof.Machine
end

