-- ==== Sys2Proof/Laws/PerInstr.lean ====
section
/-!
SUPPORT. Per entry point: the fields of its selector and the constants of its row (30_encoding.md R58 to R60).
-/

namespace Sys2Proof.Laws.Fields

/-- `TYPE` is bits 3 to 2 of the selector and `GSEL` bits 1 to 0; `GS = 32 << GSEL`, one of the four reference sizes; the
entry point is of bfloat16 exactly when it needs bfloat16, and without bfloat16 its selector is then refused. -/
def Statement (i : Instr) : Prop :=
  (encodeSel i).extractLsb' 2 2 = i.typeField ∧ (encodeSel i).extractLsb' 0 2 = i.gselField ∧
    i.gs = 32 <<< i.gselField.toNat ∧ i.gs ∈ [32, 64, 128, 256] ∧ i.typeField ≠ 0b11#2 ∧
    (i.ty = .bf16 ↔ i.needsBf16 = true) ∧
    (i.needsBf16 = true → decodeSelWith false (encodeSel i) = .error .noBf16)

theorem qlk32F32 : Statement .qlk32F32 := ⟨by decide, by decide, rfl, by decide, by decide, by decide, by decide⟩

theorem qlk64F32 : Statement .qlk64F32 := ⟨by decide, by decide, rfl, by decide, by decide, by decide, by decide⟩

theorem qlk128F32 : Statement .qlk128F32 := ⟨by decide, by decide, rfl, by decide, by decide, by decide, by decide⟩

theorem qlk256F32 : Statement .qlk256F32 := ⟨by decide, by decide, rfl, by decide, by decide, by decide, by decide⟩

theorem qlk32F16 : Statement .qlk32F16 := ⟨by decide, by decide, rfl, by decide, by decide, by decide, by decide⟩

theorem qlk64F16 : Statement .qlk64F16 := ⟨by decide, by decide, rfl, by decide, by decide, by decide, by decide⟩

theorem qlk128F16 : Statement .qlk128F16 := ⟨by decide, by decide, rfl, by decide, by decide, by decide, by decide⟩

theorem qlk256F16 : Statement .qlk256F16 := ⟨by decide, by decide, rfl, by decide, by decide, by decide, by decide⟩

theorem qlk32Bf16 : Statement .qlk32Bf16 := ⟨by decide, by decide, rfl, by decide, by decide, by decide, by decide⟩

theorem qlk64Bf16 : Statement .qlk64Bf16 := ⟨by decide, by decide, rfl, by decide, by decide, by decide, by decide⟩

theorem qlk128Bf16 : Statement .qlk128Bf16 := ⟨by decide, by decide, rfl, by decide, by decide, by decide, by decide⟩

theorem qlk256Bf16 : Statement .qlk256Bf16 := ⟨by decide, by decide, rfl, by decide, by decide, by decide, by decide⟩

end Sys2Proof.Laws.Fields
end

