-- ==== Sys2Proof/Laws/Rounding.lean ====
section
/-!
SUPPORT. The fields of the patterns that rounding composes, and what rounding does: it returns what the format
represents, is exact on multiples of the unit in the last place, and otherwise gives an infinity or the finite pattern of
the rounded magnitude.
-/

namespace Sys2Proof.Machine

/-! ### The fields of a pattern -/

theorem maxExpo_lt (f : Fmt) : f.maxExpo < 2 ^ f.expBits := by
  unfold Fmt.maxExpo
  have := Nat.two_pow_pos f.expBits
  omega

theorem pattern_toNat {f : Fmt} (hf : f.Proper) {mant : Nat} (hm : mant < 2 ^ (f.expBits + f.fracBits)) (neg : Bool) :
    (f.pattern neg mant).toNat = (if neg then 2 ^ (f.expBits + f.fracBits) else 0) + mant := by
  unfold Fmt.pattern
  rw [BitVec.toNat_ofNat]
  refine Nat.mod_eq_of_lt ?_
  have : 2 ^ (f.expBits + f.fracBits + 1) ≤ 2 ^ 32 := Nat.pow_le_pow_right (by norm_num) (by have := hf.2.2; omega)
  rw [Nat.pow_succ] at this
  split_ifs <;> omega

theorem sign_pattern {f : Fmt} (hf : f.Proper) {mant : Nat} (hm : mant < 2 ^ (f.expBits + f.fracBits)) (neg : Bool) :
    f.sign (f.pattern neg mant) = neg := by
  unfold Fmt.sign
  rw [pattern_toNat hf hm]
  cases neg
  · simp [Nat.div_eq_of_lt hm]
  · simp [Nat.add_div_left _ (Nat.two_pow_pos _), Nat.div_eq_of_lt hm]

theorem expo_pattern {f : Fmt} (hf : f.Proper) {mant : Nat} (hm : mant < 2 ^ (f.expBits + f.fracBits)) (neg : Bool) :
    f.expo (f.pattern neg mant) = mant / 2 ^ f.fracBits := by
  unfold Fmt.expo
  rw [pattern_toNat hf hm]
  have hlt : mant / 2 ^ f.fracBits < 2 ^ f.expBits := by
    rw [Nat.div_lt_iff_lt_mul (Nat.two_pow_pos _), ← Nat.pow_add]
    exact hm
  cases neg
  · simp [Nat.mod_eq_of_lt hlt]
  · simp only [if_true]
    rw [Nat.pow_add, Nat.mul_comm, Nat.mul_add_div (Nat.two_pow_pos _), Nat.add_mod_left, Nat.mod_eq_of_lt hlt]

theorem frac_pattern {f : Fmt} (hf : f.Proper) {mant : Nat} (hm : mant < 2 ^ (f.expBits + f.fracBits)) (neg : Bool) :
    f.frac (f.pattern neg mant) = mant % 2 ^ f.fracBits := by
  unfold Fmt.frac
  rw [pattern_toNat hf hm]
  cases neg
  · simp
  · simp only [if_true]
    rw [Nat.pow_add, Nat.mul_comm, Nat.mul_add_mod]

theorem pow_split (f : Fmt) : 2 ^ (f.expBits + f.fracBits) = 2 ^ f.expBits * 2 ^ f.fracBits := Nat.pow_add ..

/-- A pattern of the format is the pattern of its own fields. -/
theorem pattern_fields {f : Fmt} {x : Elem} (hx : x.toNat < 2 ^ (f.expBits + f.fracBits + 1)) :
    f.pattern (f.sign x) (f.expo x * 2 ^ f.fracBits + f.frac x) = x := by
  have h1 : f.expo x * 2 ^ f.fracBits + f.frac x = x.toNat % 2 ^ (f.expBits + f.fracBits) := by
    unfold Fmt.expo Fmt.frac
    rw [pow_split, Nat.mul_comm (2 ^ f.expBits), Nat.mod_mul]
    ring
  have h2 := Nat.div_add_mod x.toNat (2 ^ (f.expBits + f.fracBits))
  rw [Nat.pow_succ] at hx
  have h3 : x.toNat / 2 ^ (f.expBits + f.fracBits) < 2 := Nat.div_lt_of_lt_mul hx
  unfold Fmt.pattern Fmt.sign
  rw [h1]
  apply BitVec.eq_of_toNat_eq
  rw [BitVec.toNat_ofNat]
  have : (if (x.toNat / 2 ^ (f.expBits + f.fracBits) % 2 == 1) = true then 2 ^ (f.expBits + f.fracBits) else 0) +
      x.toNat % 2 ^ (f.expBits + f.fracBits) = x.toNat := by
    generalize x.toNat / 2 ^ (f.expBits + f.fracBits) = q at *
    obtain rfl | rfl : q = 0 ∨ q = 1 := by omega
    · simpa using h2
    · simpa using h2
  rw [this]
  exact Nat.mod_eq_of_lt x.isLt

theorem expo_lt (f : Fmt) (x : Elem) : f.expo x < 2 ^ f.expBits := Nat.mod_lt _ (Nat.two_pow_pos _)

theorem frac_lt (f : Fmt) (x : Elem) : f.frac x < 2 ^ f.fracBits := Nat.mod_lt _ (Nat.two_pow_pos _)

/-- A pattern that is neither a NaN nor an infinity has an exponent below the maximum. -/
theorem expo_lt_max {f : Fmt} {x : Elem} (hn : f.isNaN x = false) (hi : f.isInf x = false) : f.expo x < f.maxExpo := by
  have h := expo_lt f x
  have hm : f.maxExpo = 2 ^ f.expBits - 1 := rfl
  unfold Fmt.isNaN at hn
  unfold Fmt.isInf at hi
  by_cases he : f.expo x = f.maxExpo
  · simp only [he, beq_self_eq_true, Bool.true_and] at hn hi
    cases hb : f.frac x == 0 <;> simp_all
  · omega

/-- The magnitude of the pattern that rounding composes: significand `r` at exponent step `b`. -/
theorem mag_mant {f : Fmt} (hf : f.Proper) {r b : Nat} (hr : r ≤ 2 ^ (f.fracBits + 1)) (hb : 0 < b → 2 ^ f.fracBits ≤ r)
    (hm : r + b * 2 ^ f.fracBits < 2 ^ (f.expBits + f.fracBits)) (neg : Bool) :
    f.mag (f.pattern neg (r + b * 2 ^ f.fracBits)) = r * 2 ^ b := by
  unfold Fmt.mag
  rw [expo_pattern hf hm, frac_pattern hf hm, Nat.add_mul_div_right _ _ (Nat.two_pow_pos _), Nat.add_mul_mod_self_right]
  have hp := Nat.two_pow_pos f.fracBits
  rw [Nat.pow_succ] at hr
  generalize hP : 2 ^ f.fracBits = P at *
  rcases Nat.lt_or_ge r P with h | h
  · have : b = 0 := by by_contra hcon; have := hb (by omega); omega
    subst this
    simp [Nat.div_eq_of_lt h, Nat.mod_eq_of_lt h]
  · rcases Nat.lt_or_ge r (P * 2) with h2 | h2
    · have h3 : r / P = 1 := by rw [Nat.div_eq_iff hp]; constructor <;> omega
      have h4 : r % P = r - P := by
        have := Nat.div_add_mod r P
        rw [h3] at this; omega
      rw [h3, h4, if_neg (by omega), show P + (r - P) = r by omega, show 1 + b - 1 = b by omega]
    · have h3 : r = P * 2 := by omega
      subst h3
      rw [Nat.mul_div_cancel_left _ hp, Nat.mul_mod_right, if_neg (by omega), show 2 + b - 1 = b + 1 by omega,
        Nat.pow_succ]
      ring

/-- Rounding what the format represents returns it. -/
theorem roundFmt_mag {f : Fmt} (hf : f.Proper) {x : Elem} (hx : x.toNat < 2 ^ (f.expBits + f.fracBits + 1))
    (hfin : f.expo x < f.maxExpo) {u : Nat} (hu : f.lsb ≤ u) :
    roundFmt f (f.sign x) u (f.mag x * 2 ^ (u - f.lsb)) = x := by
  obtain ⟨hE, hF, -⟩ := hf
  set s := u - f.lsb with hs
  have hfr := frac_lt f x
  have hpow : 2 ^ f.expBits = 2 * 2 ^ (f.expBits - 1) := by
    conv_lhs => rw [show f.expBits = f.expBits - 1 + 1 by omega]
    rw [Nat.pow_succ, Nat.mul_comm]
  have h2 : 2 ≤ 2 ^ (f.expBits - 1) := by
    calc 2 = 2 ^ 1 := rfl
      _ ≤ 2 ^ (f.expBits - 1) := Nat.pow_le_pow_right (by norm_num) (by omega)
  have hlsb : f.lsb = 2 ^ (f.expBits - 1) - 2 + f.fracBits := rfl
  have hmax : f.maxExpo = 2 ^ f.expBits - 1 := rfl
  have hfields := pattern_fields hx
  by_cases he : f.expo x = 0
  · have hmag : f.mag x = f.frac x := by simp [Fmt.mag, he]
    have hlog : Nat.log2 (f.frac x * 2 ^ s) ≤ s + f.fracBits := by
      by_cases h0 : f.frac x * 2 ^ s = 0
      · simp [h0]
      · refine Nat.le_of_lt_succ ((Nat.log2_lt h0).mpr ?_)
        calc f.frac x * 2 ^ s < 2 ^ f.fracBits * 2 ^ s := Nat.mul_lt_mul_of_pos_right hfr (Nat.two_pow_pos _)
          _ = 2 ^ (f.fracBits + s) := (Nat.pow_add ..).symm
          _ ≤ 2 ^ (s + f.fracBits).succ := Nat.pow_le_pow_right (by norm_num) (by omega)
    have hd : f.ulp u (f.frac x * 2 ^ s) = s := by unfold Fmt.ulp; rw [← hs]; omega
    unfold roundFmt
    rw [hmag]
    dsimp only
    rw [hd, nearestEven_mul, if_neg, ← hs]
    · conv_rhs => rw [← hfields]
      simp [he]
    · rw [not_le]
      calc f.frac x * 2 ^ s < 2 ^ f.fracBits * 2 ^ s := Nat.mul_lt_mul_of_pos_right hfr (Nat.two_pow_pos _)
        _ = 2 ^ (f.fracBits + s) := (Nat.pow_add ..).symm
        _ ≤ _ := Nat.pow_le_pow_right (by norm_num) (by omega)
  · have hmag : f.mag x = (2 ^ f.fracBits + f.frac x) * 2 ^ (f.expo x - 1) := by simp [Fmt.mag, he]
    set sig := 2 ^ f.fracBits + f.frac x with hsig
    have hall : f.mag x * 2 ^ s = sig * 2 ^ (f.expo x - 1 + s) := by rw [hmag, Nat.mul_assoc, ← Nat.pow_add]
    have hlt : sig * 2 ^ (f.expo x - 1 + s) < 2 ^ (f.fracBits + 1 + (f.expo x - 1 + s)) := by
      rw [Nat.pow_add _ (f.fracBits + 1)]
      refine Nat.mul_lt_mul_of_pos_right ?_ (Nat.two_pow_pos _)
      rw [Nat.pow_succ]; omega
    have hlog : Nat.log2 (sig * 2 ^ (f.expo x - 1 + s)) = f.fracBits + (f.expo x - 1 + s) := by
      rw [Nat.log2_eq_iff]
      · refine ⟨?_, by rw [show f.fracBits + (f.expo x - 1 + s) + 1 = f.fracBits + 1 + (f.expo x - 1 + s) by omega]; exact hlt⟩
        rw [Nat.pow_add]
        exact Nat.mul_le_mul_right _ (by omega)
      · have := Nat.two_pow_pos f.fracBits
        have := Nat.two_pow_pos (f.expo x - 1 + s)
        exact Nat.mul_ne_zero (by omega) (by omega)
    have hd : f.ulp u (sig * 2 ^ (f.expo x - 1 + s)) = f.expo x - 1 + s := by
      unfold Fmt.ulp; rw [hlog, ← hs]; omega
    unfold roundFmt
    rw [hall]
    dsimp only
    rw [hd, nearestEven_mul, if_neg, ← hs]
    · conv_rhs => rw [← hfields]
      congr 1
      rw [show f.expo x - 1 + s - s = f.expo x - 1 by omega, hsig]
      conv_rhs => rw [show f.expo x = f.expo x - 1 + 1 by omega, Nat.add_mul]
      omega
    · rw [not_le]
      exact hlt.trans_le (Nat.pow_le_pow_right (by norm_num) (by omega))

/-- A pattern of the format whose fields together are below those of infinity is finite. -/
theorem finite_pattern {f : Fmt} (hf : f.Proper) {mant : Nat} (hm : mant < f.maxExpo * 2 ^ f.fracBits) (neg : Bool) :
    f.isNaN (f.pattern neg mant) = false ∧ f.isInf (f.pattern neg mant) = false := by
  have hlt : mant / 2 ^ f.fracBits < f.maxExpo := (Nat.div_lt_iff_lt_mul (Nat.two_pow_pos _)).mpr hm
  have he : (f.expo (f.pattern neg mant) == f.maxExpo) = false := by
    rw [expo_pattern hf (hm.trans maxExpo_mul_lt)]
    simp; omega
  simp [Fmt.isNaN, Fmt.isInf, he]

theorem inf_fields {f : Fmt} (hf : f.Proper) (neg : Bool) :
    f.isNaN (f.inf neg) = false ∧ f.isInf (f.inf neg) = true ∧ f.sign (f.inf neg) = neg := by
  unfold Fmt.isNaN Fmt.isInf Fmt.inf
  rw [expo_pattern hf maxExpo_mul_lt, frac_pattern hf maxExpo_mul_lt, sign_pattern hf maxExpo_mul_lt]
  simp

/-- What rounding gives: an infinity when the rounded magnitude reaches `2^(emax+1)`, else the finite pattern of
exactly the rounded magnitude. -/
theorem roundFmt_cases {f : Fmt} (hf : f.Proper) (neg : Bool) {u mag : Nat} (hu : f.lsb ≤ u) :
    (2 ^ (2 ^ (f.expBits - 1) + u) ≤ nearestEven mag (f.ulp u mag) * 2 ^ f.ulp u mag ∧
      roundFmt f neg u mag = f.inf neg) ∨
    (nearestEven mag (f.ulp u mag) * 2 ^ f.ulp u mag < 2 ^ (2 ^ (f.expBits - 1) + u) ∧
      f.isNaN (roundFmt f neg u mag) = false ∧ f.isInf (roundFmt f neg u mag) = false ∧
      f.sign (roundFmt f neg u mag) = neg ∧
      f.mag (roundFmt f neg u mag) * 2 ^ (u - f.lsb) = nearestEven mag (f.ulp u mag) * 2 ^ f.ulp u mag ∧
      f.frac (roundFmt f neg u mag) % 2 = nearestEven mag (f.ulp u mag) % 2) := by
  rcases Nat.lt_or_ge (nearestEven mag (f.ulp u mag) * 2 ^ f.ulp u mag) (2 ^ (2 ^ (f.expBits - 1) + u)) with h | h
  · right
    have hlt := mant_lt_inf hf hu h
    have hfin := finite_pattern hf hlt neg
    have hr : roundFmt f neg u mag = f.pattern neg
        (nearestEven mag (f.ulp u mag) + (f.ulp u mag - (u - f.lsb)) * 2 ^ f.fracBits) := by
      unfold roundFmt
      dsimp only
      rw [if_neg (by omega)]
    have hd : u - f.lsb ≤ f.ulp u mag := by unfold Fmt.ulp; omega
    rw [hr]
    refine ⟨h, hfin.1, hfin.2, sign_pattern hf (hlt.trans maxExpo_mul_lt) _, ?_, ?_⟩
    · rw [mag_mant hf (nearestEven_ulp_le f u mag) (fun hb => nearestEven_ulp_ge f u mag (by omega))
        (hlt.trans maxExpo_mul_lt), Nat.mul_assoc, ← Nat.pow_add,
        show f.ulp u mag - (u - f.lsb) + (u - f.lsb) = f.ulp u mag by omega]
    · rw [frac_pattern hf (hlt.trans maxExpo_mul_lt), Nat.add_mul_mod_self_right]
      have h2 : 2 ∣ 2 ^ f.fracBits := dvd_pow_self 2 (by have := hf.2.1; omega)
      exact Nat.mod_mod_of_dvd _ h2
  · left
    refine ⟨h, ?_⟩
    unfold roundFmt
    dsimp only
    rw [if_pos h]

/-- Where the magnitude is a multiple of the unit in the last place and stays below `2^(emax+1)`, rounding is exact. -/
theorem roundFmt_exact {f : Fmt} (hf : f.Proper) (neg : Bool) {u mag : Nat} (hu : f.lsb ≤ u)
    (hd : 2 ^ f.ulp u mag ∣ mag) (hlt : mag < 2 ^ (2 ^ (f.expBits - 1) + u)) :
    f.isNaN (roundFmt f neg u mag) = false ∧ f.isInf (roundFmt f neg u mag) = false ∧
      f.sign (roundFmt f neg u mag) = neg ∧ f.mag (roundFmt f neg u mag) * 2 ^ (u - f.lsb) = mag := by
  have he : nearestEven mag (f.ulp u mag) * 2 ^ f.ulp u mag = mag := by
    generalize f.ulp u mag = d at hd
    obtain ⟨c, rfl⟩ := hd
    rw [Nat.mul_comm (2 ^ d), nearestEven_mul]
  rcases roundFmt_cases hf neg (mag := mag) hu with ⟨h, -⟩ | ⟨-, h1, h2, h3, h4, -⟩
  · omega
  · exact ⟨h1, h2, h3, h4.trans he⟩

end Sys2Proof.Machine
end

