-- ==== Sys2Proof/Tests/Slice0.lean ====
section
/-!
SUPPORT. Tests: expected values are transcribed from spec/95_test_vectors.md (their ids stand in the comments) or from the
rule named. Then one witness for the hypotheses of each statement of Certificates/Slice0/Obligations.lean.
-/

namespace Sys2Proof.Tests

open Sys2Proof Sys2Proof.Machine

-- One theorem after the other: side by side, the kernel evaluations below hold more threads than the check's memory has
-- room for.
set_option Elab.async false

/-! ### Well-formedness: the ill-formed terms -/

/-- 30_encoding.md R60: without bfloat16 a BF16 entry point is ill formed, and the other eight are well formed. -/
theorem test_wellFormed_needs_bf16 :
    Instr.presentIn false .qlk32Bf16 = false ∧ Instr.presentIn false .qlk64Bf16 = false ∧
    Instr.presentIn false .qlk128Bf16 = false ∧ Instr.presentIn false .qlk256Bf16 = false ∧
    Instr.presentIn false .qlk256F16 = true ∧ Instr.presentIn true .qlk256Bf16 = true := by decide

/-! ### Decoding: words written out from 30_encoding.md R59, TYPE in bits 3 to 2, GSEL in bits 1 to 0 -/

theorem test_decode_qlk32F32 : decodeBytes [0b00000000#8] = .ok (.qlk32F32, []) := by decide
theorem test_decode_qlk64F32 : decodeBytes [0b00000001#8] = .ok (.qlk64F32, []) := by decide
theorem test_decode_qlk128F32 : decodeBytes [0b00000010#8] = .ok (.qlk128F32, []) := by decide
theorem test_decode_qlk256F32 : decodeBytes [0b00000011#8] = .ok (.qlk256F32, []) := by decide
theorem test_decode_qlk32F16 : decodeBytes [0b00000100#8] = .ok (.qlk32F16, []) := by decide
theorem test_decode_qlk64F16 : decodeBytes [0b00000101#8] = .ok (.qlk64F16, []) := by decide
theorem test_decode_qlk128F16 : decodeBytes [0b00000110#8] = .ok (.qlk128F16, []) := by decide
theorem test_decode_qlk256F16 : decodeBytes [0b00000111#8] = .ok (.qlk256F16, []) := by decide
theorem test_decode_qlk32Bf16 : decodeBytes [0b00001000#8] = .ok (.qlk32Bf16, []) := by decide
theorem test_decode_qlk64Bf16 : decodeBytes [0b00001001#8] = .ok (.qlk64Bf16, []) := by decide
theorem test_decode_qlk128Bf16 : decodeBytes [0b00001010#8] = .ok (.qlk128Bf16, []) := by decide
theorem test_decode_qlk256Bf16 : decodeBytes [0b00001011#8] = .ok (.qlk256Bf16, []) := by decide

/-- R60: the four reserved selectors, and V-L2. -/
theorem test_decode_reserved :
    decodeBytes [0b00001100#8] = .error .reservedType ∧ decodeBytes [0b00001101#8] = .error .reservedType ∧
    decodeBytes [0b00001110#8] = .error .reservedType ∧ decodeBytes [0b00001111#8] = .error .reservedType ∧
    decodeSelWith false 0b1000#4 = .error .noBf16 := by decide

/-- Log 23: no selector is wider than four bits. -/
theorem test_decode_wide : decodeBytes [0b00010000#8] = .error .notASelector ∧ decodeBytes [] = .error .notASelector := by
  decide

/-! ### Bit Unpacker -/

/-- V-U1: scenario 1, each byte alone, two asymmetric windows. -/
theorem test_unpack :
    unpackWindow 0xD0#8 0xA5#8 0xF4#8 = ⟨5#6, 10#6, 20#6, 63#6⟩ ∧ unpackWindow 0xFF#8 0x00#8 0x00#8 = ⟨48#6, 48#6, 48#6, 48#6⟩ ∧
    unpackWindow 0x00#8 0xFF#8 0x00#8 = ⟨15#6, 15#6, 0#6, 0#6⟩ ∧ unpackWindow 0x00#8 0x00#8 0xFF#8 = ⟨0#6, 0#6, 15#6, 15#6⟩ ∧
    unpackWindow 0xE4#8 0x21#8 0x43#8 = ⟨1#6, 18#6, 35#6, 52#6⟩ ∧ unpackWindow 0x5A#8 0x3C#8 0x96#8 = ⟨44#6, 35#6, 22#6, 25#6⟩ := by
  decide

/-- V-U2. -/
theorem test_pack :
    packWindow ⟨5#6, 10#6, 20#6, 63#6⟩ = (0xD0#8, 0xA5#8, 0xF4#8) ∧
    packWindow ⟨32#6, 16#6, 8#6, 4#6⟩ = (0x06#8, 0x00#8, 0x48#8) := by decide

/-- V-W1 and V-G2: window offsets and table indices, row-major (decision D4). -/
theorem test_addresses :
    winAddr 8 1 7 = 9 ∧ winAddr 36 1 32 = 51 ∧ winAddr 320 3 319 = 957 ∧ winAddr 4096 10 4095 = 33789 ∧
    idxSZ 2 0 1 = 1 ∧ idxSZ 2 1 0 = 2 ∧ idxSZ 5 3 2 = 17 := by decide

/-- V-G1, both columns of two rows. -/
theorem test_groups :
    groups 32 36 = 2 ∧ groupSize 32 36 1 = 4 ∧ groups 128 320 = 3 ∧ groupSize 128 320 2 = 64 ∧ groups 256 4 = 1 ∧
    groupSize 256 4 0 = 4 := by decide

/-! ### Numerics -/

/-- V-D9: fused, the sum would be B2000000. -/
theorem test_deq_not_fused : deq 0x3DCCCCCD#32 3#6 0xBE99999A#32 = 0x00000000#32 := by decide +kernel

/-- V-D6, V-D15, V-D16: code 0 and signed zeros. -/
theorem test_deq_zeros :
    deq 0x00000000#32 17#6 0x80000000#32 = 0x00000000#32 ∧ deq 0x3F800000#32 0#6 0x80000000#32 = 0x00000000#32 ∧
    deq 0xBF800000#32 0#6 0x40A00000#32 = 0x40A00000#32 := by decide +kernel

/-- V-N4: rounding, overflow, subnormal ties, the invalid product. -/
theorem test_fmul :
    fmul 0x3DCCCCCD#32 0x40400000#32 = 0x3E99999A#32 ∧ fmul 0x7F7FFFFF#32 0x427C0000#32 = 0x7F800000#32 ∧
    fmul 0x00800001#32 0x3F000000#32 = 0x00400000#32 ∧ fmul 0x00800003#32 0x3F000000#32 = 0x00400002#32 ∧
    fmul 0x7F800000#32 0x00000000#32 = 0x7FC00000#32 := by decide +kernel

/-- V-N5: ties, absorption, overflow by a tie, the invalid sum. -/
theorem test_fadd :
    fadd 0x4B800000#32 0x3F800000#32 = 0x4B800000#32 ∧ fadd 0x4B800000#32 0x40400000#32 = 0x4B800002#32 ∧
    fadd 0x7F7FFFFF#32 0x73000000#32 = 0x7F800000#32 ∧ fadd 0x7F7FFFFF#32 0x72FFFFFF#32 = 0x7F7FFFFF#32 ∧
    fadd 0x3E99999A#32 0xBE99999A#32 = 0x00000000#32 ∧ fadd 0x7F800000#32 0xFF800000#32 = 0x7FC00000#32 := by
  decide +kernel

/-- V-N2. -/
theorem test_cvtIn :
    cvtIn .f16 0x03FF#32 = 0x387FC000#32 ∧ cvtIn .f16 0x8001#32 = 0xB3800000#32 ∧ cvtIn .f16 0xFE01#32 = 0x7FC00000#32 ∧
    cvtIn .bf16 0x007F#32 = 0x007F0000#32 ∧ cvtIn .bf16 0x7F81#32 = 0x7FC00000#32 ∧
    cvtIn .f32 0x7FA00001#32 = 0x7FC00000#32 := by decide +kernel

/-- V-N3: the ties and ends of the two casts. -/
theorem test_cvtOut :
    cvtOut .f16 0x477FEFFF#32 = 0x7BFF#32 ∧ cvtOut .f16 0x477FF000#32 = 0x7C00#32 ∧
    cvtOut .f16 0x33000000#32 = 0x0000#32 ∧ cvtOut .f16 0x33000001#32 = 0x0001#32 ∧
    cvtOut .f16 0x387FE000#32 = 0x0400#32 ∧ cvtOut .bf16 0x3F808000#32 = 0x3F80#32 ∧
    cvtOut .bf16 0x3F818000#32 = 0x3F82#32 ∧ cvtOut .bf16 0x7F7F8000#32 = 0x7F80#32 ∧
    cvtOut .bf16 0xFFC12345#32 = 0x7FC0#32 := by decide +kernel

/-! ### Scenario 1 (X1, program P1) under every entry point, one step of the machine each -/

/-- A memory that holds these runs of bytes. -/
def memOf (runs : List (Nat × List Byte)) : Memory := runs.foldl (fun m r => Memory.writeBytes m r.1 r.2) []

/-- The buffers of scenario 1: A at 0, B at 16, S at 20, Z at 24, the descriptor at 28, and at 40 what C holds before. -/
def scenarioMem (ty : Ty) : Memory :=
  let rest : List (Nat × List Byte) :=
    [(16, [0xD0, 0xA5, 0xF4]), (28, [1, 0, 0, 0, 4, 0, 0, 0, 1, 0, 0, 0]), (40, [0xEE, 0xEE])]
  match ty with
  | .f32 =>
    memOf ([(0, [0, 0, 0x80, 0x3F, 0, 0, 0, 0x40, 0, 0, 0x40, 0x40, 0, 0, 0x80, 0x40]), (20, [0, 0, 0, 0x40]),
      (24, [0, 0, 0x80, 0x3F])] ++ rest)
  | .f16 => memOf ([(0, [0, 0x3C, 0, 0x40, 0, 0x42, 0, 0x44]), (20, [0, 0x40]), (24, [0, 0x3C])] ++ rest)
  | .bf16 => memOf ([(0, [0x80, 0x3F, 0, 0x40, 0x40, 0x40, 0x80, 0x40]), (20, [0, 0x40]), (24, [0x80, 0x3F])] ++ rest)

/-- Scenario 1 configured for an entry point, nothing launched yet. -/
def scenario (i : Instr) : State :=
  { State.reset with cfg := smallestCfg (encodeSel i), mem := scenarioMem i.ty, grid := ⟨1, 1⟩ }

/-- Scenario 1 with these moves to come. -/
def scenarioWith (i : Instr) (agenda : List Move) : State := { scenario i with agenda := agenda }

/-- STATUS and the element of C after an outcome. -/
def endOf (ty : Ty) (o : Host.Outcome State Fault Refusal) : Option (Status × Elem) :=
  match o with
  | .next t => some (t.status, t.mem.elemAt ty ⟨40, 1⟩ 0)
  | .fault _ => none
  | .refused _ => none

/-- The name an outcome is refused under. -/
def refusalOf (o : Host.Outcome State Fault Refusal) : Option Refusal :=
  match o with
  | .next _ => none
  | .fault _ => none
  | .refused r => some r

/-- Scenario 1 launched and run to its end in one step. -/
def runScenario (i : Instr) : Option (Status × Elem) := endOf i.ty (step (scenarioWith i [.launch ⟨1, 1⟩]))

theorem test_qlk32F32 : runScenario .qlk32F32 = some (.done, 0x442B0000#32) := by decide +kernel
theorem test_qlk64F32 : runScenario .qlk64F32 = some (.done, 0x442B0000#32) := by decide +kernel
theorem test_qlk128F32 : runScenario .qlk128F32 = some (.done, 0x442B0000#32) := by decide +kernel
theorem test_qlk256F32 : runScenario .qlk256F32 = some (.done, 0x442B0000#32) := by decide +kernel
theorem test_qlk32F16 : runScenario .qlk32F16 = some (.done, 0x6158#32) := by decide +kernel
theorem test_qlk64F16 : runScenario .qlk64F16 = some (.done, 0x6158#32) := by decide +kernel
theorem test_qlk128F16 : runScenario .qlk128F16 = some (.done, 0x6158#32) := by decide +kernel
theorem test_qlk256F16 : runScenario .qlk256F16 = some (.done, 0x6158#32) := by decide +kernel
theorem test_qlk32Bf16 : runScenario .qlk32Bf16 = some (.done, 0x442B#32) := by decide +kernel
theorem test_qlk64Bf16 : runScenario .qlk64Bf16 = some (.done, 0x442B#32) := by decide +kernel
theorem test_qlk128Bf16 : runScenario .qlk128Bf16 = some (.done, 0x442B#32) := by decide +kernel
theorem test_qlk256Bf16 : runScenario .qlk256Bf16 = some (.done, 0x442B#32) := by decide +kernel

/-- V-R5: the order of the additions (42_reduce.md R91). A at 0 becomes 2^24, 1, 1, -2^24; codes, scale and zero-point
1, 1, 0. -/
theorem test_order_of_additions :
    endOf .f32 (exec .qlk32F32 { scenario .qlk32F32 with
      mem := memOf [(0, [0, 0, 0x80, 0x4B, 0, 0, 0x80, 0x3F, 0, 0, 0x80, 0x3F, 0, 0, 0x80, 0xCB]),
        (16, [0x00, 0x11, 0x11]), (20, [0, 0, 0x80, 0x3F])] }) = some (.done, 0x00000000#32) := by decide +kernel

/-- V-R7: the accumulator starts at `+0.0`. -/
theorem test_start_value :
    endOf .f32 (exec .qlk32F32 { scenario .qlk32F32 with
      mem := memOf [(0, [0, 0, 0, 0x80, 0, 0, 0, 0x80, 0, 0, 0, 0x80, 0, 0, 0, 0x80]), (16, [0x00, 0x55, 0x55]),
        (20, [0, 0, 0x80, 0x3F])] }) = some (.done, 0x00000000#32) := by decide +kernel

/-! ### LAUNCH premises -/

/-- V-L1, V-L10. -/
theorem test_refused_selector_and_busy :
    refusalOf (step { scenarioWith .qlk32F32 [.launch ⟨1, 1⟩] with cfg := smallestCfg 0b1100#4 }) =
      some .unsupportedSelector ∧
    refusalOf (step { scenarioWith .qlk32F32 [.launch ⟨1, 1⟩] with status := .running, units := [WorkUnit.start 0 0] }) =
      some .busy := by decide +kernel

/-- Scenario 1 with other sizes. -/
def withSizes (m k n : Nat) : State :=
  { scenario .qlk32F32 with
    cfg := { smallestCfg 0b0000#4 with m := BitVec.ofNat 32 m, k := BitVec.ofNat 32 k, n := BitVec.ofNat 32 n }
    grid := ⟨n, m⟩ }

/-- V-L3, V-L4, and the nearest accepted. -/
theorem test_refused_sizes :
    firstFailing ⟨32, .f32⟩ (withSizes 1 6 1) = some .kNotMultipleOf4 ∧
    firstFailing ⟨32, .f32⟩ (withSizes 1 0 1) = some .emptyOrOversizeDimension ∧
    firstFailing ⟨32, .f32⟩ (withSizes 0 4 1) = some .emptyOrOversizeDimension ∧
    firstFailing ⟨32, .f32⟩ (withSizes 1 4 0) = some .emptyOrOversizeDimension ∧
    firstFailing ⟨32, .f32⟩ (withSizes 1 4 1) = none := by decide +kernel

/-- V3 (R151): a size of 2^32 is refused at the LAUNCH, and not when the host has written the sizes again before it (R153). -/
theorem test_oversize_refused_at_launch :
    let s := scenarioWith .qlk32F32 [.launch ⟨1, 1⟩]
    refusalOf (step { s with cfg := writeSizes s.cfg 1 4294967296 1 }) = some .emptyOrOversizeDimension ∧
    endOf .f32 (step { s with cfg := writeSizes (writeSizes s.cfg 1 4294967296 1) 1 4 1 }) =
      some (.done, 0x442B0000#32) := by decide +kernel

/-- R100: a view longer than required is legal, the descriptor's too. -/
theorem test_long_descriptor_accepted :
    firstFailing ⟨32, .f32⟩ { scenario .qlk32F32 with cfg := { smallestCfg 0b0000#4 with
      bind := (smallestCfg 0b0000#4).bind.set .desc ⟨60, 5⟩ } } = none := by decide +kernel

/-- The state of V-L6 to V-L9: (2, 8, 2) with these view lengths, and C at this address. -/
def withLengths (a b c : Nat) (cBase : Nat) : State :=
  { State.reset with
    cfg := { sel := 0b0100#4, m := 2#32, k := 8#32, n := 2#32, oversize := false, bind :=
      { a := some ⟨0, a⟩, b := some ⟨100, b⟩, s := some ⟨120, 2⟩, z := some ⟨120, 2⟩, desc := some ⟨140, 3⟩
        c := some ⟨cBase, c⟩ } }
    grid := ⟨2, 2⟩ }

/-- V-L6 to V-L9 with S and Z in the same array throughout, which is accepted. -/
theorem test_refused_views :
    firstFailing ⟨32, .f16⟩ (withLengths 16 11 4 160) = some .shortBuffer ∧
    firstFailing ⟨32, .f16⟩ (withLengths 15 12 4 160) = some .shortBuffer ∧
    firstFailing ⟨32, .f16⟩ (withLengths 16 12 3 160) = some .shortBuffer ∧
    firstFailing ⟨32, .f16⟩ (withLengths 16 12 4 0) = some .outputAliasesInput ∧
    firstFailing ⟨32, .f16⟩ (withLengths 16 12 7 160) = none := by decide +kernel

/-- V-L5: G·N = 4 entries needed under GS = 32, 2 under GS = 64; and a grid that is not N × M (V7). -/
theorem test_refused_table_and_grid :
    firstFailing ⟨32, .f32⟩ { withSizes 1 36 2 with cfg := { (withSizes 1 36 2).cfg with bind :=
      { a := some ⟨0, 36⟩, b := some ⟨200, 54⟩, s := some ⟨300, 2⟩, z := some ⟨320, 2⟩, desc := some ⟨340, 3⟩,
        c := some ⟨360, 2⟩ } } } = some .shortTable ∧
    firstFailing ⟨64, .f32⟩ { withSizes 1 36 2 with cfg := { (withSizes 1 36 2).cfg with bind :=
      { a := some ⟨0, 36⟩, b := some ⟨200, 54⟩, s := some ⟨300, 2⟩, z := some ⟨320, 2⟩, desc := some ⟨340, 3⟩,
        c := some ⟨360, 2⟩ } } } = none ∧
    firstFailing ⟨32, .f32⟩ { scenario .qlk32F32 with grid := ⟨2, 1⟩ } = some .gridMismatch := by decide +kernel

/-! ### Witnesses: states and operands that meet the hypotheses of the statements -/

theorem scenario_launchOk (i : Instr) (agenda : List Move) : LaunchOk ⟨i.gs, i.ty⟩ (scenarioWith i agenda) := by
  have h : firstFailing ⟨i.gs, i.ty⟩ (scenarioWith i []) = none := by cases i <;> decide +kernel
  have h' : firstFailing ⟨i.gs, i.ty⟩ (scenarioWith i agenda) = none := h
  have := firstFailing_none_iff.mp h'
  exact ⟨by simp [scenarioWith, scenario, State.reset], this.1, this.2⟩

theorem scenario_wf (i : Instr) (agenda : List Move) : (scenarioWith i agenda).mem.wf := by
  have h : (scenarioMem i.ty).wf := by cases i <;> decide +kernel
  exact h

/-- Scenario 1 with its one unit at its start. -/
def midRun (i : Instr) (agenda : List Move) : State :=
  { scenarioWith i agenda with status := .running, units := [WorkUnit.start 0 0] }

theorem unitsMove_picks (n : Nat) (picks : List Nat) : UnitsMove n (picks.map .unit) := by
  intro mv h
  obtain ⟨pick, -, rfl⟩ := List.mem_map.mp (List.mem_of_mem_take h)
  exact ⟨pick, rfl⟩

theorem midRun_inv (i : Instr) (agenda : List Move) : (midRun i agenda).Inv := by
  refine ⟨scenario_wf i [], fun h => absurd rfl h, fun _ => ⟨i, ?_, (scenario_launchOk i []).cfgOk, ?_⟩⟩
  · have : decodeSel (encodeSel i) = .ok i := by cases i <;> decide
    exact this
  · have hrows : (midRun i agenda).cfg.rows = 1 := rfl
    have hcols : (midRun i agenda).cfg.cols = 1 := rfl
    have hdepth : (midRun i agenda).cfg.depth = 4 := rfl
    refine ⟨by rw [hrows, hcols]; rfl, ?_, ?_⟩
    · intro j u h
      match j with
      | 0 =>
        cases h
        rw [hcols]
        exact ⟨rfl, rfl⟩
      | j + 1 => cases h
    · intro u hu
      obtain rfl := List.mem_singleton.mp hu
      rw [hdepth]
      have hg : 0 < groups i.gs 4 := by cases i <;> decide
      exact ⟨hg, by simp [WorkUnit.start], by decide⟩

theorem witness_stepRunsSelectedEntryPoint :
    decodeSel (scenario .qlk64Bf16).cfg.sel = .ok .qlk64Bf16 ∧
    (midRun .qlk64Bf16 []).status = .running ∧ (midRun .qlk64Bf16 []).cfg = (scenario .qlk64Bf16).cfg ∧
    (scenarioWith .qlk64Bf16 [.launch ⟨1, 1⟩]).status ≠ .running := by decide

theorem witness_selectorRoundTrip :
    decodeSelWith true 0b1011#4 = .ok .qlk256Bf16 ∧ decodeSelWith false 0b0000#4 = .ok .qlk32F32 ∧
    Instr.wellFormed .qlk256Bf16 = true := by decide

theorem witness_reservedSelectorRefused :
    let s := { scenarioWith .qlk32F32 [.launch ⟨1, 1⟩] with cfg := smallestCfg 0b1101#4 }
    s.status ≠ .running ∧ s.agenda = [.launch ⟨1, 1⟩] ∧ s.cfg.sel.extractLsb' 2 2 = 0b11#2 := by decide

/-- Each clause: a selector, the largest sizes, the first size too large, a bind; at DONE as well as IDLE. -/
theorem witness_cfgWritesReturnToIdle :
    let s := fun h => { scenarioWith .qlk32F32 [.host h] with status := .done }
    (s (.writeSel 3#4)).status ≠ .running ∧ (s (.writeSel 3#4)).agenda = [.host (.writeSel 3#4)] ∧
    (4294967295 < 2 ^ 32 ∧ (s (.writeSize 4294967295 4 1)).agenda = [.host (.writeSize 4294967295 4 1)]) ∧
    (2 ^ 32 ≤ 4294967296 ∧ (s (.writeSize 1 4294967296 1)).agenda = [.host (.writeSize 1 4294967296 1)]) ∧
    (s (.bind .c ⟨40, 1⟩)).agenda = [.host (.bind .c ⟨40, 1⟩)] := by decide

/-- Each clause; the store of two bytes has a byte inside at each end of its range and a neighbour outside. -/
theorem witness_hostMovesOutsideDispatch :
    let s := fun h => scenarioWith .qlk32F32 [.host h]
    (s .look).status ≠ .running ∧ (s (.store 5 [1, 2])).agenda = [.host (.store 5 [1, 2])] ∧
    (0 < [1#8, 2#8].length ∧ 1 < [1#8, 2#8].length ∧ 4 < 5 ∧ 5 + [1#8, 2#8].length ≤ 7) ∧
    (s .look).agenda = [.host .look] ∧ (s .readC).agenda = [.host .readC] ∧ (s .abort).agenda = [.host .abort] ∧
    (s .reset).agenda = [.host .reset] ∧ (scenario .qlk32F32).agenda = [] ∧
    decodeSel (s .readC).cfg.sel = .ok .qlk32F32 ∧
    (s .readC).cfg.rows * (s .readC).cfg.cols ≤ slotLen (s .readC).cfg.bind.c := by decide

/-- A unit in the middle of scenario 1 with every register written. -/
def midUnit : WorkUnit :=
  { WorkUnit.start 0 0 with
    s := some 0x40000000#32, z := some 0x3F800000#32, b0 := some 0xD0#8, b1 := some 0xA5#8, b2 := some 0xF4#8
    w0 := some 5#6, w1 := some 10#6, w2 := some 20#6, w3 := some 63#6, phase := .active, op := .loadWin }

/-- The last byte of the window is the view's last byte, and the first byte beyond it; a position that is a multiple of 4. -/
theorem witness_loadWinReadsWindow :
    (smallestCfg 0#4).bind.b = some ⟨16, 3⟩ ∧ midUnit.gx.toNat * (3 * 4 / 4) + 3 * (midUnit.k / 4) + 2 < 3 ∧
    ({ smallestCfg 0#4 with bind := (smallestCfg 0#4).bind.set .b ⟨16, 2⟩ }).bind.b = some ⟨16, 2⟩ ∧
    2 ≤ midUnit.gx.toNat * (3 * 4 / 4) + 3 * (midUnit.k / 4) + 2 ∧ midUnit.k % 4 = 0 := by decide

/-- The last entry of a one-entry table, and the first index beyond each of the two. -/
theorem witness_fetchSZLoadsGroup :
    (smallestCfg 0#4).bind.s = some ⟨20, 1⟩ ∧ (smallestCfg 0#4).bind.z = some ⟨24, 1⟩ ∧
    midUnit.kb * 1 + midUnit.gx.toNat < 1 ∧
    (let late : WorkUnit := { midUnit with kb := 1 }
     1 ≤ late.kb * 1 + late.gx.toNat) := by decide

/-- The three ways the loop tests lead, K = 36 and GS = 32: at `c = 28` one more stride, at `c = 32` the next group, and in
the last group at `k = 36` STOREC; each at the first counter value of its way. -/
theorem witness_testsLead :
    TestsLead 32 36 0 { midUnit with c := 28, k := 28, kb := 0, op := .loadWin } ∧
    TestsLead 32 36 0 { midUnit with c := 32, k := 32, kb := 1, op := .fetchSZ } ∧
    TestsLead 32 36 1 { midUnit with c := 4, k := 36, kb := 1, op := .storeC } := by
  refine ⟨⟨?_, ?_, ?_⟩, ⟨?_, ?_, ?_⟩, ⟨?_, ?_, ?_⟩⟩ <;> decide

/-- All three window registers written, and each of them unwritten in turn. -/
theorem witness_unpackWritesCodes :
    (midUnit.b0 = some 0xD0#8 ∧ midUnit.b1 = some 0xA5#8 ∧ midUnit.b2 = some 0xF4#8) ∧
    (WorkUnit.start 0 0).b0 = none ∧ ({ midUnit with b1 := none } : WorkUnit).b1 = none ∧
    ({ midUnit with b2 := none } : WorkUnit).b2 = none := by decide

/-- Lanes 0 and 3 with every register written, the last index inside the view and the first beyond it. -/
theorem witness_macAccumulates :
    (smallestCfg 0#4).bind.a = some ⟨0, 4⟩ ∧ midUnit.s = some 0x40000000#32 ∧ midUnit.z = some 0x3F800000#32 ∧
    midUnit.code 0 = some 5#6 ∧ midUnit.code 3 = some 63#6 ∧ midUnit.gy.toNat * 4 + (midUnit.k + 3) < 4 ∧
    (WorkUnit.start 0 0).s = none ∧ (WorkUnit.start 0 0).z = none ∧ (WorkUnit.start 0 0).code 3 = none ∧
    (WorkUnit.start 0 0).gy.toNat * 4 + ((WorkUnit.start 0 0).k + 3) < 4 ∧
    (let late : WorkUnit := { midUnit with k := 4 }
     4 ≤ late.gy.toNat * 4 + (late.k + 0)) := by decide

/-- The last element of the view, and the first index beyond it. -/
theorem witness_storeCWritesOneElement :
    (smallestCfg 0#4).bind.c = some ⟨40, 1⟩ ∧ (scenarioMem .f32).wf ∧ midUnit.gy.toNat * 1 + midUnit.gx.toNat < 1 ∧
    (let far : WorkUnit := { midUnit with gx := 1#32 }
     1 ≤ far.gy.toNat * 1 + far.gx.toNat) := by decide +kernel

theorem witness_onlyStoreCWritesMemory :
    ∃ u' m', unitStep ⟨32, .f32⟩ (smallestCfg 0#4) (scenarioMem .f32) midUnit = .ok (u', m') ∧ midUnit.op ≠ .storeC :=
  ⟨{ midUnit with op := .unpack }, scenarioMem .f32, by decide +kernel, by decide⟩

theorem gsOk_32 : GsOk 32 := by unfold GsOk; decide

theorem witness_unitSequenceInvariant :
    GsOk 32 ∧ CfgOk ⟨32, .f32⟩ (scenario .qlk32F32).cfg ∧ midUnit.gx.toNat < (scenario .qlk32F32).cfg.cols ∧
    midUnit.gy.toNat < (scenario .qlk32F32).cfg.rows ∧ midUnit.phase ≠ .retired ∧
    SeqOk 32 (scenario .qlk32F32).cfg.depth midUnit :=
  ⟨gsOk_32, (scenario_launchOk .qlk32F32 []).cfgOk, by decide, by decide, by decide, by
    simp only [SeqOk, midUnit, WorkUnit.start]; decide⟩

theorem witness_workUnitRetiresWithItsValue :
    GsOk 32 ∧ CfgOk ⟨32, .f32⟩ (scenario .qlk32F32).cfg ∧ (scenario .qlk32F32).mem.wf ∧
    0 < (scenario .qlk32F32).cfg.rows ∧ 0 < (scenario .qlk32F32).cfg.cols :=
  ⟨gsOk_32, (scenario_launchOk .qlk32F32 []).cfgOk, scenario_wf .qlk32F32 [], by decide, by decide⟩

/-- K = 36 under GS = 32 (a full and a short group), and K = 4 (one group). -/
theorem witness_groupSizes :
    (0 < 32 ∧ 0 < 36 ∧ 0 + 1 < groups 32 36 ∧ 32 % 4 = 0 ∧ 36 % 4 = 0 ∧ 32 % 4 = 0 ∧ 3 < 4) ∧ (0 < 4 ∧ 4 ≤ 32) := by
  decide

/-- A NaN, an infinity, a subnormal and a number of binary16. -/
theorem witness_cvtInIsExact :
    (0xFE01#32 : Elem).toNat < 256 ^ Ty.f16.bytes ∧ (fmtOf .f16).isNaN 0xFE01#32 = true ∧
    (fmtOf .f16).isNaN 0xFC00#32 = false ∧ (fmtOf .f16).isInf 0xFC00#32 = true ∧
    (fmtOf .f16).isNaN 0x8001#32 = false ∧ (fmtOf .f16).isInf 0x8001#32 = false := by decide

/-- Code 1 and code 63 at the ends of the ranges of `h`. -/
theorem witness_u2fIsExact :
    2 ^ 0 ≤ (1#6 : Code).toNat ∧ (1#6 : Code).toNat < 2 ^ 1 ∧ 2 ^ 5 ≤ (63#6 : Code).toNat ∧ (63#6 : Code).toNat < 2 ^ 6 := by
  decide

theorem witness_addingZeroChangesNothing :
    binary32.isZero 0x80000000#32 = true ∧ binary32.isZero 0x00000000#32 = true ∧
    binary32.isZero 0x00000001#32 = false ∧ binary32.isNaN 0x00000001#32 = false := by decide

/-- V-N3's tie 2051 between 2050 and 2052, in units of 2^(-149): the neighbour 2050 (0x6801) is equally near. -/
theorem witness_roundingIsNearestEven :
    (fmtOf .f16).lsb ≤ 149 ∧ (fmtOf .f16).isInf (roundFmt (fmtOf .f16) false 149 (2051 * 2 ^ 149)) = false ∧
    (0x6801#32 : Elem).toNat < 256 ^ Ty.f16.bytes ∧ (fmtOf .f16).isNaN 0x6801#32 = false ∧
    (fmtOf .f16).isInf 0x6801#32 = false ∧ (fmtOf .f16).mag 0x6801#32 = 2050 * 2 ^ 24 ∧
    roundFmt (fmtOf .f16) false 149 (2051 * 2 ^ 149) = 0x6802#32 := by decide +kernel

/-- Both sides of the threshold of binary16: 65520 and the next magnitude below it. -/
theorem witness_overflowThreshold :
    (fmtOf .f16).lsb ≤ 149 ∧ (fmtOf .f16).isInf (roundFmt (fmtOf .f16) true 149 (65520 * 2 ^ 149)) = true ∧
    (fmtOf .f16).isInf (roundFmt (fmtOf .f16) true 149 (65520 * 2 ^ 149 - 1)) = false := by decide +kernel

/-- Each clause: an infinity and a number of the other sign; a zero and a number; two numbers whose product, and two whose
sum, is a tie; the least and the first overflowing; the smallest operands, whose product rounds to zero. -/
theorem witness_fmulIsCorrectlyRounded :
    (binary32.isNaN 0x7F800000#32 = false ∧ binary32.isInf 0x7F800000#32 = true ∧ binary32.isZero 0xBF000000#32 = false) ∧
    (binary32.isZero 0x80000000#32 = true ∧ binary32.isInf 0x00000001#32 = false) ∧
    (binary32.isInf 0x3F800001#32 = false ∧ binary32.isZero 0x3FC00000#32 = false ∧
      binary32.isInf (fmul 0x3F800001#32 0x3FC00000#32) = false ∧ fmul 0x3F800001#32 0x3FC00000#32 = 0x3FC00002#32) ∧
    (2 ^ 25 - 1) * 2 ^ (103 + 298) ≤ binary32.mag 0x7F7FFFFF#32 * binary32.mag 0x427C0000#32 ∧
    fmul 0x7F7FFFFF#32 0x427C0000#32 = 0x7F800000#32 ∧ fmul 0x80000001#32 0x00000001#32 = 0x80000000#32 := by
  decide +kernel

/-- Each clause: infinities of one sign; zeros of both signs; R134's exact cancellation; its tie `2^24 + 1`, whose other
neighbour `2^24 + 2` is equally near. -/
theorem witness_faddIsCorrectlyRounded :
    (binary32.isInf 0xFF800000#32 = true ∧ binary32.sign 0xFF800000#32 = binary32.sign 0xFF800000#32) ∧
    (binary32.isZero 0x80000000#32 = true ∧ binary32.isZero 0x00000000#32 = true) ∧
    (binary32.isZero 0x3E99999A#32 = false ∧ signedMag 0x3E99999A#32 + signedMag 0xBE99999A#32 = 0) ∧
    signedMag 0x4B800000#32 + signedMag 0x3F800000#32 = (2 ^ 24 + 1) * 2 ^ 149 ∧
    fadd 0x4B800000#32 0x3F800000#32 = 0x4B800000#32 ∧ binary32.mag 0x4B800001#32 = (2 ^ 24 + 2) * 2 ^ 149 ∧
    (2 ^ 25 - 1) * 2 ^ (103 + 149) ≤ (signedMag 0x7F7FFFFF#32 + signedMag 0x7F7FFFFF#32).natAbs := by
  decide +kernel

/-- The tie 2051 between 2050 and 2052 (V-N3), the last operand below 65520, and a zero. -/
theorem witness_f16CastIsNearestEven :
    binary32.isNaN 0x45003000#32 = false ∧ binary32.mag 0x45003000#32 = 2051 * 2 ^ binary32.lsb ∧
    cvtOut .f16 0x45003000#32 = 0x6802#32 ∧ binary32.mag 0x477FEFFF#32 < 65520 * 2 ^ binary32.lsb ∧
    binary32.mag 0x80000000#32 = 0 := by decide +kernel

/-- No NaN: a tie on an odd upper half, one on an even upper half, and above the tie (V-N3). -/
theorem witness_bf16CastBitForm :
    binary32.isNaN 0x3F818000#32 = false ∧ binary32.isNaN 0x3F808000#32 = false ∧
    binary32.isNaN 0x43808001#32 = false := by decide

/-- 65520 and just below it, 2^-25 and just above it (V-N3). -/
theorem witness_f16CastEnds :
    binary32.isNaN 0x477FF000#32 = false ∧ 65520 * 2 ^ binary32.lsb ≤ binary32.mag 0x477FF000#32 ∧
    binary32.mag 0x477FEFFF#32 < 65520 * 2 ^ binary32.lsb ∧
    binary32.mag 0x33000000#32 ≤ 2 ^ (binary32.lsb - 25) ∧ 2 ^ (binary32.lsb - 25) < binary32.mag 0x33000001#32 := by
  decide +kernel

theorem witness_storageRoundTrip :
    (0x7BFF#32 : Elem).toNat < 256 ^ Ty.f16.bytes ∧ (fmtOf .f16).isNaN 0x7BFF#32 = false ∧
    (0xFF80#32 : Elem).toNat < 256 ^ Ty.bf16.bytes ∧ (fmtOf .bf16).isNaN 0xFF80#32 = false := by decide

/-- A NaN from operands of which none is one, and NaN operands with other payloads. -/
theorem witness_naNIsCanonical :
    binary32.isNaN (cvtIn .f32 0xFFFFFFFF#32) = true ∧ binary32.isNaN (fmul 0x7F800000#32 0x00000000#32) = true ∧
    binary32.isNaN (fadd 0x7F800000#32 0xFF800000#32) = true ∧ binary32.isNaN (cvtOut .f32 0xFFC12345#32) = true ∧
    binary16.isNaN (cvtOut .f16 0xFFC12345#32) = true ∧ bfloat16.isNaN (cvtOut .bf16 0xFFC12345#32) = true ∧
    (fmtOf .bf16).isNaN 0x7F81#32 = true ∧ binary32.isNaN 0xFFC12345#32 = true ∧ binary32.isInf 0x7F800000#32 = true ∧
    binary32.isZero 0x80000000#32 = true ∧ binary32.isInf 0xFF800000#32 = true ∧
    binary32.sign 0x7F800000#32 ≠ binary32.sign 0xFF800000#32 := by decide

/-- V-D15 (the exception) and V-D16. -/
theorem witness_codeZeroGivesZeroPoint :
    binary32.isNaN 0x3F800000#32 = false ∧ binary32.isInf 0x3F800000#32 = false ∧ binary32.isNaN 0x80000000#32 = false ∧
    binary32.isNaN 0xBF800000#32 = false ∧ binary32.isInf 0xBF800000#32 = false ∧ binary32.isNaN 0x40A00000#32 = false := by
  decide

theorem witness_launchCreatesGrid :
    ∃ s : State, LaunchOk ⟨32, .f32⟩ s ∧ s.agenda = [.host .look] :=
  ⟨scenarioWith .qlk32F32 [.host .look], scenario_launchOk .qlk32F32 _, rfl⟩

/-- For each of the twelve entry points: the premises hold, memory is canonical, and the picks on the agenda, of which
none names the one unit by its number, let the units alone move. -/
theorem witness_entryPointsDeliver (i : Instr) :
    ∃ s, LaunchOk ⟨i.gs, i.ty⟩ s ∧ s.mem.wf ∧ UnitsMove (dispatchSteps ⟨i.gs, i.ty⟩ s.cfg) s.agenda ∧
      s.agenda = [.unit 7, .unit 3] :=
  ⟨scenarioWith i [.unit 7, .unit 3], scenario_launchOk i _, scenario_wf i _, unitsMove_picks _ [7, 3], rfl⟩

theorem witness_f32EntryPoint : (Instr.qlk256F32, 256) ∈ [(Instr.qlk32F32, 32), (Instr.qlk64F32, 64),
    (Instr.qlk128F32, 128), (Instr.qlk256F32, 256)] ∧ Instr.gs .qlk256F32 = 256 ∧ Instr.ty .qlk256F32 = .f32 := by decide

theorem witness_f16EntryPoint : (Instr.qlk32F16, 32) ∈ [(Instr.qlk32F16, 32), (Instr.qlk64F16, 64),
    (Instr.qlk128F16, 128), (Instr.qlk256F16, 256)] ∧ Instr.gs .qlk32F16 = 32 ∧ Instr.ty .qlk32F16 = .f16 := by decide

theorem witness_bf16EntryPoint : (Instr.qlk128Bf16, 128) ∈ [(Instr.qlk32Bf16, 32), (Instr.qlk64Bf16, 64),
    (Instr.qlk128Bf16, 128), (Instr.qlk256Bf16, 256)] ∧ Instr.gs .qlk128Bf16 = 128 ∧ Instr.ty .qlk128Bf16 = .bf16 := by
  decide

theorem witness_scheduleDoesNotMatter :
    ∃ (s : State) (other : List Move), LaunchOk ⟨32, .f32⟩ s ∧ s.mem.wf ∧
      UnitsMove (dispatchSteps ⟨32, .f32⟩ s.cfg) s.agenda ∧ UnitsMove (dispatchSteps ⟨32, .f32⟩ s.cfg) other ∧
      s.agenda ≠ other :=
  ⟨scenarioWith .qlk32F32 [], [.unit 5], scenario_launchOk .qlk32F32 _, scenario_wf .qlk32F32 _, unitsMove_picks _ [],
    unitsMove_picks _ [5], by decide⟩

/-- The second of two live units. -/
theorem witness_anyLiveUnitCanMoveNext :
    [WorkUnit.start 0 0, WorkUnit.start 1 0][1]? = some (WorkUnit.start 1 0) ∧ (WorkUnit.start 1 0).phase ≠ .retired := by
  decide

/-- Scenario 1 twice, under different schedules and with different earlier contents of C. -/
theorem witness_elementDependsOnItsRowAndColumn :
    ∃ s s' : State, LaunchOk ⟨32, .f32⟩ s ∧ LaunchOk ⟨32, .f32⟩ s' ∧ s.mem.wf ∧ s'.mem.wf ∧
      UnitsMove (dispatchSteps ⟨32, .f32⟩ s.cfg) s.agenda ∧ UnitsMove (dispatchSteps ⟨32, .f32⟩ s'.cfg) s'.agenda ∧
      s.cfg.depth = s'.cfg.depth ∧ 0 < s.cfg.rows ∧ 0 < s'.cfg.rows ∧ 0 < s.cfg.cols ∧ 0 < s'.cfg.cols ∧
      (∀ pos, pos < s.cfg.depth → s.mem.elemAt .f32 (slotView s.cfg.bind.a) (0 * s.cfg.depth + pos) =
        s'.mem.elemAt .f32 (slotView s'.cfg.bind.a) (0 * s.cfg.depth + pos)) ∧
      (∀ off, off < rowBytes s.cfg.depth →
        s.mem.readByte ((slotView s.cfg.bind.b).base + (0 * rowBytes s.cfg.depth + off)) =
        s'.mem.readByte ((slotView s'.cfg.bind.b).base + (0 * rowBytes s.cfg.depth + off))) ∧
      (∀ kb, kb < groups 32 s.cfg.depth →
        s.mem.elemAt .f32 (slotView s.cfg.bind.s) (kb * s.cfg.cols + 0) =
          s'.mem.elemAt .f32 (slotView s'.cfg.bind.s) (kb * s'.cfg.cols + 0) ∧
        s.mem.elemAt .f32 (slotView s.cfg.bind.z) (kb * s.cfg.cols + 0) =
          s'.mem.elemAt .f32 (slotView s'.cfg.bind.z) (kb * s'.cfg.cols + 0)) ∧
      s.mem ≠ s'.mem := by
  have hok : LaunchOk ⟨32, .f32⟩ { scenarioWith .qlk32F32 [.unit 1] with mem := Memory.writeByte (scenarioMem .f32) 40 0x11#8 } := by
    have h := scenario_launchOk .qlk32F32 [.unit 1]
    exact ⟨h.notRunning, h.cfgOk, h.grid⟩
  refine ⟨scenarioWith .qlk32F32 [], _, scenario_launchOk .qlk32F32 _, hok, scenario_wf .qlk32F32 _, by decide +kernel,
    unitsMove_picks _ [], unitsMove_picks _ [1], rfl, by decide, by decide, by decide, by decide, ?_, ?_, ?_, by decide +kernel⟩
  · have : ∀ pos : Fin 4, (scenarioMem .f32).elemAt .f32 ⟨0, 4⟩ (0 * 4 + pos.val) =
        Memory.elemAt (Memory.writeByte (scenarioMem .f32) 40 0x11#8) .f32 ⟨0, 4⟩ (0 * 4 + pos.val) := by decide +kernel
    exact fun pos h => this ⟨pos, h⟩
  · have : ∀ off : Fin 3, (scenarioMem .f32).readByte (16 + (0 * 3 + off.val)) =
        Memory.readByte (Memory.writeByte (scenarioMem .f32) 40 0x11#8) (16 + (0 * 3 + off.val)) := by decide +kernel
    exact fun off h => this ⟨off, h⟩
  · have : ∀ kb : Fin 1, (scenarioMem .f32).elemAt .f32 ⟨20, 1⟩ (kb.val * 1 + 0) =
          Memory.elemAt (Memory.writeByte (scenarioMem .f32) 40 0x11#8) .f32 ⟨20, 1⟩ (kb.val * 1 + 0) ∧
        (scenarioMem .f32).elemAt .f32 ⟨24, 1⟩ (kb.val * 1 + 0) =
          Memory.elemAt (Memory.writeByte (scenarioMem .f32) 40 0x11#8) .f32 ⟨24, 1⟩ (kb.val * 1 + 0) := by decide +kernel
    exact fun kb h => this ⟨kb, h⟩

/-- A violation of each premise that a launch of an entry point can violate in this implementation. -/
theorem witness_violatedLaunchRefused :
    (scenario .qlk32F32).status ≠ .running ∧ Violated ⟨32, .f32⟩ (withSizes 1 6 1) .kNotMultipleOf4 ∧
    Violated ⟨32, .f32⟩ (withSizes 1 4 0) .emptyOrOversizeDimension ∧
    Violated ⟨32, .f16⟩ (withLengths 16 11 4 160) .shortBuffer ∧
    Violated ⟨32, .f16⟩ (withLengths 16 12 4 0) .outputAliasesInput ∧
    Violated ⟨32, .f32⟩ (withSizes 1 4 2) .shortTable ∧
    Violated ⟨32, .f32⟩ { scenario .qlk32F32 with grid := ⟨2, 1⟩ } .gridMismatch := by
  refine ⟨by decide, ?_, ?_, ?_, ?_, ?_, ?_⟩
  · show _ % 4 ≠ 0; decide
  · show _ ∨ _ ∨ _ ∨ _; decide
  · right; right; left; decide
  · exact ⟨.a, by decide, 0, by unfold inRange; decide, by unfold inRange; decide⟩
  · left; decide
  · show _ ≠ _; decide

/-- Each clause; the stores refused reach the last byte of the descriptor and the first of C, and nothing else; the store
that goes on lies against the end of C. -/
theorem witness_runningRefusesHostBreaches :
    (midRun .qlk32F32 []).status = .running ∧ (midRun .qlk32F32 [.launch ⟨1, 1⟩]).agenda = [.launch ⟨1, 1⟩] ∧
    (midRun .qlk32F32 [.host (.writeSel 0#4)]).agenda = [.host (.writeSel 0#4)] ∧
    (midRun .qlk32F32 [.host (.writeSize 1 4 1)]).agenda = [.host (.writeSize 1 4 1)] ∧
    (midRun .qlk32F32 [.host (.bind .a ⟨0, 4⟩)]).agenda = [.host (.bind .a ⟨0, 4⟩)] ∧
    (midRun .qlk32F32 [.host (.store 39 [0])]).agenda = [.host (.store 39 [0])] ∧
    (inRange (39, [0#8].length) 39 ∧ inRange (slotRange .f32 (smallestCfg 0#4).bind .desc) 39) ∧
    (inRange (40, [0#8].length) 40 ∧ inRange (slotRange .f32 (smallestCfg 0#4).bind .c) 40) ∧
    (∀ slot a, inRange (44, [7#8, 8#8].length) a → ¬ inRange (slotRange .f32 (smallestCfg 0#4).bind slot) a) := by
  refine ⟨by decide, by decide, by decide, by decide, by decide, by decide, ?_, ?_, ?_⟩
  · unfold inRange; decide
  · unfold inRange; decide
  · intro slot a h1 h2
    have hm := rangesMeet_iff.mpr ⟨a, h1, h2⟩
    have hno : rangesMeet (44, [7#8, 8#8].length) (slotRange .f32 (smallestCfg 0#4).bind slot) = false := by
      cases slot <;> decide
    rw [hno] at hm
    cases hm

/-- Two states in the middle of a dispatch that agree on CFG and on the free values drawn, C holding different bytes. -/
theorem witness_readOfUnfinishedCLearnsNothing :
    let s := midRun .qlk32F32 [.host .readC, .host .look]
    let s' := { s with mem := Memory.writeByte s.mem 40 0x11#8 }
    s.status = .running ∧ s.agenda = [.host .readC, .host .look] ∧
    s.cfg.rows * s.cfg.cols ≤ slotLen s.cfg.bind.c ∧ s'.status = .running ∧
    s'.agenda = [.host .readC, .host .look] ∧ s'.cfg = s.cfg ∧ s'.draws = s.draws ∧ s'.mem ≠ s.mem := by
  decide +kernel

/-- Abort and reset; the bytes on both sides of the output range are outside it. -/
theorem witness_abortEndsDispatch :
    (midRun .qlk32F32 [.host .abort]).status = .running ∧ (midRun .qlk32F32 [.host .abort]).agenda = [.host .abort] ∧
    (midRun .qlk32F32 [.host .reset]).agenda = [.host .reset] ∧
    ¬ inRange (outputRange .f32 (midRun .qlk32F32 []).cfg) 39 ∧ ¬ inRange (outputRange .f32 (midRun .qlk32F32 []).cfg) 44 := by
  unfold inRange
  decide

theorem witness_lookShowsOneUnitStep :
    let s := midRun .qlk32F32 [.unit 0, .host .look]
    s.status = .running ∧ s.agenda = [.unit 0, .host .look] ∧ pickUnit s.units 0 = some 0 ∧
    s.units[0]? = some (WorkUnit.start 0 0) ∧
    ∃ u' m', unitStep ⟨32, .f32⟩ s.cfg s.mem (WorkUnit.start 0 0) = .ok (u', m') ∧
      ∃ v ∈ s.units.set 0 u', v.phase ≠ .retired :=
  ⟨by decide, by decide, by decide, by decide,
    { WorkUnit.start 0 0 with
      s := some 0x40000000#32, z := some 0x3F800000#32, phase := .active, op := .loadWin },
    scenarioMem .f32, by decide +kernel, _, List.mem_singleton.mpr rfl, by decide⟩

theorem witness_interruptedDispatchDelivers :
    ∃ (s : State) (before after : List Move), decodeSel s.cfg.sel = .ok .qlk32F32 ∧ LaunchOk ⟨32, .f32⟩ s ∧ s.mem.wf ∧
      s.agenda = before ++ .host .look :: after ∧ before.length < dispatchSteps ⟨32, .f32⟩ s.cfg ∧
      (∀ mv ∈ before, ∃ pick, mv = .unit pick) ∧
      UnitsMove (dispatchSteps ⟨32, .f32⟩ s.cfg - before.length) after :=
  ⟨scenarioWith .qlk32F32 [.unit 0, .unit 4, .host .look, .unit 2], [.unit 0, .unit 4], [.unit 2], by decide,
    scenario_launchOk .qlk32F32 _, scenario_wf .qlk32F32 _, rfl, by decide, by simp, unitsMove_picks _ [2]⟩

/-- A read of C before the first step and before the last, and one just after the last. -/
theorem witness_hostSeesResultAtDone (n : Nat) :
    let picks := List.replicate n (Move.unit 0)
    ∃ s, decodeSel s.cfg.sel = .ok .qlk32F32 ∧ LaunchOk ⟨32, .f32⟩ s ∧ s.mem.wf ∧ s.agenda = picks ++ .host .readC :: [] ∧
      (∀ mv ∈ picks, ∃ pick, mv = .unit pick) ∧ dispatchSteps ⟨32, .f32⟩ s.cfg = 8 ∧ picks.length = n ∧
      UnitsMove (8 - n) [] := by
  refine ⟨scenarioWith .qlk32F32 (List.replicate n (.unit 0) ++ .host .readC :: []), ?_, scenario_launchOk .qlk32F32 _,
    scenario_wf .qlk32F32 _, rfl, fun mv h => ⟨0, List.eq_of_mem_replicate h⟩, ?_, List.length_replicate ..,
    unitsMove_picks _ []⟩
  · show decodeSel 0b0000#4 = .ok .qlk32F32
    decide
  show dispatchSteps ⟨32, .f32⟩ (smallestCfg 0#4) = 8
  decide

/-- The invariant's hypothesis in the middle of a dispatch, and a step from there that answers a next state. -/
theorem witness_invariantKept :
    (midRun .qlk32F32 [.unit 0, .host .look]).Inv ∧ ∃ t, step (midRun .qlk32F32 [.unit 0, .host .look]) = .next t :=
  ⟨midRun_inv _ _, _, by rfl⟩

theorem witness_memoryCanonicalKept :
    (midRun .qlk32F32 []).mem.wf ∧ ∃ t, step (midRun .qlk32F32 [.host .look]) = .next t :=
  ⟨scenario_wf .qlk32F32 [], _, by rfl⟩

/-- The invariant holds of states of every status that no run need have reached. -/
theorem witness_noStepFaults :
    (midRun .qlk256Bf16 [.unit 9]).Inv ∧ ({ scenario .qlk32F32 with status := .done }).Inv :=
  ⟨midRun_inv _ _, scenario_wf .qlk32F32 [], fun _ => rfl, fun h => by cases h⟩

theorem witness_executionFrame :
    (∀ mv ∈ (midRun .qlk32F32 [.unit 0]).agenda, ∃ pick, mv = .unit pick) ∧
    (∃ t, exec .qlk32F32 (midRun .qlk32F32 [.unit 0]) = .next t) ∧
    ¬ inRange (slotRange .f32 (midRun .qlk32F32 []).cfg.bind .c) 39 := by
  refine ⟨by simp [midRun, scenarioWith], ?_, by unfold inRange; decide⟩
  have : (endOf .f32 (exec .qlk32F32 (midRun .qlk32F32 [.unit 0]))).isSome = true := by decide +kernel
  cases h : exec .qlk32F32 (midRun .qlk32F32 [.unit 0]) with
  | next t => exact ⟨t, rfl⟩
  | fault f => rw [h] at this; cases this
  | refused r => rw [h] at this; cases this

end Sys2Proof.Tests
end

section
/-!
SUPPORT. What one step answers outside a dispatch, one equation per head of the agenda, and what each operation of a work
unit leaves alone.
-/

namespace Sys2Proof.Machine

/-! ### The step outside a dispatch, by the head of the agenda (log 7) -/

/-- With nothing to come the block waits. -/
theorem step_of_empty_agenda {s : State} (hs : s.status ≠ .running) (ha : s.agenda = []) : step s = .next s := by
  cases hst : s.status with
  | running => exact absurd hst hs
  | idle | done => simp only [step, turn, hst, ha]

theorem step_of_host {s : State} {h : HostMove} {rest : List Move} (hs : s.status ≠ .running)
    (ha : s.agenda = .host h :: rest) : step s = hostIdle h { s with agenda := rest } := by
  cases hst : s.status with
  | running => exact absurd hst hs
  | idle | done => simp only [step, turn, hst, ha]

/-- A launch under a selector that names no entry point is refused (60_exceptions.md R151 V1). -/
theorem step_launch_of_no_entryPoint {s : State} {g : Grid} {rest : List Move} {e : DecodeError}
    (hs : s.status ≠ .running) (ha : s.agenda = .launch g :: rest) (hd : decodeSel s.cfg.sel = .error e) :
    step s = .refused .unsupportedSelector := by
  cases hst : s.status with
  | running => exact absurd hst hs
  | idle | done => simp only [step, turn, hst, ha, hd]

/-! ### What the host writes and reads -/

/-- Sizes that fit change the three fields and clear the mark, nothing else of CFG. -/
theorem writeSizes_eq_of_fit (cfg : Cfg) {m k n : Nat} (hm : m < 2 ^ 32) (hk : k < 2 ^ 32) (hn : n < 2 ^ 32) :
    writeSizes cfg m k n =
      { cfg with m := BitVec.ofNat 32 m, k := BitVec.ofNat 32 k, n := BitVec.ofNat 32 n, oversize := false } :=
  if_pos ⟨hm, hk, hn⟩

@[simp] theorem Bind.get_unbound (slot : Slot) : Bind.unbound.get slot = none := by cases slot <;> rfl

/-- Binding a slot is seen at that slot and at no other. -/
theorem Bind.get_set (b : Bind) (slot other : Slot) (v : View) :
    (b.set slot v).get other = if other = slot then some v else b.get other := by
  cases slot <;> cases other <;> rfl

@[simp] theorem Bind.get_set_same (b : Bind) (slot : Slot) (v : View) : (b.set slot v).get slot = some v := by
  rw [Bind.get_set, if_pos rfl]

theorem Bind.get_set_ne (b : Bind) {slot other : Slot} (v : View) (h : other ≠ slot) :
    (b.set slot v).get other = b.get other := by
  rw [Bind.get_set, if_neg h]

/-- With C long enough a read of C covers `C[0 .. M·N)`. -/
theorem outputCount_eq {cfg : Cfg} (h : cfg.rows * cfg.cols ≤ slotLen cfg.bind.c) :
    outputCount cfg = cfg.rows * cfg.cols := Nat.min_eq_left h

/-- With C long enough a read of C outside a dispatch gives its `M·N` elements, in order (20_memory.md R44). -/
theorem readOutput_elems {s : State} {i : Instr} (hi : decodeSel s.cfg.sel = .ok i)
    (hlen : s.cfg.rows * s.cfg.cols ≤ slotLen s.cfg.bind.c) :
    (readOutput s).seenC.length = s.cfg.rows * s.cfg.cols ∧ ∀ j, j < s.cfg.rows * s.cfg.cols →
      (readOutput s).seenC[j]? = some (s.mem.elemAt i.ty (slotView s.cfg.bind.c) j) := by
  rw [readOutput_seenC s hi, outputCount_eq hlen]
  refine ⟨by simp, fun j hj => ?_⟩
  rw [List.getElem?_map, List.getElem?_range hj]
  rfl

/-! ### Results that are no fault -/

theorem except_bind_eq_ok {α β : Type} {x : Except Fault α} {f : α → Except Fault β} {b : β} :
    x >>= f = .ok b ↔ ∃ a, x = .ok a ∧ f a = .ok b := by
  cases x with
  | error e => simp [bind, Except.bind]
  | ok a => simp [bind, Except.bind]

/-- The result of an operation that is given memory to read alone. -/
theorem eq_ok_of_map_mem {x : Except Fault WorkUnit} {m m' : Memory} {u' : WorkUnit}
    (h : x.map (·, m) = .ok (u', m')) : x = .ok u' := by
  cases x with
  | error e => cases h
  | ok v => cases h; rfl

/-! ### The coordinate of a work unit (10_state.md R18) -/

variable {p : Params} {cfg : Cfg} {m m' : Memory} {u u' : WorkUnit}

@[simp] theorem afterMac_gx (gs k : Nat) (i : Fin 4) (u : WorkUnit) : (afterMac gs k i u).gx = u.gx := by
  match i with
  | 0 | 1 | 2 => rfl
  | 3 => simp [afterMac]

@[simp] theorem afterMac_gy (gs k : Nat) (i : Fin 4) (u : WorkUnit) : (afterMac gs k i u).gy = u.gy := by
  match i with
  | 0 | 1 | 2 => rfl
  | 3 => simp [afterMac]

theorem opFetchSZ_coord (h : opFetchSZ p cfg m u = .ok u') : u'.gx = u.gx ∧ u'.gy = u.gy := by
  simp only [opFetchSZ, except_bind_eq_ok, Except.ok.injEq] at h
  obtain ⟨s, -, z, -, rfl⟩ := h
  simp

theorem opLoadWin_coord (h : opLoadWin cfg m u = .ok u') : u'.gx = u.gx ∧ u'.gy = u.gy := by
  simp only [opLoadWin, except_bind_eq_ok, Except.ok.injEq] at h
  obtain ⟨win, -, rfl⟩ := h
  exact ⟨rfl, rfl⟩

theorem opUnpack_coord (h : opUnpack u = .ok u') : u'.gx = u.gx ∧ u'.gy = u.gy := by
  simp only [opUnpack, except_bind_eq_ok, Except.ok.injEq] at h
  obtain ⟨b0, -, b1, -, b2, -, rfl⟩ := h
  exact ⟨rfl, rfl⟩

theorem opMac_coord {i : Fin 4} (h : opMac p cfg m i u = .ok u') : u'.gx = u.gx ∧ u'.gy = u.gy := by
  simp only [opMac, except_bind_eq_ok, Except.ok.injEq] at h
  obtain ⟨a, -, s, -, w, -, z, -, rfl⟩ := h
  simp

theorem opStoreC_unit (h : opStoreC p cfg m u = .ok (u', m')) : u' = { u with phase := .retired } := by
  simp only [opStoreC, except_bind_eq_ok, Except.ok.injEq, Prod.mk.injEq] at h
  obtain ⟨_, -, rfl, -⟩ := h
  rfl

theorem unitStep_coord (h : unitStep p cfg m u = .ok (u', m')) : u'.gx = u.gx ∧ u'.gy = u.gy := by
  cases hop : u.op with
  | fetchSZ => simp only [unitStep, hop] at h; exact opFetchSZ_coord (eq_ok_of_map_mem h)
  | loadWin => simp only [unitStep, hop] at h; exact opLoadWin_coord (eq_ok_of_map_mem h)
  | unpack => simp only [unitStep, hop] at h; exact opUnpack_coord (eq_ok_of_map_mem h)
  | mac i => simp only [unitStep, hop] at h; exact opMac_coord (eq_ok_of_map_mem h)
  | storeC =>
    simp only [unitStep, hop] at h
    rw [opStoreC_unit h]
    exact ⟨rfl, rfl⟩

/-- Every operation but STOREC only reads memory (20_memory.md R40). -/
theorem unitStep_mem (hop : u.op ≠ .storeC) (h : unitStep p cfg m u = .ok (u', m')) : m' = m := by
  cases hu : u.op with
  | fetchSZ | loadWin | unpack | mac i => simp only [unitStep, hu] at h; exact map_fst_ok h
  | storeC => exact absurd hu hop

/-! ### One step of a live unit -/

theorem live_iff : u.live = true ↔ u.phase ≠ .retired := by simp [WorkUnit.live]

/-- Under the premises a live unit at a place of its sequence steps to such a place, and retires exactly at STOREC. -/
theorem unitStep_seqOk (hgs : GsOk p.gs) (hc : CfgOk p cfg) (hx : u.gx.toNat < cfg.cols) (hy : u.gy.toNat < cfg.rows)
    (hlive : u.phase ≠ .retired) (hseq : SeqOk p.gs cfg.depth u) :
    ∃ u' m', unitStep p cfg m u = .ok (u', m') ∧ SeqOk p.gs cfg.depth u' ∧ (u'.phase = .retired ↔ u.op = .storeC) := by
  have hat : AtCoord cfg u.gy.toNat u.gx.toNat u := ⟨rfl, rfl, hx, hy⟩
  by_cases hop : u.op = .storeC
  · refine ⟨_, _, step_storeC hc hat hop, ?_, iff_of_true rfl hop⟩
    simpa only [SeqOk, hop] using hseq
  · obtain ⟨u', m', he, hst⟩ := unitStep_stepped (m := m) hgs hc hat (live_iff.mpr hlive) hseq
    rcases hst.onward with ⟨hlive', -, hseq'⟩ | ⟨-, hop', -⟩
    · exact ⟨u', m', he, hseq', iff_of_false (live_iff.mp hlive') hop⟩
    · exact absurd hop' hop

/-! ### MAC (42_reduce.md R89): where it leads, and when it faults -/

theorem readElem_outOfBounds {ty : Ty} {v : Option View} {idx : Nat} (h : slotLen v ≤ idx) :
    readElem ty v m idx = .error .outOfBounds := if_neg (Nat.not_lt.mpr h)

@[simp] theorem readReg_none {α : Type} : readReg (none : Option α) = .error .unwrittenRegister := rfl

/-- The loop tests touch `kb` and the next operation alone. -/
theorem loopNext_frame (gs k : Nat) (u : WorkUnit) :
    loopNext gs k u = { u with kb := (loopNext gs k u).kb, op := (loopNext gs k u).op } := by
  unfold loopNext
  split_ifs <;> rfl

/-- Before lane 3 the next lane follows. -/
theorem afterMac_of_lt (gs k : Nat) {i : Fin 4} (h : i.val < 3) (u : WorkUnit) :
    afterMac gs k i u = { u with op := .mac ⟨i.val + 1, by omega⟩ } := by
  match i, h with
  | 0, _ | 1, _ | 2, _ => rfl

/-- After lane 3 the stride ends, and the loop tests follow. -/
theorem afterMac_of_three (gs k : Nat) {i : Fin 4} (h : i.val = 3) (u : WorkUnit) :
    afterMac gs k i u = loopNext gs k { u with k := u.k + 4, c := u.c + 4 } := by
  obtain rfl : i = 3 := Fin.ext h
  rfl

@[simp] theorem afterMac_acc (gs k : Nat) (i : Fin 4) (u : WorkUnit) : (afterMac gs k i u).acc = u.acc := by
  match i with
  | 0 | 1 | 2 => rfl
  | 3 => simp [afterMac]

theorem opMac_outOfBounds {i : Fin 4} (h : slotLen cfg.bind.a ≤ idxA cfg.depth u.gy.toNat (u.k + i.val)) :
    opMac p cfg m i u = .error .outOfBounds := by
  simp [opMac, readElem_outOfBounds h, bind, Except.bind]

/-- MAC reads scale, code and zero-point in this order, and the first that is unwritten faults (10_state.md R20). -/
theorem opMac_unwritten {i : Fin 4} (ha : idxA cfg.depth u.gy.toNat (u.k + i.val) < slotLen cfg.bind.a)
    (h : u.s = none ∨ u.code i = none ∨ u.z = none) : opMac p cfg m i u = .error .unwrittenRegister := by
  unfold opMac
  rw [readElem_ok ha]
  cases hs : u.s with
  | none => rfl
  | some s =>
    cases hw : u.code i with
    | none => rfl
    | some w =>
      have hz : u.z = none := by simpa [hs, hw] using h
      rw [hz]
      rfl

/-! ### The machine's invariant -/

theorem inv_of_not_running {s : State} (hwf : s.mem.wf) (hs : s.status ≠ .running) (hu : s.units = []) : s.Inv :=
  ⟨hwf, fun _ => hu, fun hr => absurd hr hs⟩

/-- Executing the selected entry point, at a launch or in a dispatch whose units are in their places, leads to the
invariant. -/
theorem exec_inv {i : Instr} {s t : State} (hwf : s.mem.wf) (hsel : decodeSel s.cfg.sel = .ok i)
    (hrun : s.status = .running → CfgOk ⟨i.gs, i.ty⟩ s.cfg ∧ UnitsOk ⟨i.gs, i.ty⟩ s.cfg s.units)
    (h : exec i s = .next t) : t.Inv := by
  rw [exec_eq] at h
  obtain ⟨hinv, hcfg⟩ := (execQlk_runInv (gsOk_instr i) hrun).2 t h
  refine ⟨execQlk_wf hwf h, hinv.quiet, fun hr => ?_⟩
  obtain ⟨hok, hunits⟩ := hinv.running hr
  exact ⟨i, by rw [hcfg hr, hsel], hok, hunits⟩

theorem exec_wf {i : Instr} {s t : State} (hwf : s.mem.wf) (h : exec i s = .next t) : t.mem.wf := by
  rw [exec_eq] at h
  exact execQlk_wf hwf h

end Sys2Proof.Machine
end

section
/-!
PROOFS. The statements of the state: what every step keeps, the work unit's sequence, reset, and the host's moves outside
a dispatch (10_state.md).
-/

namespace Sys2Proof.Proofs

open Sys2Proof Sys2Proof.Machine

/-- Settles O43, by what a step can do: waiting and picks change no register, the host's moves outside a dispatch create
no unit, and an execution runs under the invariant of its dispatch. -/
theorem invariantKept : Obligations.InvariantKept := by
  unfold Obligations.InvariantKept
  intro s t hinv h
  rcases step_cases h with ⟨-, -, rfl⟩ | ⟨pick, rest, hs, -, rfl⟩ | ⟨hm, rest, hs, -, hh⟩ |
    ⟨g, rest, i, hs, -, hi, he⟩ | ⟨i, hs, hi, he⟩
  · exact hinv
  · exact inv_of_not_running hinv.memory hs (hinv.quiet hs)
  · obtain ⟨hs', hu'⟩ := hostIdle_quiet hh hs (hinv.quiet hs)
    exact inv_of_not_running (hostIdle_wf (by exact hinv.memory) hh) hs' hu'
  · exact exec_inv (s := { s with agenda := rest, grid := g }) hinv.memory hi (fun hr => absurd hr hs) he
  · obtain ⟨j, hj, hok, hunits⟩ := hinv.running hs
    obtain rfl : j = i := Except.ok.inj (hj.symm.trans hi)
    exact exec_inv hinv.memory hj (fun _ => ⟨hok, hunits⟩) he

/-- Settles O14: the coordinate operation by operation, and memory at those that only read it. -/
theorem onlyStoreCWritesMemory : Obligations.OnlyStoreCWritesMemory := by
  unfold Obligations.OnlyStoreCWritesMemory
  intro p cfg m m' u u' h
  obtain ⟨hx, hy⟩ := unitStep_coord h
  exact ⟨hx, hy, fun hop => unitStep_mem hop h⟩

/-- Settles O15, STOREC apart from the operations that go on in the sequence. -/
theorem unitSequenceInvariant : Obligations.UnitSequenceInvariant := by
  unfold Obligations.UnitSequenceInvariant
  intro p cfg m u hgs hc hx hy hlive hseq
  exact unitStep_seqOk hgs hc hx hy hlive hseq

/-- Settles O44, by what a step can do. -/
theorem memoryCanonicalKept : Obligations.MemoryCanonicalKept := by
  unfold Obligations.MemoryCanonicalKept
  intro s t hwf h
  rcases step_cases h with ⟨-, -, rfl⟩ | ⟨pick, rest, -, -, rfl⟩ | ⟨hm, rest, -, -, hh⟩ |
    ⟨g, rest, i, -, -, -, he⟩ | ⟨i, -, -, he⟩
  · exact hwf
  · exact hwf
  · exact hostIdle_wf (by exact hwf) hh
  · exact exec_wf (by exact hwf) he
  · exact exec_wf hwf he

/-- Settles O1: the reset selector names no entry point. -/
theorem resetIsIdleUnboundAndRefusesLaunch : Obligations.ResetIsIdleUnboundAndRefusesLaunch := by
  unfold Obligations.ResetIsIdleUnboundAndRefusesLaunch
  refine ⟨rfl, rfl, Bind.get_unbound, fun g rest => ⟨.unsupportedSelector, ?_⟩⟩
  have hsel : decodeSel State.reset.cfg.sel = .error .reservedType := by decide
  exact step_launch_of_no_entryPoint (by simp [State.reset]) rfl hsel

/-- Settles O6, each write by its own equation. -/
theorem cfgWritesReturnToIdle : Obligations.CfgWritesReturnToIdle := by
  unfold Obligations.CfgWritesReturnToIdle
  intro s rest hs
  refine ⟨fun v ha => step_of_host hs ha, fun m k n hm hk hn ha => ?_, fun m k n hbig ha => ?_, fun slot v ha => ?_⟩
  · obtain ⟨hrows, hdepth, hcols, -⟩ := writeSizes_fit s.cfg hm hk hn
    refine ⟨_, step_of_host hs ha, hrows, hdepth, hcols, ?_⟩
    simp only [writeCfg, writeSizes_eq_of_fit s.cfg hm hk hn]
  · rw [step_of_host hs ha]
    simp only [hostIdle, writeCfg, writeSizes_oversize s.cfg hbig]
  · exact ⟨_, step_of_host hs ha, Bind.get_set_same .., fun other hne => Bind.get_set_ne _ v hne, rfl⟩

/-- Settles O7, each move by its own equation. -/
theorem hostMovesOutsideDispatch : Obligations.HostMovesOutsideDispatch := by
  unfold Obligations.HostMovesOutsideDispatch
  intro s rest hs
  refine ⟨fun addr bytes ha hwf => ?_, fun h hh ha => ?_, fun ha => ?_, fun ha => step_of_host hs ha,
    step_of_empty_agenda hs⟩
  · exact ⟨_, step_of_host hs ha, rfl, fun i hi => readByte_writeBytes_inside hwf hi,
      fun a hout => readByte_writeBytes_outside hout⟩
  · rw [step_of_host hs ha]
    rcases hh with rfl | rfl <;> rfl
  · exact ⟨_, step_of_host hs ha, rfl, fun i hi hlen =>
      readOutput_elems (s := { s with agenda := rest }) hi hlen⟩

/-- Settles O12: the operation by its equation, then lanes 0 to 2 and the end of the stride apart. -/
theorem macAccumulates : Obligations.MacAccumulates := by
  unfold Obligations.MacAccumulates
  intro p cfg m u i v hv
  have hlen : slotLen cfg.bind.a = v.len := by rw [hv]; rfl
  have hview : slotView cfg.bind.a = v := by rw [hv]; rfl
  refine ⟨fun s z w hs hz hw hidx => ?_, fun hidx h => opMac_unwritten (hlen ▸ hidx) h,
    fun hidx => opMac_outOfBounds (hlen ▸ hidx)⟩
  refine ⟨_, opMac_eq (hlen ▸ hidx) hs hw hz, ?_, fun h => ?_, fun h => ?_⟩
  · rw [afterMac_acc, hview]
    rfl
  · rw [afterMac_of_lt _ _ h, hview]
    rfl
  · rw [afterMac_of_three _ _ h, hview]
    exact ⟨loopNext_frame .., loopNext_testsLead rfl⟩

end Sys2Proof.Proofs
end

section
/-!
SUPPORT. What the host sees of memory: the output elements determine memory, what a step runs while RUNNING and at a
launch, and a read of C in the middle of a dispatch.
-/

namespace Sys2Proof.Machine

/-! ### Elements determine bytes (20_memory.md R36) -/

theorem readLE_lt (m : Memory) (addr n : Nat) : m.readLE addr n < 256 ^ n := by
  induction n generalizing addr with
  | zero => simp [Memory.readLE]
  | succ n ih =>
    have hlow := (m.readByte addr).isLt
    have hhigh := ih (addr + 1)
    simp only [Memory.readLE, Nat.pow_succ]
    omega

/-- Equal little-endian items are equal byte by byte. -/
theorem readByte_eq_of_readLE_eq {m m' : Memory} {addr n a : Nat} (h : m.readLE addr n = m'.readLE addr n)
    (h1 : addr ≤ a) (h2 : a < addr + n) : m.readByte a = m'.readByte a := by
  induction n generalizing addr with
  | zero => omega
  | succ n ih =>
    have hb := (m.readByte addr).isLt
    have hb' := (m'.readByte addr).isLt
    simp only [Memory.readLE] at h
    by_cases ha : a = addr
    · subst ha
      exact BitVec.eq_of_toNat_eq (by omega)
    · exact ih (addr := addr + 1) (by omega) (by omega) (by omega)

theorem elemAt_toNat (m : Memory) (ty : Ty) (v : View) (idx : Nat) :
    (m.elemAt ty v idx).toNat = m.readLE (v.elemAddr ty idx) ty.bytes := by
  have hlt := readLE_lt m (v.elemAddr ty idx) ty.bytes
  have hbytes : 256 ^ ty.bytes ≤ 2 ^ 32 := by cases ty <;> decide
  rw [Memory.elemAt, BitVec.toNat_ofNat, Nat.mod_eq_of_lt (by omega)]

/-- Equal elements are equal byte by byte. -/
theorem readByte_eq_of_elemAt_eq {m m' : Memory} {ty : Ty} {v : View} {idx a : Nat}
    (h : m.elemAt ty v idx = m'.elemAt ty v idx) (h1 : v.elemAddr ty idx ≤ a) (h2 : a < v.elemAddr ty idx + ty.bytes) :
    m.readByte a = m'.readByte a := by
  have hnat := congrArg BitVec.toNat h
  rw [elemAt_toNat, elemAt_toNat] at hnat
  exact readByte_eq_of_readLE_eq hnat h1 h2

/-- Every byte of the output range belongs to an output element. -/
theorem exists_elem_of_outputRange {ty : Ty} {cfg : Cfg} {a : Nat} (h : inRange (outputRange ty cfg) a) :
    ∃ j, j < cfg.rows * cfg.cols ∧ (slotView cfg.bind.c).elemAddr ty j ≤ a ∧
      a < (slotView cfg.bind.c).elemAddr ty j + ty.bytes := by
  obtain ⟨hlow, hhigh⟩ := h
  have hpos := ty_bytes_pos ty
  simp only [outputRange] at hlow hhigh
  have hdiv := Nat.div_add_mod' (a - (slotView cfg.bind.c).base) ty.bytes
  have hmod := Nat.mod_lt (a - (slotView cfg.bind.c).base) hpos
  refine ⟨(a - (slotView cfg.bind.c).base) / ty.bytes, ?_, ?_, ?_⟩
  · rw [Nat.div_lt_iff_lt_mul hpos]
    omega
  · simp only [View.elemAddr]
    omega
  · simp only [View.elemAddr]
    omega

/-- Canonical memories with the same output elements and the same bytes elsewhere are the same memory. -/
theorem memory_eq_of_output {ty : Ty} {cfg : Cfg} {m m' : Memory} (hm : m.wf) (hm' : m'.wf)
    (helem : ∀ j, j < cfg.rows * cfg.cols →
      m.elemAt ty (slotView cfg.bind.c) j = m'.elemAt ty (slotView cfg.bind.c) j)
    (hoff : AgreeOff (outputRange ty cfg) m m') : m = m' := by
  refine memory_ext hm hm' fun a => ?_
  by_cases ha : inRange (outputRange ty cfg) a
  · obtain ⟨j, hj, h1, h2⟩ := exists_elem_of_outputRange ha
    exact readByte_eq_of_elemAt_eq (helem j hj) h1 h2
  · exact hoff a ha

/-! ### The output elements by row and column -/

theorem div_cols_lt {rows cols j : Nat} (h : j < rows * cols) : j / cols < rows :=
  Nat.div_lt_of_lt_mul (by rwa [Nat.mul_comm])

theorem cols_pos_of_lt {rows cols j : Nat} (h : j < rows * cols) : 0 < cols :=
  Nat.pos_of_ne_zero fun h0 => by simp [h0] at h

theorem idxC_div {cols row col : Nat} (h : col < cols) : idxC cols row col / cols = row := by
  rw [idxC, Nat.mul_comm, Nat.mul_add_div (by omega), Nat.div_eq_of_lt h, Nat.add_zero]

theorem idxC_mod {cols row col : Nat} (h : col < cols) : idxC cols row col % cols = col := by
  rw [idxC, Nat.mul_comm, Nat.mul_add_mod, Nat.mod_eq_of_lt h]

variable {p : Params} {mem : Memory} {s t : State}

/-- The end of a dispatch, element by element: row and column instead of the linear index (20_memory.md R34). -/
theorem Ended.result_at {cfg : Cfg} (h : Ended p cfg mem t) {row col : Nat} (hrow : row < cfg.rows)
    (hcol : col < cfg.cols) :
    t.mem.elemAt p.ty (slotView cfg.bind.c) (idxC cfg.cols row col) = resultAt p cfg mem row col := by
  rw [h.result _ (idxC_lt hrow hcol), idxC_div hcol, idxC_mod hcol]

/-- What a dispatch delivers at a linear index. -/
theorem Delivers.result_idx (h : Delivers p s t) {j : Nat} (hj : j < s.cfg.rows * s.cfg.cols) :
    t.mem.elemAt p.ty (slotView s.cfg.bind.c) j = resultAt p s.cfg s.mem (j / s.cfg.cols) (j % s.cfg.cols) := by
  rw [← h.result _ _ (div_cols_lt hj) (Nat.mod_lt _ (cols_pos_of_lt hj)), idxC_div_mod]

/-- Two dispatches launched with the same CFG and memory deliver the same memory. -/
theorem Delivers.mem_eq {s' t' : State} (h : Delivers p s t) (h' : Delivers p s' t') (hcfg : s'.cfg = s.cfg)
    (hmem : s'.mem = s.mem) (hwf : t.mem.wf) (hwf' : t'.mem.wf) : t.mem = t'.mem := by
  refine memory_eq_of_output (ty := p.ty) (cfg := s.cfg) hwf hwf' (fun j hj => ?_) fun a ha => ?_
  · have hj' := h'.result_idx (j := j) (by rwa [hcfg])
    rw [hcfg, hmem] at hj'
    rw [h.result_idx hj, hj']
  · rw [h.elsewhere a ha, h'.elsewhere a (by rwa [hcfg]), hmem]

/-! ### What a step runs (20_memory.md R46, 43_dispatch.md R117; logs 7, 11) -/

/-- While RUNNING a step goes on with the selected entry point's dispatch. -/
theorem step_of_running {i : Instr} (hs : s.status = .running) (hi : decodeSel s.cfg.sel = .ok i) :
    step s = exec i s := by
  simp only [step, turn, hs, hi]

/-- A launch runs the selected entry point with the launch's grid recorded. -/
theorem step_of_launch {i : Instr} {g : Grid} {rest : List Move} (hs : s.status ≠ .running)
    (ha : s.agenda = .launch g :: rest) (hi : decodeSel s.cfg.sel = .ok i) :
    step s = exec i { s with agenda := rest, grid := g } := by
  cases hst : s.status with
  | running => exact absurd hst hs
  | idle | done => simp only [step, turn, hst, ha, hi]

/-- A pick of a work unit outside a dispatch is dropped. -/
theorem step_of_unit {pick : Nat} {rest : List Move} (hs : s.status ≠ .running) (ha : s.agenda = .unit pick :: rest) :
    step s = .next { s with agenda := rest } := by
  cases hst : s.status with
  | running => exact absurd hst hs
  | idle | done => simp only [step, turn, hst, ha]

/-- Outside a dispatch every move of the host answers a next state. -/
theorem hostIdle_next (h : HostMove) (s : State) : ∃ t, hostIdle h s = .next t := by
  cases h <;> exact ⟨_, rfl⟩

/-- An entry point does not fault at a state that, if RUNNING, is in a dispatch of its own. -/
theorem exec_no_fault {i : Instr}
    (hrun : s.status = .running → CfgOk ⟨i.gs, i.ty⟩ s.cfg ∧ UnitsOk ⟨i.gs, i.ty⟩ s.cfg s.units) (f : Fault) :
    exec i s ≠ .fault f := by
  rw [exec_eq]
  exact (execQlk_runInv (gsOk_instr i) hrun).1 f

/-! ### A read of C in the middle of a dispatch (20_memory.md R44, 93_implementation_defined.md U12; log 29) -/

theorem runDispatch_readC {fuel : Nat} {rest : List Move} (hs : s.status = .running)
    (ha : s.agenda = .host .readC :: rest) :
    runDispatch p (fuel + 1) s = runDispatch p fuel (readUnfinished p.ty { s with agenda := rest }) := by
  simp only [runDispatch, hs, ha, hostRunning]

theorem runDispatch_look_head {fuel : Nat} {rest : List Move} (hs : s.status = .running)
    (ha : s.agenda = .host .look :: rest) : runDispatch p (fuel + 1) s = .next { s with agenda := rest } := by
  simp only [runDispatch, hs, ha]

/-- The read alone, up to the look after it. -/
theorem exec_readC_look {i : Instr} {rest : List Move} (hs : s.status = .running)
    (ha : s.agenda = .host .readC :: .host .look :: rest) :
    exec i s = .next (readUnfinished i.ty { s with agenda := rest }) := by
  obtain ⟨n, hn⟩ : ∃ n, dispatchFuel ⟨i.gs, i.ty⟩ s = n + 1 + 1 :=
    ⟨dispatchFuel ⟨i.gs, i.ty⟩ s - 2, by simp only [dispatchFuel, ha, List.length_cons]; omega⟩
  rw [exec_eq, execQlk_running hs, hn, runDispatch_readC hs ha, runDispatch_look_head (by exact hs) rfl]
  rfl

/-- A read of C changes nothing that a dispatch in progress depends on. -/
theorem InDispatch.readUnfinished (hd : InDispatch p mem s) (ty : Ty) (rest : List Move) :
    InDispatch p mem (readUnfinished ty { s with agenda := rest }) :=
  ⟨hd.status, hd.wf, hd.units, hd.agree, hd.holds, hd.written⟩

/-- A dispatch with a read of C before its last step ends as without it; what the host got are free values. -/
theorem runDispatch_readC_ends {fuel : Nat} {before after : List Move} (hgs : GsOk p.gs) (hc : CfgOk p s.cfg)
    (hd : InDispatch p mem s) (hag : s.agenda = before ++ .host .readC :: after)
    (hpicks : ∀ mv ∈ before, ∃ pick, mv = .unit pick)
    (hwork : before.length < workLeft p.gs s.cfg.depth s.units)
    (hafter : UnitsMove (workLeft p.gs s.cfg.depth s.units - before.length) after)
    (hfuel : workLeft p.gs s.cfg.depth s.units + 1 < fuel) :
    ∃ t, runDispatch p fuel s = .next t ∧ Ended p s.cfg mem t ∧
      t.seenC = freeElems p.ty s.draws (outputCount s.cfg) := by
  obtain ⟨n, rfl⟩ : ∃ n, fuel = before.length + (n + 1) := ⟨fuel - before.length - 1, by omega⟩
  obtain ⟨r, hrun, hr, hcfg, -, hdraws, -, hagd, hleft⟩ :=
    runDispatch_picks (fuel := n + 1) hgs hc hd hag hpicks hwork
  have hwork' : workLeft p.gs r.cfg.depth r.units = workLeft p.gs s.cfg.depth s.units - before.length := by
    rw [hcfg, hleft]
  obtain ⟨t, ht, hend, -, -, hseen, -⟩ := runDispatch_ends (fuel := n) hgs (by exact hcfg ▸ hc)
    (hr.readUnfinished p.ty after) (by simp only [readUnfinished_cfg, readUnfinished_units, hwork']; omega)
    (by simp only [readUnfinished_cfg, readUnfinished_units, hwork']; omega)
    (by simpa only [readUnfinished_cfg, readUnfinished_units, readUnfinished_agenda, hwork'] using hafter)
  simp only [readUnfinished_cfg, readUnfinished_seenC, hcfg, hdraws] at hend hseen
  exact ⟨t, by rw [hrun, runDispatch_readC hr.status hagd, ht], hend, hseen⟩

/-! ### A launch that meets its premises -/

theorem execQlk_of_launchOk (hok : LaunchOk p s) :
    execQlk p s = runDispatch p (dispatchFuel p (launch s)) (launch s) :=
  execQlk_launch hok.notRunning (firstFailing_none_iff.mpr ⟨hok.cfgOk, hok.grid⟩)

theorem dispatchFuel_launch (p : Params) (s : State) :
    dispatchFuel p (launch s) = dispatchSteps p s.cfg + s.agenda.length + 1 := by
  simp [dispatchFuel, dispatchSteps, gridUnits]

/-- Picks at the head of the agenda are moves of units alone, whatever follows them. -/
theorem unitsMove_append {n : Nat} {picks rest : List Move} (hpicks : ∀ mv ∈ picks, ∃ pick, mv = .unit pick)
    (hn : n ≤ picks.length) : UnitsMove n (picks ++ rest) := by
  intro mv hmv
  rw [List.take_append_of_le_length hn] at hmv
  exact hpicks mv (List.mem_of_mem_take hmv)

/-- A launch with a read of C before the dispatch's last step. -/
theorem execQlk_readC_ends {picks rest : List Move} (hgs : GsOk p.gs) (hok : LaunchOk p s) (hwf : s.mem.wf)
    (hag : s.agenda = picks ++ .host .readC :: rest) (hpicks : ∀ mv ∈ picks, ∃ pick, mv = .unit pick)
    (hlen : picks.length < dispatchSteps p s.cfg) (hrest : UnitsMove (dispatchSteps p s.cfg - picks.length) rest) :
    ∃ t, execQlk p s = .next t ∧ Ended p s.cfg s.mem t ∧ t.seenC = freeElems p.ty s.draws (outputCount s.cfg) := by
  have hwork := workLeft_launch hok.cfgOk
  rw [execQlk_of_launchOk hok]
  refine runDispatch_readC_ends hgs (by exact hok.cfgOk) (launch_inDispatch hgs hok.cfgOk hwf) hag hpicks ?_ ?_ ?_
  · rwa [launch_cfg, hwork]
  · rwa [launch_cfg, hwork]
  · rw [launch_cfg, hwork, dispatchFuel_launch, hag, List.length_append, List.length_cons]
    omega

/-- At the end of a dispatch a read of C gives the host every element at its value (60_exceptions.md R157 H8). -/
theorem Delivers.readOutput_results {i : Instr} (hd : Delivers ⟨i.gs, i.ty⟩ s t) (hok : LaunchOk ⟨i.gs, i.ty⟩ s)
    (hi : decodeSel s.cfg.sel = .ok i) (rest : List Move) :
    (readOutput { t with agenda := rest }).seenC.length = s.cfg.rows * s.cfg.cols ∧
      ∀ row col, row < s.cfg.rows → col < s.cfg.cols →
        (readOutput { t with agenda := rest }).seenC[idxC s.cfg.cols row col]? =
          some (resultAt ⟨i.gs, i.ty⟩ s.cfg s.mem row col) := by
  have hread := readOutput_elems (s := { t with agenda := rest }) (i := i) (by simpa only [hd.cfg] using hi)
    (by simpa only [hd.cfg] using hok.cfgOk.lenC)
  simp only [hd.cfg] at hread ⊢
  obtain ⟨hlen, helems⟩ := hread
  refine ⟨hlen, fun row col hrow hcol => ?_⟩
  rw [helems _ (idxC_lt hrow hcol), ← hd.result row col hrow hcol]

end Sys2Proof.Machine
end

section
/-!
PROOFS. The statements of memory and of what the host sees of it (20_memory.md): the schedule, the absence of faults, the
reads of C, and what a step runs.
-/

namespace Sys2Proof.Proofs

open Sys2Proof Sys2Proof.Machine

/-- Settles O33: both schedules deliver, and what they deliver determines memory. -/
theorem scheduleDoesNotMatter : Obligations.ScheduleDoesNotMatter := by
  unfold Obligations.ScheduleDoesNotMatter
  intro i s other hok hwf hag hother
  obtain ⟨t, ht, hd, htwf⟩ := execQlk_delivers (gsOk_instr i) hok hwf hag
  have hok' : LaunchOk ⟨i.gs, i.ty⟩ { s with agenda := other } := ⟨hok.notRunning, hok.cfgOk, hok.grid⟩
  obtain ⟨t', ht', hd', htwf'⟩ := execQlk_delivers (gsOk_instr i) hok' hwf hother
  exact ⟨t, t', by rw [exec_eq, ht], by rw [exec_eq, ht'], hd.mem_eq hd' rfl rfl htwf htwf',
    hd.status.trans hd'.status.symm, hd.cfg.trans hd'.cfg.symm⟩

/-- Settles O45, by what the step does: in a dispatch and at a launch the selected entry point runs under the invariant
of its dispatch, and everything else answers a next state or a refusal. -/
theorem noStepFaults : Obligations.NoStepFaults := by
  unfold Obligations.NoStepFaults
  intro s hinv f
  by_cases hs : s.status = .running
  · obtain ⟨i, hi, hok, hunits⟩ := hinv.running hs
    rw [step_of_running hs hi]
    exact exec_no_fault (fun _ => ⟨hok, hunits⟩) f
  · cases ha : s.agenda with
    | nil => rw [step_of_empty_agenda hs ha]; nofun
    | cons mv rest =>
      cases mv with
      | unit pick => rw [step_of_unit hs ha]; nofun
      | launch g =>
        cases hi : decodeSel s.cfg.sel with
        | error e => rw [step_launch_of_no_entryPoint hs ha hi]; nofun
        | ok i =>
          rw [step_of_launch hs ha hi]
          exact exec_no_fault (s := { s with agenda := rest, grid := g }) (fun hr => absurd hr hs) f
      | host h =>
        obtain ⟨t, ht⟩ := hostIdle_next h { s with agenda := rest }
        rw [step_of_host hs ha, ht]
        nofun

/-- Settles O41: before the last step the read leaves the dispatch in progress as it was, and after it the dispatch has
delivered. -/
theorem hostSeesResultAtDone : Obligations.HostSeesResultAtDone := by
  unfold Obligations.HostSeesResultAtDone
  intro i s picks rest hi hok hwf hag hpicks
  refine ⟨fun hlen hrest => ?_, fun hlen => ?_⟩
  · obtain ⟨t, ht, hend, hseen⟩ := execQlk_readC_ends (gsOk_instr i) hok hwf hag hpicks hlen hrest
    refine ⟨t, by rw [exec_eq, ht], hend.status, hend.units, hend.cfg_eq, ?_,
      fun row col hrow hcol => hend.result_at hrow hcol, hend.agree⟩
    rw [hseen, freeElems_length, outputCount_eq hok.cfgOk.lenC]
  · have hunits : UnitsMove (dispatchSteps ⟨i.gs, i.ty⟩ s.cfg) s.agenda := hag ▸ unitsMove_append hpicks hlen.ge
    obtain ⟨t, ht, hd, -⟩ := execQlk_delivers (gsOk_instr i) hok hwf hunits
    have hagt : t.agenda = .host .readC :: rest := by rw [hd.agenda, hag, ← hlen, List.drop_left]
    have hdone : t.status ≠ .running := by simp [hd.status]
    obtain ⟨hcount, helems⟩ := hd.readOutput_results hok hi rest
    exact ⟨t, _, by rw [exec_eq, ht], hd.status, hagt, step_of_host hdone hagt, rfl, hcount, helems⟩

/-- Settles O48: what the read gives is drawn by CFG and the count of draws alone. -/
theorem readOfUnfinishedCLearnsNothing : Obligations.ReadOfUnfinishedCLearnsNothing := by
  unfold Obligations.ReadOfUnfinishedCLearnsNothing
  intro i s rest hs ha
  refine ⟨_, exec_readC_look hs ha, rfl, fun hlen => ?_, fun e he => ?_, fun s' rest' hs' ha' hcfg hdraws => ?_⟩
  · rw [readUnfinished_seenC, freeElems_length, outputCount_eq hlen]
  · exact freeElems_fits he
  · refine ⟨_, exec_readC_look hs' ha', ?_⟩
    simp only [readUnfinished_seenC, hcfg, hdraws]

/-- Settles O2, by the step's equation in a dispatch and at a launch. -/
theorem stepRunsSelectedEntryPoint : Obligations.StepRunsSelectedEntryPoint := by
  unfold Obligations.StepRunsSelectedEntryPoint
  intro s i hi
  exact ⟨fun hs => step_of_running hs hi, fun hs g rest ha => step_of_launch hs ha hi⟩

end Sys2Proof.Proofs
end

section
/-!
SUPPORT. The two encodings of the hardware: the selector's four bits (30_encoding.md R58 to R60) and the packed window's
slices (R50 to R54, 40_unpack.md R65 to R69).
-/

namespace Sys2Proof

/-! ### The selector: what each four-bit value decodes to -/

/-- A reserved `TYPE` is refused whatever `GSEL` and `HAS_BF16` are. -/
theorem decodeSelWith_of_reserved (hasBf16 : Bool) {sel : BitVec 4} (h : sel.extractLsb' 2 2 = 0b11#2) :
    decodeSelWith hasBf16 sel = .error .reservedType := by
  simp [decodeSelWith, h]

/-- Every entry point's selector decodes to it where the entry point is present. -/
theorem decodeSelWith_encodeSel (hasBf16 : Bool) (i : Instr) :
    decodeSelWith hasBf16 (encodeSel i) = if i.presentIn hasBf16 then .ok i else .error .noBf16 := by
  cases hasBf16 <;> cases i <;> rfl

/-- The rows of the opcode map and the reserved values are all sixteen selectors. -/
theorem reserved_or_encodeSel (sel : BitVec 4) : sel.extractLsb' 2 2 = 0b11#2 ∨ ∃ i, encodeSel i = sel := by
  have hrows : ∀ sel : BitVec 4, sel.extractLsb' 2 2 ≠ 0b11#2 →
      (decodeSelWith true sel).map encodeSel = .ok sel := by decide
  by_cases hres : sel.extractLsb' 2 2 = 0b11#2
  · exact .inl hres
  · right
    have hsel := hrows sel hres
    cases hd : decodeSelWith true sel with
    | error e => simp [hd, Except.map] at hsel
    | ok i => exact ⟨i, by simpa [hd, Except.map] using hsel⟩

/-- A selector has one meaning. -/
theorem decodeSelWith_eq_ok_iff {hasBf16 : Bool} {sel : BitVec 4} {i : Instr} :
    decodeSelWith hasBf16 sel = .ok i ↔ encodeSel i = sel ∧ i.presentIn hasBf16 = true := by
  constructor
  · intro h
    obtain hres | ⟨j, rfl⟩ := reserved_or_encodeSel sel
    · rw [decodeSelWith_of_reserved hasBf16 hres] at h
      cases h
    · rw [decodeSelWith_encodeSel] at h
      split at h
      · cases h
        exact ⟨rfl, ‹_›⟩
      · cases h
  · rintro ⟨rfl, hpresent⟩
    rw [decodeSelWith_encodeSel, if_pos hpresent]

/-- In this implementation every entry point is present (log 19). -/
theorem decodeSel_encodeSel (i : Instr) : decodeSel (encodeSel i) = .ok i :=
  decodeSelWith_eq_ok_iff.mpr ⟨rfl, rfl⟩

/-- A selector held in a byte is read back (log 23). -/
theorem selOfByte_setWidth (sel : BitVec 4) : selOfByte (sel.setWidth 8) = .ok sel := by
  have hsel : (sel.setWidth 8).toNat = sel.toNat := BitVec.toNat_setWidth_of_le (by decide)
  rw [selOfByte, hsel, if_pos sel.isLt, BitVec.ofNat_toNat, BitVec.setWidth_eq]

theorem decodeBytes_encodeBytes (i : Instr) (rest : List Byte) :
    decodeBytes (encodeBytes i ++ rest) = .ok (i, rest) := by
  simp only [encodeBytes, List.cons_append, List.nil_append, decodeBytes, selOfByte_setWidth, decodeSel_encodeSel]

end Sys2Proof

namespace Sys2Proof.Machine

/-! ### Fields of codes and of bytes: what a concatenation's slices are, and that the slices give back the whole -/

/-- The bits of a code that is composed of two upper and four low bits. -/
theorem code_append_getElem (hi : BitVec 2) (lo : BitVec 4) {j : Nat} (hj : j < 6) :
    (hi ++ lo : Code)[j] = if h : j < 4 then lo[j] else hi[j - 4] :=
  BitVec.getElem_append hj

@[simp] theorem code_append_upper (hi : BitVec 2) (lo : BitVec 4) : (hi ++ lo : Code).extractLsb' 4 2 = hi :=
  (BitVec.extractLsb'_append_eq_of_le (by decide)).trans BitVec.extractLsb'_eq_self

@[simp] theorem code_append_lower (hi : BitVec 2) (lo : BitVec 4) : (hi ++ lo : Code).extractLsb' 0 4 = lo :=
  (BitVec.extractLsb'_append_eq_of_add_le (by decide)).trans BitVec.extractLsb'_eq_self

@[simp] theorem byte_append_upper (hi lo : BitVec 4) : (hi ++ lo : Byte).extractLsb' 4 4 = hi :=
  (BitVec.extractLsb'_append_eq_of_le (by decide)).trans BitVec.extractLsb'_eq_self

@[simp] theorem byte_append_lower (hi lo : BitVec 4) : (hi ++ lo : Byte).extractLsb' 0 4 = lo :=
  (BitVec.extractLsb'_append_eq_of_add_le (by decide)).trans BitVec.extractLsb'_eq_self

@[simp] theorem byte_pairs_pair0 (p3 p2 p1 p0 : BitVec 2) : (p3 ++ p2 ++ p1 ++ p0 : Byte).extractLsb' 0 2 = p0 :=
  (BitVec.extractLsb'_append_eq_of_add_le (by decide)).trans BitVec.extractLsb'_eq_self

@[simp] theorem byte_pairs_pair1 (p3 p2 p1 p0 : BitVec 2) : (p3 ++ p2 ++ p1 ++ p0 : Byte).extractLsb' 2 2 = p1 :=
  (BitVec.extractLsb'_append_eq_of_le (by decide)).trans
    ((BitVec.extractLsb'_append_eq_of_add_le (by decide)).trans BitVec.extractLsb'_eq_self)

@[simp] theorem byte_pairs_pair2 (p3 p2 p1 p0 : BitVec 2) : (p3 ++ p2 ++ p1 ++ p0 : Byte).extractLsb' 4 2 = p2 :=
  (BitVec.extractLsb'_append_eq_of_le (by decide)).trans
    ((BitVec.extractLsb'_append_eq_of_le (by decide)).trans
      ((BitVec.extractLsb'_append_eq_of_add_le (by decide)).trans BitVec.extractLsb'_eq_self))

@[simp] theorem byte_pairs_pair3 (p3 p2 p1 p0 : BitVec 2) : (p3 ++ p2 ++ p1 ++ p0 : Byte).extractLsb' 6 2 = p3 :=
  (BitVec.extractLsb'_append_eq_of_le (by decide)).trans
    ((BitVec.extractLsb'_append_eq_of_le (by decide)).trans
      ((BitVec.extractLsb'_append_eq_of_le (by decide)).trans BitVec.extractLsb'_eq_self))

@[simp] theorem code_upper_append_lower (w : Code) : w.extractLsb' 4 2 ++ w.extractLsb' 0 4 = w :=
  (BitVec.extractLsb'_append_extractLsb'_eq_extractLsb' rfl).trans BitVec.extractLsb'_eq_self

@[simp] theorem byte_upper_append_lower (b : Byte) : b.extractLsb' 4 4 ++ b.extractLsb' 0 4 = b :=
  (BitVec.extractLsb'_append_extractLsb'_eq_extractLsb' rfl).trans BitVec.extractLsb'_eq_self

@[simp] theorem byte_pairs_append (b : Byte) :
    b.extractLsb' 6 2 ++ b.extractLsb' 4 2 ++ b.extractLsb' 2 2 ++ b.extractLsb' 0 2 = b := by
  have h64 : b.extractLsb' 6 2 ++ b.extractLsb' 4 2 = b.extractLsb' 4 (2 + 2) :=
    BitVec.extractLsb'_append_extractLsb'_eq_extractLsb' rfl
  have h42 : b.extractLsb' 4 (2 + 2) ++ b.extractLsb' 2 2 = b.extractLsb' 2 (2 + 2 + 2) :=
    BitVec.extractLsb'_append_extractLsb'_eq_extractLsb' rfl
  rw [h64, h42]
  exact (BitVec.extractLsb'_append_extractLsb'_eq_extractLsb' rfl).trans BitVec.extractLsb'_eq_self

/-! ### UNPACK and PACK -/

/-- UNPACK's masks and shifts are the slices of 40_unpack.md R66: bit by bit, the low four bits of a code are a nibble of
`b1` or `b2` and the upper two are a pair of bits of `b0`. -/
theorem unpackWindow_eq_slices (b0 b1 b2 : Byte) : unpackWindow b0 b1 b2 =
    { w0 := b0.extractLsb' 0 2 ++ b1.extractLsb' 0 4
      w1 := b0.extractLsb' 2 2 ++ b1.extractLsb' 4 4
      w2 := b0.extractLsb' 4 2 ++ b2.extractLsb' 0 4
      w3 := b0.extractLsb' 6 2 ++ b2.extractLsb' 4 4 } := by
  rw [unpackWindow, Codes.mk.injEq]
  refine ⟨?_, ?_, ?_, ?_⟩ <;>
  · ext j hj
    interval_cases j <;> simp [code_append_getElem]

/-- UNPACK after PACK: the slices of a window's bytes are the fields of the codes. -/
theorem unpackWindow_packWindow (w : Codes) :
    unpackWindow (packWindow w).1 (packWindow w).2.1 (packWindow w).2.2 = w := by
  rw [unpackWindow_eq_slices]
  simp [packWindow]

/-- PACK after UNPACK: the fields of the codes are the slices of the window's bytes. -/
theorem packWindow_unpackWindow (b0 b1 b2 : Byte) : packWindow (unpackWindow b0 b1 b2) = (b0, b1, b2) := by
  rw [unpackWindow_eq_slices]
  simp [packWindow]

end Sys2Proof.Machine
end

section
/-!
PROOFS. The statements of the encodings (30_encoding.md): the packed window and the selector.
-/

namespace Sys2Proof.Proofs

open Sys2Proof Sys2Proof.Machine

/-- Settles O9: PACK and UNPACK are inverse to each other, so the window of a 4-tuple is the one PACK gives. -/
theorem packedWindowBijection : Obligations.PackedWindowBijection := by
  unfold Obligations.PackedWindowBijection
  refine ⟨fun w => ⟨packWindow w, unpackWindow_packWindow w, ?_⟩, unpackWindow_packWindow, packWindow_unpackWindow⟩
  rintro ⟨b0, b1, b2⟩ rfl
  exact (packWindow_unpackWindow b0 b1 b2).symm

/-- Settles O8, lane by lane of UNPACK's slice form. -/
theorem unpackConcatenatesFields : Obligations.UnpackConcatenatesFields := by
  unfold Obligations.UnpackConcatenatesFields
  intro b0 b1 b2
  rw [unpackWindow_eq_slices]
  exact ⟨rfl, rfl, rfl, rfl⟩

/-- Settles O3: twelve of the words are the entry points' selectors, the other four have the reserved `TYPE`. -/
theorem selectorWordsDecode : Obligations.SelectorWordsDecode := by
  unfold Obligations.SelectorWordsDecode
  have hreserved : ∀ gsel : BitVec 2, decodeSel (0b11#2 ++ gsel) = .error .reservedType := fun gsel =>
    decodeSelWith_of_reserved _ ((BitVec.extractLsb'_append_eq_of_le (by decide)).trans BitVec.extractLsb'_eq_self)
  exact ⟨decodeSel_encodeSel .qlk32F32, decodeSel_encodeSel .qlk64F32, decodeSel_encodeSel .qlk128F32,
    decodeSel_encodeSel .qlk256F32, decodeSel_encodeSel .qlk32F16, decodeSel_encodeSel .qlk64F16,
    decodeSel_encodeSel .qlk128F16, decodeSel_encodeSel .qlk256F16, decodeSel_encodeSel .qlk32Bf16,
    decodeSel_encodeSel .qlk64Bf16, decodeSel_encodeSel .qlk128Bf16, decodeSel_encodeSel .qlk256Bf16,
    hreserved 0b00#2, hreserved 0b01#2, hreserved 0b10#2, hreserved 0b11#2⟩

/-- Settles O4: decoding an encoded entry point, the one meaning of a selector, and the byte form. -/
theorem selectorRoundTrip : Obligations.SelectorRoundTrip := by
  unfold Obligations.SelectorRoundTrip
  exact ⟨decodeSelWith_encodeSel, fun _ _ _ => decodeSelWith_eq_ok_iff.mp, fun i rest _ => decodeBytes_encodeBytes i rest⟩

/-- Settles O5: a reserved `TYPE` names no entry point, and the step decodes the selector before any other premise. -/
theorem reservedSelectorRefused : Obligations.ReservedSelectorRefused := by
  unfold Obligations.ReservedSelectorRefused
  intro s g rest hs ha htype
  exact step_launch_of_no_entryPoint hs ha (decodeSelWith_of_reserved _ htype)

end Sys2Proof.Proofs
end

section
/-!
SUPPORT. The Bit Unpacker's two operations: when LOADWIN and UNPACK fault, and UNPACK by the slices of its window
(40_unpack.md R66, R71).
-/

namespace Sys2Proof.Machine

variable {cfg : Cfg} {m : Memory} {u : WorkUnit}

theorem readWindow_outOfBounds {v : Option View} {off : Nat} (h : slotLen v ≤ off + 2) :
    readWindow v m off = .error .outOfBounds := if_neg (Nat.not_lt.mpr h)

theorem opLoadWin_outOfBounds (h : slotLen cfg.bind.b ≤ winAddr cfg.depth u.gx.toNat u.k + 2) :
    opLoadWin cfg m u = .error .outOfBounds := by
  rw [opLoadWin, readWindow_outOfBounds h]
  rfl

theorem opUnpack_eq_slices {b0 b1 b2 : Byte} (h0 : u.b0 = some b0) (h1 : u.b1 = some b1) (h2 : u.b2 = some b2) :
    opUnpack u = .ok
      { u with
        w0 := some (b0.extractLsb' 0 2 ++ b1.extractLsb' 0 4)
        w1 := some (b0.extractLsb' 2 2 ++ b1.extractLsb' 4 4)
        w2 := some (b0.extractLsb' 4 2 ++ b2.extractLsb' 0 4)
        w3 := some (b0.extractLsb' 6 2 ++ b2.extractLsb' 4 4)
        op := .mac 0 } := by
  rw [opUnpack_eq h0 h1 h2, unpackWindow_eq_slices]

/-- UNPACK reads the window's registers in order, and the first that is unwritten faults (10_state.md R20). -/
theorem opUnpack_unwritten (h : u.b0 = none ∨ u.b1 = none ∨ u.b2 = none) :
    opUnpack u = .error .unwrittenRegister := by
  unfold opUnpack
  cases h0 : u.b0 with
  | none => rfl
  | some b0 =>
    cases h1 : u.b1 with
    | none => rfl
    | some b1 =>
      have h2 : u.b2 = none := by simpa [h0, h1] using h
      rw [h2]
      rfl

end Sys2Proof.Machine
end

section
/-!
PROOFS. The statements of the Bit Unpacker's operations (40_unpack.md): UNPACK and LOADWIN as steps of a work unit.
-/

namespace Sys2Proof.Proofs

open Sys2Proof Sys2Proof.Machine

/-- Settles O47: UNPACK by its window's slices, and its fault. -/
theorem unpackWritesCodes : Obligations.UnpackWritesCodes := by
  unfold Obligations.UnpackWritesCodes
  exact fun u => ⟨fun _ _ _ => opUnpack_eq_slices, opUnpack_unwritten⟩

/-- Settles O10: `off` is WINADDR of the unit's position, so the view's end decides between the read and the fault. -/
theorem loadWinReadsWindow : Obligations.LoadWinReadsWindow := by
  unfold Obligations.LoadWinReadsWindow
  intro cfg m u v hv
  have hlen : slotLen cfg.bind.b = v.len := by rw [hv]; rfl
  have hview : slotView cfg.bind.b = v := by rw [hv]; rfl
  refine ⟨fun hin => ?_, fun hout => opLoadWin_outOfBounds (hlen ▸ hout), fun h4 i hi => winAddr_lane i h4 hi⟩
  rw [opLoadWin_eq (hlen ▸ hin), hview]
  rfl

end Sys2Proof.Proofs
end

section
/-!
SUPPORT. The Grouped Dequantizer: how many positions fall into a group (41_dequant.md R75), when FETCHSZ faults (R76), and
what multiplying by and adding a zero gives (R77, 44_numerics.md R133, R134).
-/

namespace Sys2Proof.Machine

/-! ### The sizes of the groups (41_dequant.md R75) -/

/-- `groupSize` counts the positions below K that fall into group `kb`. -/
theorem length_filter_group {gs : Nat} (hgs : 0 < gs) (k kb : Nat) :
    ((List.range k).filter fun pos => pos / gs == kb).length = groupSize gs k kb := by
  rw [← List.countP_eq_length_filter]
  induction k with
  | zero => simp [groupSize]
  | succ k ih =>
    have hiff : k / gs = kb ↔ gs * kb ≤ k ∧ k < gs * kb + gs := by
      rw [Nat.div_eq_iff hgs, Nat.mul_comm kb gs]
      omega
    rw [List.range_succ, List.countP_append, List.countP_singleton, ih]
    simp only [beq_iff_eq, hiff]
    unfold groupSize
    split_ifs <;> omega

theorem groupSize_pos_iff {gs : Nat} (hgs : 0 < gs) (k kb : Nat) : 0 < groupSize gs k kb ↔ kb < groups gs k := by
  rw [lt_groups_iff hgs, Nat.mul_comm kb gs]
  unfold groupSize
  omega

/-- A group that another follows is full. -/
theorem groupSize_of_not_last {gs k kb : Nat} (hgs : 0 < gs) (h : kb + 1 < groups gs k) : groupSize gs k kb = gs := by
  rw [lt_groups_iff hgs, Nat.mul_comm, Nat.mul_succ] at h
  unfold groupSize
  omega

/-- The last group holds what the full groups before it leave of K. -/
theorem groupSize_last {gs : Nat} (hgs : 0 < gs) (k : Nat) :
    groupSize gs k (groups gs k - 1) = k - gs * (groups gs k - 1) := by
  have hcover : k ≤ groups gs k * gs := Nat.not_lt.mp (mt (lt_groups_iff hgs).mpr (Nat.lt_irrefl _))
  have hlast : groups gs k * gs ≤ gs * (groups gs k - 1) + gs := by
    rw [← Nat.mul_succ, Nat.mul_comm]
    exact Nat.mul_le_mul_left gs (by omega)
  unfold groupSize
  omega

theorem groupSize_le (gs k kb : Nat) : groupSize gs k kb ≤ gs := Nat.min_le_left ..

theorem groupSize_mod_four {gs k : Nat} (hgs : GsOk gs) (hk : k % 4 = 0) (kb : Nat) : groupSize gs k kb % 4 = 0 := by
  have hbase := mul_mod_four kb hgs
  have hgs4 := hgs.2
  rw [Nat.mul_comm] at hbase
  unfold groupSize
  omega

theorem groups_pos {gs k : Nat} (hgs : 0 < gs) (hk : 0 < k) : 0 < groups gs k := by
  simpa using div_lt_groups hgs hk

theorem groups_of_le {gs k : Nat} (hgs : 0 < gs) (hk : 0 < k) (h : k ≤ gs) : groups gs k = 1 := by
  have hone : ¬ 1 < groups gs k := by
    rw [lt_groups_iff hgs]
    omega
  have := groups_pos hgs hk
  omega

/-! ### FETCHSZ past the end of a table (41_dequant.md R76, 20_memory.md R41) -/

/-- FETCHSZ reads the scale first, then the zero-point. -/
theorem opFetchSZ_outOfBounds {p : Params} {cfg : Cfg} {m : Memory} {u : WorkUnit}
    (h : slotLen cfg.bind.s ≤ idxSZ cfg.cols u.kb u.gx.toNat ∨ slotLen cfg.bind.z ≤ idxSZ cfg.cols u.kb u.gx.toNat) :
    opFetchSZ p cfg m u = .error .outOfBounds := by
  unfold opFetchSZ
  dsimp only
  rcases Nat.lt_or_ge (idxSZ cfg.cols u.kb u.gx.toNat) (slotLen cfg.bind.s) with hs | hs
  · have hz := h.resolve_left (Nat.not_le.mpr hs)
    rw [readElem_ok hs, readElem_outOfBounds hz]
    rfl
  · rw [readElem_outOfBounds hs]
    rfl

/-! ### Zeros of binary32 -/

theorem binary32_proper : binary32.Proper := fmtOf_proper .f32

/-- A zero is the zero pattern of its sign. -/
theorem eq_zero_of_isZero {x : F32} (h : binary32.isZero x = true) : x = binary32.zero (binary32.sign x) := by
  have hfields := pattern_fields (f := binary32) x.isLt
  simp only [Fmt.isZero, Bool.and_eq_true, beq_iff_eq] at h
  obtain ⟨hexpo, hfrac⟩ := h
  rw [hexpo, hfrac, Nat.zero_mul] at hfields
  exact hfields.symm

theorem zero_fields (neg : Bool) :
    binary32.isNaN (binary32.zero neg) = false ∧ binary32.isInf (binary32.zero neg) = false ∧
      binary32.isZero (binary32.zero neg) = true ∧ binary32.sign (binary32.zero neg) = neg := by
  cases neg <;> decide

@[simp] theorem signedMag_zero (neg : Bool) : signedMag (binary32.zero neg) = 0 := by cases neg <;> decide

theorem mag_pos {x : F32} (h : binary32.isZero x = false) : 0 < binary32.mag x := by
  unfold Fmt.mag
  split_ifs with he
  · have hf : binary32.frac x ≠ 0 := by simpa [Fmt.isZero, he] using h
    omega
  · positivity

/-- A finite number times `+0.0` is the zero of its sign (44_numerics.md R133). -/
theorem fmul_zero {x : F32} (hn : binary32.isNaN x = false) (hi : binary32.isInf x = false) :
    fmul x (binary32.zero false) = binary32.zero (binary32.sign x) := by
  obtain ⟨hn0, hi0, hz0, hs0⟩ := zero_fields false
  simp [fmul, hn, hi, hn0, hi0, hz0, hs0]

/-- Two zeros add to `-0.0` only where both are (44_numerics.md R134). -/
theorem fadd_zero_zero (neg neg' : Bool) :
    fadd (binary32.zero neg) (binary32.zero neg') = binary32.zero (neg && neg') := by
  obtain ⟨hn, hi, hz, hs⟩ := zero_fields neg
  obtain ⟨hn', hi', hz', hs'⟩ := zero_fields neg'
  simp [fadd, hn, hi, hz, hs, hn', hi', hz', hs']

/-- Rounding a finite number's own sign and magnitude returns it. -/
theorem roundFmt_self {x : F32} (hn : binary32.isNaN x = false) (hi : binary32.isInf x = false) :
    roundFmt binary32 (binary32.sign x) binary32.lsb (binary32.mag x) = x := by
  simpa using roundFmt_mag binary32_proper x.isLt (expo_lt_max hn hi) le_rfl

theorem signedMag_natAbs (x : F32) : (signedMag x).natAbs = binary32.mag x := by
  unfold signedMag
  split_ifs <;> omega

theorem signedMag_neg_iff {x : F32} (h : binary32.isZero x = false) : signedMag x < 0 ↔ binary32.sign x = true := by
  have hpos := mag_pos h
  unfold signedMag
  split_ifs with hs
  · exact iff_of_true (by omega) hs
  · exact iff_of_false (by omega) hs

/-- A zero of either sign added to a number that is none changes nothing: the exact sum is that number
(44_numerics.md R134). -/
theorem fadd_zero_of_nonzero (neg : Bool) {x : F32} (hn : binary32.isNaN x = false) (hz : binary32.isZero x = false) :
    fadd (binary32.zero neg) x = x := by
  obtain ⟨hn0, hi0, -, -⟩ := zero_fields neg
  cases hi : binary32.isInf x with
  | true => simp [fadd, hn0, hi0, hn, hi]
  | false =>
    have hsum : signedMag x ≠ 0 := by
      have hpos := mag_pos hz
      rw [← signedMag_natAbs] at hpos
      omega
    have hsign : decide (signedMag x < 0) = binary32.sign x := by simp [signedMag_neg_iff hz]
    simp [fadd, hn0, hi0, hn, hi, hz, hsum, hsign, signedMag_natAbs, roundFmt_self hn hi]

/-- Code 0 under a finite scale leaves the zero-point the zero of the scale's sign to be added to (41_dequant.md R77). -/
theorem deq_code_zero {s : F32} (hn : binary32.isNaN s = false) (hi : binary32.isInf s = false) (z : F32) :
    deq s 0#6 z = fadd (binary32.zero (binary32.sign s)) z :=
  congrArg (fadd · z) (fmul_zero hn hi)

end Sys2Proof.Machine
end

section
/-!
PROOFS. The statements of the Grouped Dequantizer (41_dequant.md): the groups' sizes, DEQ of code 0, and FETCHSZ.
-/

namespace Sys2Proof.Proofs

open Sys2Proof Sys2Proof.Machine

/-- Settles O17: every count is `groupSize`, whose laws give the clauses. -/
theorem groupSizes : Obligations.GroupSizes := by
  unfold Obligations.GroupSizes
  intro gs k hgs hk
  simp only [length_filter_group hgs]
  refine ⟨rfl, groupSize_pos_iff hgs k, fun _ => groupSize_of_not_last hgs, groupSize_last hgs k, groupSize_le ..,
    fun hgs4 hk4 => ?_, groups_of_le hgs hk⟩
  have hok : GsOk gs := ⟨hgs, hgs4⟩
  have hsize := groupSize_mod_four hok hk4
  have hlast : 0 < groupSize gs k (groups gs k - 1) := by
    rw [groupSize_pos_iff hgs]
    have := groups_pos hgs hk
    omega
  refine ⟨hsize, ?_, fun _ i hpos hi => group_lane i hok hpos hi⟩
  have := hsize (groups gs k - 1)
  omega

/-- Settles O28: the product is a zero of the scale's sign; added to a zero-point that is a zero it gives the zero of both
signs, and any other zero-point it leaves as it is. -/
theorem codeZeroGivesZeroPoint : Obligations.CodeZeroGivesZeroPoint := by
  unfold Obligations.CodeZeroGivesZeroPoint
  intro s z hsn hsi hzn
  rw [deq_code_zero hsn hsi]
  cases hz : binary32.isZero z with
  | true =>
    rw [eq_zero_of_isZero hz, fadd_zero_zero]
    cases binary32.sign s <;> cases binary32.sign z <;> decide
  | false =>
    have hne : z ≠ 0x80000000#32 := by
      rintro rfl
      exact absurd hz (by decide)
    rw [fadd_zero_of_nonzero _ hzn hz, if_neg (fun h => hne h.1)]

/-- Settles O11: inside both tables the operation's equation, its registers kept by the loop tests; past either the fault
of the first read that fails. -/
theorem fetchSZLoadsGroup : Obligations.FetchSZLoadsGroup := by
  unfold Obligations.FetchSZLoadsGroup
  intro p cfg m u vs vz hvs hvz
  have hlens : slotLen cfg.bind.s = vs.len := by rw [hvs]; rfl
  have hlenz : slotLen cfg.bind.z = vz.len := by rw [hvz]; rfl
  refine ⟨fun hs hz => ⟨_, opFetchSZ_eq (hlens ▸ hs) (hlenz ▸ hz), ?_⟩,
    fun h => opFetchSZ_outOfBounds (hlens ▸ hlenz ▸ h)⟩
  simp only [loopNext_s, loopNext_z, loopNext_c, loopNext_phase, hvs, hvz, true_and]
  exact ⟨rfl, rfl, loopNext_testsLead rfl, loopNext_frame ..⟩

end Sys2Proof.Proofs
end

section
/-!
SUPPORT. The Reduction Engine: STOREC's one write and its fault (42_reduce.md R92), a work unit that runs alone from its
creation to its retirement (R86, R88; 70_reset_and_hazards.md R177), and the operands that determine the value of an
element (R95).
-/

namespace Sys2Proof.Machine

variable {p : Params} {cfg cfg' : Cfg} {m m' mem : Memory} {u : WorkUnit} {row col : Nat}

/-! ### STOREC -/

/-- Writing an element leaves every byte outside its range alone. -/
theorem readByte_setElem_of_not_inRange {ty : Ty} {v : View} {idx a : Nat} (e : Elem)
    (h : ¬ inRange (v.elemAddr ty idx, ty.bytes) a) : (m.setElem ty v idx e).readByte a = m.readByte a := by
  refine readByte_setElem_outside e ?_
  unfold inRange at h
  omega

/-- A cast accumulator reads back as it was written. -/
theorem elemAt_setElem_cvtOut (hm : m.wf) (ty : Ty) (v : View) (idx : Nat) (x : F32) :
    (m.setElem ty v idx (cvtOut ty x)).elemAt ty v idx = cvtOut ty x :=
  elemAt_setElem_same hm (cvtOut_fits ty x)

theorem opStoreC_outOfBounds (h : slotLen cfg.bind.c ≤ idxC cfg.cols u.gy.toNat u.gx.toNat) :
    opStoreC p cfg m u = .error .outOfBounds := by
  rw [opStoreC, writeElem, if_neg (Nat.not_lt.mpr h)]
  rfl

/-! ### A work unit alone -/

/-- A live unit at its coordinate, at a place of its sequence, its registers holding what they should. -/
structure OnCourse (p : Params) (cfg : Cfg) (mem : Memory) (row col : Nat) (u : WorkUnit) : Prop where
  coord : AtCoord cfg row col u
  live : u.live = true
  seq : SeqOk p.gs cfg.depth u
  holds : Holds p cfg mem row col u

theorem onCourse_start (hgs : GsOk p.gs) (hc : CfgOk p cfg) (hrow : row < cfg.rows) (hcol : col < cfg.cols) :
    OnCourse p cfg mem row col (WorkUnit.start col row) := by
  have hM : cfg.rows < 2 ^ 32 := cfg.m.isLt
  have hN : cfg.cols < 2 ^ 32 := cfg.n.isLt
  obtain ⟨hseq, hholds⟩ := start_holds (mem := mem) (row := row) (col := col) hgs hc col row
  exact ⟨⟨Nat.mod_eq_of_lt (hcol.trans hN), Nat.mod_eq_of_lt (hrow.trans hM), hcol, hrow⟩, rfl, hseq, hholds⟩

/-- One step of a unit on course: it stays on course and memory as it was, or the step was STOREC. -/
theorem OnCourse.stepped (hgs : GsOk p.gs) (hc : CfgOk p cfg) (h : OnCourse p cfg mem row col u) :
    ∃ u' m', unitStep p cfg mem u = .ok (u', m') ∧
      remaining p.gs cfg.depth u = remaining p.gs cfg.depth u' + 1 ∧
      ((m' = mem ∧ OnCourse p cfg mem row col u') ∨ (u'.live = false ∧ u.op = .storeC)) := by
  obtain ⟨u', m', he, hst⟩ := unitStep_stepped (m := mem) hgs hc h.coord h.live h.seq
  refine ⟨u', m', he, hst.fewer, ?_⟩
  rcases hst.onward with ⟨hlive, hmem, hseq⟩ | ⟨hretired, hop, -⟩
  · have hat : AtCoord cfg row col u' := by simpa only [AtCoord, hst.gx, hst.gy] using h.coord
    have hholds := unitStep_holds hgs hc h.coord h.seq (AgreeOff.refl _ _) h.holds he hlive
    exact .inl ⟨hmem, hat, hlive, hseq, hholds⟩
  · exact .inr ⟨hretired, hop⟩

theorem OnCourse.remaining_pos (hgs : GsOk p.gs) (hc : CfgOk p cfg) (h : OnCourse p cfg mem row col u) :
    0 < remaining p.gs cfg.depth u := by
  obtain ⟨_, _, -, hfewer, -⟩ := h.stepped hgs hc
  omega

/-- With more than one step left a unit stays on course and memory as it was. -/
theorem OnCourse.step (hgs : GsOk p.gs) (hc : CfgOk p cfg) (h : OnCourse p cfg mem row col u)
    (hleft : 1 < remaining p.gs cfg.depth u) :
    ∃ u', unitStep p cfg mem u = .ok (u', mem) ∧ OnCourse p cfg mem row col u' ∧
      remaining p.gs cfg.depth u = remaining p.gs cfg.depth u' + 1 := by
  obtain ⟨u', m', he, hfewer, ⟨rfl, hu'⟩ | ⟨hretired, -⟩⟩ := h.stepped hgs hc
  · exact ⟨u', he, hu', hfewer⟩
  · have := remaining_retired (gs := p.gs) (k := cfg.depth) hretired
    omega

/-- The last step of a unit is STOREC: after any other operation it is still on course and has a step left. -/
theorem OnCourse.op_of_last (hgs : GsOk p.gs) (hc : CfgOk p cfg) (h : OnCourse p cfg mem row col u)
    (hleft : remaining p.gs cfg.depth u = 1) : u.op = .storeC := by
  obtain ⟨u', m', -, hfewer, ⟨-, hu'⟩ | ⟨-, hop⟩⟩ := h.stepped hgs hc
  · have := hu'.remaining_pos hgs hc
    omega
  · exact hop

/-- The last step retires the unit and writes the element's value. -/
theorem OnCourse.last (hgs : GsOk p.gs) (hc : CfgOk p cfg) (h : OnCourse p cfg mem row col u)
    (hleft : remaining p.gs cfg.depth u = 1) :
    unitStep p cfg mem u = .ok ({ u with phase := .retired },
      mem.setElem p.ty (slotView cfg.bind.c) (idxC cfg.cols row col) (resultAt p cfg mem row col)) := by
  have hop := h.op_of_last hgs hc hleft
  rw [step_storeC hc h.coord hop, storeC_value hop h.holds]

theorem unitRun_succ {n : Nat} {u' : WorkUnit} (h : unitRun p cfg n m u = .ok (u', m')) :
    unitRun p cfg (n + 1) m u = unitStep p cfg m' u' := by rw [unitRun, h]

/-- Before its last step a unit alone is on course, has as many steps left as are missing, and has written nothing. -/
theorem unitRun_onCourse (hgs : GsOk p.gs) (hc : CfgOk p cfg) (h : OnCourse p cfg mem row col u) {n : Nat}
    (hn : n < remaining p.gs cfg.depth u) :
    ∃ u', unitRun p cfg n mem u = .ok (u', mem) ∧ OnCourse p cfg mem row col u' ∧
      remaining p.gs cfg.depth u = remaining p.gs cfg.depth u' + n := by
  induction n with
  | zero => exact ⟨u, rfl, h, rfl⟩
  | succ n ih =>
    obtain ⟨v, hrun, hv, hleft⟩ := ih (by omega)
    obtain ⟨u', he, hu', hfewer⟩ := hv.step hgs hc (by omega)
    exact ⟨u', by rw [unitRun_succ hrun, he], hu', by omega⟩

/-- After its last step a unit alone has retired and its element has its value. -/
theorem unitRun_retires (hgs : GsOk p.gs) (hc : CfgOk p cfg) (h : OnCourse p cfg mem row col u) :
    ∃ u', unitRun p cfg (remaining p.gs cfg.depth u) mem u = .ok (u',
        mem.setElem p.ty (slotView cfg.bind.c) (idxC cfg.cols row col) (resultAt p cfg mem row col)) ∧
      u'.phase = .retired := by
  obtain ⟨n, hn⟩ := Nat.exists_eq_succ_of_ne_zero (h.remaining_pos hgs hc).ne'
  obtain ⟨v, hrun, hv, hleft⟩ := unitRun_onCourse hgs hc h (n := n) (by omega)
  exact ⟨_, by rw [hn, unitRun_succ hrun, hv.last hgs hc (by omega)], rfl⟩

/-! ### The operands of an element (42_reduce.md R95) -/

/-- Two configurations with their memories have the same K and hold the same row `row` of A, packed row `col` of B and
column `col` of S and of Z. -/
structure SameOperands (p : Params) (row col : Nat) (cfg cfg' : Cfg) (m m' : Memory) : Prop where
  depth : cfg.depth = cfg'.depth
  a : ∀ pos, pos < cfg.depth → m.elemAt p.ty (slotView cfg.bind.a) (idxA cfg.depth row pos) =
    m'.elemAt p.ty (slotView cfg'.bind.a) (idxA cfg.depth row pos)
  b : ∀ off, off < rowBytes cfg.depth →
    m.readByte ((slotView cfg.bind.b).base + (col * rowBytes cfg.depth + off)) =
    m'.readByte ((slotView cfg'.bind.b).base + (col * rowBytes cfg.depth + off))
  s : ∀ kb, kb < groups p.gs cfg.depth → m.elemAt p.ty (slotView cfg.bind.s) (idxSZ cfg.cols kb col) =
    m'.elemAt p.ty (slotView cfg'.bind.s) (idxSZ cfg'.cols kb col)
  z : ∀ kb, kb < groups p.gs cfg.depth → m.elemAt p.ty (slotView cfg.bind.z) (idxSZ cfg.cols kb col) =
    m'.elemAt p.ty (slotView cfg'.bind.z) (idxSZ cfg'.cols kb col)

variable {pos : Nat}

/-- The three bytes of a position's window lie in the packed row of its column. -/
theorem SameOperands.window (h : SameOperands p row col cfg cfg' m m') (h4 : cfg.depth % 4 = 0) (hpos : pos < cfg.depth)
    {j : Nat} (hj : j < 3) :
    m.readByte ((slotView cfg.bind.b).base + winAddr cfg.depth col pos + j) =
      m'.readByte ((slotView cfg'.bind.b).base + winAddr cfg'.depth col pos + j) := by
  have hoff : 3 * (pos / 4) + j < rowBytes cfg.depth := by
    unfold rowBytes
    omega
  have hb := h.b _ hoff
  simpa only [winAddr, ← h.depth, Nat.add_assoc] using hb

theorem SameOperands.codeAt_eq (h : SameOperands p row col cfg cfg' m m') (h4 : cfg.depth % 4 = 0)
    (hpos : pos < cfg.depth) : codeAt cfg m col pos = codeAt cfg' m' col pos := by
  have h0 := h.window h4 hpos (j := 0) (by omega)
  have h1 := h.window h4 hpos (j := 1) (by omega)
  have h2 := h.window h4 hpos (j := 2) (by omega)
  simp only [Nat.add_zero] at h0
  simp only [codeAt, h0, h1, h2]

theorem SameOperands.weightAt_eq (h : SameOperands p row col cfg cfg' m m') (hgs : 0 < p.gs) (h4 : cfg.depth % 4 = 0)
    (hpos : pos < cfg.depth) : weightAt p cfg m col pos = weightAt p cfg' m' col pos := by
  have hkb := div_lt_groups hgs hpos
  simp only [weightAt, h.s _ hkb, h.z _ hkb, h.codeAt_eq h4 hpos]

theorem SameOperands.accAt_eq (h : SameOperands p row col cfg cfg' m m') (hgs : 0 < p.gs) (h4 : cfg.depth % 4 = 0)
    {k : Nat} (hk : k ≤ cfg.depth) : accAt p cfg m row col k = accAt p cfg' m' row col k := by
  induction k with
  | zero => rfl
  | succ k ih =>
    have hlt : k < cfg.depth := hk
    simp only [accAt, ih hlt.le, h.a k hlt, h.weightAt_eq hgs h4 hlt, ← h.depth]

theorem SameOperands.resultAt_eq (h : SameOperands p row col cfg cfg' m m') (hgs : 0 < p.gs) (h4 : cfg.depth % 4 = 0) :
    resultAt p cfg m row col = resultAt p cfg' m' row col := by
  rw [resultAt, resultAt, h.accAt_eq hgs h4 le_rfl, h.depth]

end Sys2Proof.Machine
end

section
/-!
PROOFS. The statements of the Reduction Engine (42_reduce.md): STOREC, the run of one work unit alone, and what an
element depends on.
-/

namespace Sys2Proof.Proofs

open Sys2Proof Sys2Proof.Machine

/-- Settles O13: the cast accumulator fits its element, so it reads back from where the equation writes it. -/
theorem storeCWritesOneElement : Obligations.StoreCWritesOneElement := by
  unfold Obligations.StoreCWritesOneElement
  intro p cfg m u v hv hwf
  have hlen : slotLen cfg.bind.c = v.len := by rw [hv]; rfl
  have hview : slotView cfg.bind.c = v := by rw [hv]; rfl
  refine ⟨fun hin => ?_, fun hout => opStoreC_outOfBounds (hlen ▸ hout)⟩
  rw [opStoreC_eq (hlen ▸ hin), hview]
  exact ⟨_, rfl, elemAt_setElem_cvtOut hwf .., fun a => readByte_setElem_of_not_inRange _⟩

/-- Settles O16: the steps a unit has left at its start are those counted, and each step takes one off, the last
being STOREC. -/
theorem workUnitRetiresWithItsValue : Obligations.WorkUnitRetiresWithItsValue := by
  unfold Obligations.WorkUnitRetiresWithItsValue
  intro p cfg m row col hgs hc hwf hrow hcol
  have hstart : OnCourse p cfg m row col (WorkUnit.start col row) := onCourse_start hgs hc hrow hcol
  have hsteps : remaining p.gs cfg.depth (WorkUnit.start col row) =
      groups p.gs cfg.depth + cfg.depth / 4 + cfg.depth / 4 + cfg.depth + 1 := remaining_start hc.k4
  refine ⟨fun n hn => ?_, ?_⟩
  · obtain ⟨u', hrun, hu', -⟩ := unitRun_onCourse hgs hc hstart (hn.trans_eq hsteps.symm)
    exact ⟨u', hrun, live_iff.mp hu'.live⟩
  · obtain ⟨u', hrun, hretired⟩ := unitRun_retires hgs hc hstart
    rw [hsteps] at hrun
    exact ⟨u', _, hrun, hretired, elemAt_setElem_cvtOut hwf .., fun a => readByte_setElem_of_not_inRange _⟩

/-- Settles O35: both launches deliver the closed form, and the closed form reads no operand but those agreed on. -/
theorem elementDependsOnItsRowAndColumn : Obligations.ElementDependsOnItsRowAndColumn := by
  unfold Obligations.ElementDependsOnItsRowAndColumn
  intro i s s' row col p hok hok' hwf hwf' hag hag' hdepth hrow hrow' hcol hcol' ha hb hsz
  obtain ⟨t, ht, hd, -⟩ := execQlk_delivers (gsOk_instr i) hok hwf hag
  obtain ⟨t', ht', hd', -⟩ := execQlk_delivers (gsOk_instr i) hok' hwf' hag'
  have hsame : SameOperands p row col s.cfg s'.cfg s.mem s'.mem :=
    ⟨hdepth, ha, hb, fun kb hkb => (hsz kb hkb).1, fun kb hkb => (hsz kb hkb).2⟩
  refine ⟨t, t', by rw [exec_eq, ht], by rw [exec_eq, ht'], ?_⟩
  calc t.mem.elemAt p.ty (slotView s.cfg.bind.c) (idxC s.cfg.cols row col)
      = resultAt p s.cfg s.mem row col := hd.result row col hrow hcol
    _ = resultAt p s'.cfg s'.mem row col := hsame.resultAt_eq (gsOk_instr i).1 hok.cfgOk.k4
    _ = t'.mem.elemAt p.ty (slotView s'.cfg.bind.c) (idxC s'.cfg.cols row col) :=
      (hd'.result row col hrow' hcol').symm

end Sys2Proof.Proofs
end

section
/-!
SUPPORT. The ways a dispatch comes about and is seen: a launch that delivers, the grid a launch makes, the pick that names
a unit, the refusal of a violated launch, and a look in the middle of a dispatch (43_dispatch.md R100 to R104).
-/

namespace Sys2Proof.Machine

variable {p : Params} {mem m' : Memory} {s : State} {i : Instr} {u u' : WorkUnit} {us : List WorkUnit} {rest : List Move}

/-! ### The entry points deliver -/

/-- `execQlk_delivers` for every entry point of a list of one storage type, each with its group size. -/
theorem entryPoints_deliver {entries : List (Instr × Nat)} {ty : Ty}
    (hentries : ∀ e ∈ entries, e.1.gs = e.2 ∧ e.1.ty = ty) {gs : Nat} (hi : (i, gs) ∈ entries)
    (hok : LaunchOk ⟨gs, ty⟩ s) (hwf : s.mem.wf) (hag : UnitsMove (dispatchSteps ⟨gs, ty⟩ s.cfg) s.agenda) :
    ∃ t, exec i s = .next t ∧ Delivers ⟨gs, ty⟩ s t := by
  obtain ⟨hgs, hty⟩ := hentries _ hi
  dsimp only at hgs hty
  subst hgs hty
  obtain ⟨t, ht, hd, -⟩ := execQlk_delivers (gsOk_instr i) hok hwf hag
  exact ⟨t, by rw [exec_eq, ht], hd⟩

/-! ### The grid of a launch (43_dispatch.md R101) -/

/-- A launch's units are in their places; what memory holds does not matter. -/
theorem launch_unitsOk (hgs : GsOk p.gs) (hc : CfgOk p s.cfg) : UnitsOk p s.cfg (launch s).units :=
  (launch_inDispatch (s := { s with mem := [] }) hgs hc (show Memory.wf [] by decide)).units

/-- Units in their places are one per coordinate. -/
theorem UnitsOk.existsUnique_coord {cfg : Cfg} (hu : UnitsOk p cfg us) {row col : Nat} (hrow : row < cfg.rows)
    (hcol : col < cfg.cols) :
    ∃! j : Nat, ∃ u : WorkUnit, us[j]? = some u ∧ u.gx.toNat = col ∧ u.gy.toNat = row := by
  refine ⟨idxC cfg.cols row col, ?_, ?_⟩
  · have hj : idxC cfg.cols row col < us.length := hu.count ▸ idxC_lt hrow hcol
    obtain ⟨hx, hy⟩ := hu.coord _ _ (List.getElem?_eq_getElem hj)
    exact ⟨_, List.getElem?_eq_getElem hj, hx.trans (idxC_mod hcol), hy.trans (idxC_div hcol)⟩
  · rintro j ⟨u, hj, rfl, rfl⟩
    obtain ⟨hx, hy⟩ := hu.coord j u hj
    rw [hx, hy, idxC_div_mod]

theorem mem_gridUnits {n m : Nat} (h : u ∈ gridUnits n m) : ∃ col row, u = WorkUnit.start col row := by
  obtain ⟨j, -, rfl⟩ := List.mem_map.mp h
  exact ⟨_, _, rfl⟩

/-- A launch before any unit moves, seen by a look. -/
theorem exec_launch_look (hok : LaunchOk ⟨i.gs, i.ty⟩ s) (ha : s.agenda = .host .look :: rest) :
    exec i s = .next { launch s with agenda := rest } := by
  rw [exec_eq, execQlk_of_launchOk hok, dispatchFuel_launch, runDispatch_look_head (s := launch s) rfl ha]

/-! ### The pick that names a unit (43_dispatch.md R102) -/

/-- A live unit has a number among the live units. -/
theorem exists_nthLive {j : Nat} (hj : us[j]? = some u) (hlive : u.live = true) :
    ∃ n, n < us.countP WorkUnit.live ∧ nthLive us n = some j := by
  induction us generalizing j with
  | nil => simp at hj
  | cons v us ih =>
    cases j with
    | zero =>
      obtain rfl : v = u := by simpa using hj
      exact ⟨0, by simp [List.countP_cons_of_pos hlive], by simp [nthLive, hlive]⟩
    | succ j =>
      obtain ⟨n, hn, hnth⟩ := ih (by simpa using hj)
      by_cases hv : v.live = true
      · exact ⟨n + 1, by rw [List.countP_cons_of_pos hv]; omega, by simp [nthLive, hv, hnth]⟩
      · exact ⟨n, by rwa [List.countP_cons_of_neg hv], by simp [nthLive, hv, hnth]⟩

theorem exists_pickUnit {j : Nat} (hj : us[j]? = some u) (hlive : u.live = true) :
    ∃ pick, pickUnit us pick = some j := by
  obtain ⟨n, hn, hnth⟩ := exists_nthLive hj hlive
  exact ⟨n, by rw [pickUnit, Nat.mod_eq_of_lt hn, hnth]⟩

/-! ### A violated launch (60_exceptions.md R151, R153; log 10) -/

/-- Where the premises hold nothing is violated. -/
theorem not_violated (hc : CfgOk p s.cfg) (hg : s.grid = ⟨s.cfg.cols, s.cfg.rows⟩) (r : Refusal) : ¬ Violated p s r := by
  cases r with
  | unsupportedSelector =>
    rintro ⟨hty, hno⟩
    rw [hc.sel hty] at hno
    cases hno
  | kNotMultipleOf4 => exact fun h => h hc.k4
  | emptyOrOversizeDimension =>
    have hrows := hc.rows
    have hcols := hc.cols
    have hdepth := hc.depth
    rintro (h | h | h | h)
    · omega
    · omega
    · omega
    · rw [hc.fits] at h
      cases h
  | shortBuffer =>
    rintro (⟨slot, h⟩ | h | h | h)
    · have hbound := hc.bound slot
      rw [h] at hbound
      cases hbound
    · exact h.not_ge hc.lenA
    · exact h.not_ge hc.lenB
    · exact h.not_ge hc.lenC
  | shortTable =>
    rintro (h | h)
    · exact h.not_ge hc.lenS
    · exact h.not_ge hc.lenZ
  | gridMismatch => exact fun h => h hg
  | outputAliasesInput =>
    rintro ⟨slot, hslot, a, hac, ha⟩
    exact hc.noAlias slot hslot a hac ha
  | notModelled | hostDutyBreached | busy => exact id

/-- A launch that violates a premise meets a failing premise of the machine's list. -/
theorem exists_firstFailing {r : Refusal} (h : Violated p s r) : ∃ r', firstFailing p s = some r' := by
  refine Option.ne_none_iff_exists'.mp fun hnone => ?_
  obtain ⟨hc, hg⟩ := firstFailing_none_iff.mp hnone
  exact not_violated hc hg r h

/-! ### A look in the middle of a dispatch (60_exceptions.md R157; log 8) -/

/-- The move of a pick whose unit takes its step and leaves a unit live. -/
theorem tick_of_pick {pick j : Nat} (hpick : pickUnit s.units pick = some j) (hj : s.units[j]? = some u)
    (hstep : unitStep p s.cfg s.mem u = .ok (u', m')) (hlive : ∃ v ∈ s.units.set j u', v.live = true) :
    tick p pick s = .ok { s with units := s.units.set j u', mem := m' } := by
  have hall : (s.units.set j u').all (fun v => !v.live) = false := by
    obtain ⟨v, hv, hl⟩ := hlive
    exact List.all_eq_false.mpr ⟨v, hv, by simp [hl]⟩
  simp only [tick, hpick, hj, hstep]
  rw [completeIfRetired_of_live _ hall]

/-- A pick alone, up to the look after it. -/
theorem exec_pick_look {pick : Nat} {s' : State} (hs : s.status = .running)
    (ha : s.agenda = .unit pick :: .host .look :: rest)
    (ht : tick ⟨i.gs, i.ty⟩ pick { s with agenda := .host .look :: rest } = .ok s') (hs' : s'.status = .running)
    (ha' : s'.agenda = .host .look :: rest) : exec i s = .next { s' with agenda := rest } := by
  obtain ⟨n, hn⟩ : ∃ n, dispatchFuel ⟨i.gs, i.ty⟩ s = n + 1 + 1 :=
    ⟨dispatchFuel ⟨i.gs, i.ty⟩ s - 2, by simp only [dispatchFuel, ha, List.length_cons]; omega⟩
  rw [exec_eq, execQlk_running hs, hn, runDispatch_pick hs ha ht, runDispatch_look_head hs' ha']

/-- A launch stopped by a look before the dispatch's last step: still in progress, the steps of the picks taken. -/
theorem execQlk_launch_look {before after : List Move} (hgs : GsOk p.gs) (hok : LaunchOk p s) (hwf : s.mem.wf)
    (hag : s.agenda = before ++ .host .look :: after) (hpicks : ∀ mv ∈ before, ∃ pick, mv = .unit pick)
    (hlen : before.length < dispatchSteps p s.cfg) :
    ∃ t, execQlk p s = .next t ∧ InDispatch p s.mem t ∧ t.cfg = s.cfg ∧ t.agenda = after ∧
      workLeft p.gs s.cfg.depth t.units = dispatchSteps p s.cfg - before.length := by
  have hwork := workLeft_launch hok.cfgOk
  obtain ⟨t, hrun, hd, hcfg, -, -, -, hagt, hleft⟩ :=
    runDispatch_look (fuel := dispatchFuel p (launch s)) hgs (by exact hok.cfgOk) (launch_inDispatch hgs hok.cfgOk hwf)
      hag hpicks (by rwa [launch_cfg, hwork]) (by rw [dispatchFuel_launch]; omega)
  rw [launch_cfg, hwork] at hleft
  exact ⟨t, by rw [execQlk_of_launchOk hok, hrun], hd, hcfg, hagt, hleft⟩

/-- The fuel of a dispatch whose units are in their places covers all its steps. -/
theorem dispatchFuel_eq (hu : UnitsOk p s.cfg s.units) :
    dispatchFuel p s = dispatchSteps p s.cfg + s.agenda.length + 1 := by
  rw [dispatchFuel, hu.count, dispatchSteps]

/-- A dispatch in progress that goes on with the work units alone moving ends. -/
theorem execQlk_running_ends (hgs : GsOk p.gs) (hc : CfgOk p s.cfg) (hd : InDispatch p mem s)
    (hpos : 0 < workLeft p.gs s.cfg.depth s.units) (hle : workLeft p.gs s.cfg.depth s.units ≤ dispatchSteps p s.cfg)
    (hag : UnitsMove (workLeft p.gs s.cfg.depth s.units) s.agenda) :
    ∃ t, execQlk p s = .next t ∧ Ended p s.cfg mem t := by
  obtain ⟨t, hrun, hend, -⟩ := runDispatch_ends (fuel := dispatchFuel p s) hgs hc hd
    (by rw [dispatchFuel_eq hd.units]; omega) hpos hag
  exact ⟨t, by rw [execQlk_running hd.status, hrun], hend⟩

end Sys2Proof.Machine
end

section
/-!
PROOFS. The statements of dispatches (43_dispatch.md): the twelve entry points, LAUNCH and its refusals, the units' order,
and the host's look.
-/

namespace Sys2Proof.Proofs

open Sys2Proof Sys2Proof.Machine

/-- Settles O30, by the kernel's delivery: each entry of the list is that kernel under its own group size and F32. -/
theorem f32EntryPointsDeliver : Obligations.F32EntryPointsDeliver := by
  unfold Obligations.F32EntryPointsDeliver
  intro i gs hi s hok hwf hag
  exact entryPoints_deliver (by decide) hi hok hwf hag

/-- Settles O31, by the kernel's delivery: each entry of the list is that kernel under its own group size and F16. -/
theorem f16EntryPointsDeliver : Obligations.F16EntryPointsDeliver := by
  unfold Obligations.F16EntryPointsDeliver
  intro i gs hi s hok hwf hag
  exact entryPoints_deliver (by decide) hi hok hwf hag

/-- Settles O32, by the kernel's delivery: each entry of the list is that kernel under its own group size and BF16. -/
theorem bf16EntryPointsDeliver : Obligations.Bf16EntryPointsDeliver := by
  unfold Obligations.Bf16EntryPointsDeliver
  intro i gs hi s hok hwf hag
  exact entryPoints_deliver (by decide) hi hok hwf hag

/-- Settles O29: the look shows the launch itself, whose units are in their places. -/
theorem launchCreatesGrid : Obligations.LaunchCreatesGrid := by
  unfold Obligations.LaunchCreatesGrid
  intro i s rest hok ha
  have hunits := launch_unitsOk (gsOk_instr i) hok.cfgOk
  refine ⟨_, exec_launch_look hok ha, rfl, hunits.count, fun row col hrow hcol => hunits.existsUnique_coord hrow hcol,
    fun u hu => ?_⟩
  obtain ⟨col, row, rfl⟩ := mem_gridUnits hu
  simp [WorkUnit.start]

/-- Settles O34: the unit's number among the live ones is such a pick. -/
theorem anyLiveUnitCanMoveNext : Obligations.AnyLiveUnitCanMoveNext := by
  unfold Obligations.AnyLiveUnitCanMoveNext
  intro units j u hj hphase
  exact exists_pickUnit hj (live_iff.mpr hphase)

/-- Settles O36: some premise of the machine's list fails, and the first that does is a violated one. -/
theorem violatedLaunchRefused : Obligations.ViolatedLaunchRefused := by
  unfold Obligations.ViolatedLaunchRefused
  rintro i s hs ⟨r, hr⟩
  obtain ⟨r', hr'⟩ := exists_firstFailing hr
  exact ⟨r', by rw [exec_eq, execQlk_refused hs hr'], firstFailing_violated hr'⟩

/-- Settles O40: the look leaves a dispatch in progress with the remaining steps to take, and the next step takes them. -/
theorem interruptedDispatchDelivers : Obligations.InterruptedDispatchDelivers := by
  unfold Obligations.InterruptedDispatchDelivers
  intro i s before after hi hok hwf hag hlen hpicks hafter
  obtain ⟨s1, hs1, hd, hcfg, hagenda, hleft⟩ := execQlk_launch_look (gsOk_instr i) hok hwf hag hpicks hlen
  rw [← hcfg] at hleft hlen
  obtain ⟨t, ht, hend⟩ := execQlk_running_ends (gsOk_instr i) (hcfg ▸ hok.cfgOk) hd (by omega) (by omega)
    (by rwa [hleft, hagenda, hcfg])
  rw [hcfg] at hend
  exact ⟨s1, t, by rw [exec_eq, hs1], hd.status, by rw [step_of_running hd.status (hcfg ▸ hi), exec_eq, ht], hend.status,
    hend.units, fun row col hrow hcol => hend.result_at hrow hcol, hend.agree⟩

/-- Settles O39: the pick's move is the unit's step, and the look ends the execution there. -/
theorem lookShowsOneUnitStep : Obligations.LookShowsOneUnitStep := by
  unfold Obligations.LookShowsOneUnitStep
  rintro i s pick j u u' m' rest hs ha hpick hj hstep ⟨v, hv, hphase⟩
  have htick := tick_of_pick (s := { s with agenda := .host .look :: rest }) hpick hj hstep ⟨v, hv, live_iff.mpr hphase⟩
  exact exec_pick_look hs ha htick hs rfl

end Sys2Proof.Proofs
end

section
/-!
SUPPORT. The rounded magnitude is the nearest the format has, ties to even (44_numerics.md R135).
-/

namespace Sys2Proof.Machine

/-! ### Rounding to a multiple of a unit -/

/-- No multiple of the unit is nearer than the rounded one, and where another is equally near the quotient is even. -/
theorem nearestEven_nearest (n d m : Nat) :
    ((nearestEven n d * 2 ^ d : Nat) - (n : Int)).natAbs ≤ ((m * 2 ^ d : Nat) - (n : Int)).natAbs ∧
      (((nearestEven n d * 2 ^ d : Nat) - (n : Int)).natAbs = ((m * 2 ^ d : Nat) - (n : Int)).natAbs →
        m ≠ nearestEven n d → nearestEven n d % 2 = 0) := by
  have hn := Nat.div_add_mod' n (2 ^ d)
  have ht := Nat.mod_lt n (Nat.two_pow_pos d)
  have hsucc := Nat.add_one_mul (n / 2 ^ d) (2 ^ d)
  unfold nearestEven
  dsimp only
  rcases Nat.lt_trichotomy m (n / 2 ^ d) with h | rfl | h
  · have hmul := Nat.mul_le_mul_right (2 ^ d) (show m + 1 ≤ n / 2 ^ d from h)
    rw [Nat.add_one_mul] at hmul
    split_ifs <;> omega
  · split_ifs <;> omega
  · rcases Nat.eq_or_lt_of_le (show n / 2 ^ d + 1 ≤ m from h) with rfl | h1
    · split_ifs <;> omega
    · have hmul := Nat.mul_le_mul_right (2 ^ d) (show n / 2 ^ d + 1 + 1 ≤ m from h1)
      rw [Nat.add_one_mul] at hmul
      split_ifs <;> omega

/-- Rounding reaches the even number `2k` from the tie below it on. -/
theorem even_le_nearestEven_iff (n d k : Nat) : 2 * k ≤ nearestEven n d ↔ (4 * k - 1) * 2 ^ d ≤ 2 * n := by
  cases k with
  | zero => simp
  | succ j =>
    have hn := Nat.div_add_mod' n (2 ^ d)
    have ht := Nat.mod_lt n (Nat.two_pow_pos d)
    rw [show 4 * (j + 1) - 1 = 4 * j + 3 by omega]
    unfold nearestEven
    dsimp only
    rcases Nat.lt_trichotomy (n / 2 ^ d) (2 * j + 1) with h | h | h
    · have hmul := Nat.mul_le_mul_right (2 ^ d) (Nat.succ_le_of_lt h)
      simp only [Nat.succ_eq_add_one, Nat.add_mul, Nat.mul_assoc] at *
      split_ifs <;> omega
    · have hmul := congrArg (· * 2 ^ d) h
      simp only [Nat.add_mul, Nat.mul_assoc] at *
      split_ifs <;> omega
    · have hmul := Nat.mul_le_mul_right (2 ^ d) (Nat.succ_le_of_lt h)
      simp only [Nat.succ_eq_add_one, Nat.add_mul, Nat.mul_assoc] at *
      split_ifs <;> omega

/-- A magnitude that the format represents is a multiple of `2^b`, or too small for that: below `2^(F+b)`. -/
theorem two_pow_dvd_mag_or_lt (f : Fmt) (x : Elem) (b : Nat) :
    2 ^ b ∣ f.mag x ∨ 0 < b ∧ f.mag x < 2 ^ (f.fracBits + b) := by
  have hfrac := frac_lt f x
  rcases Nat.eq_zero_or_pos b with rfl | hpos
  · exact .inl (one_dvd _)
  unfold Fmt.mag
  split_ifs with he
  · exact .inr ⟨hpos, hfrac.trans_le (Nat.pow_le_pow_right (by norm_num) (by omega))⟩
  · rcases Nat.lt_or_ge (f.expo x - 1) b with hb | hb
    · refine .inr ⟨hpos, ?_⟩
      calc (2 ^ f.fracBits + f.frac x) * 2 ^ (f.expo x - 1) < 2 ^ (f.fracBits + 1) * 2 ^ (f.expo x - 1) :=
            Nat.mul_lt_mul_of_pos_right (by rw [Nat.pow_succ]; omega) (Nat.two_pow_pos _)
        _ = 2 ^ (f.fracBits + 1 + (f.expo x - 1)) := (Nat.pow_add ..).symm
        _ ≤ 2 ^ (f.fracBits + b) := Nat.pow_le_pow_right (by norm_num) (by omega)
    · exact .inl (Dvd.dvd.mul_left (pow_dvd_pow 2 hb) _)

theorem lsb_le_ulp (f : Fmt) (u mag : Nat) : u - f.lsb ≤ f.ulp u mag := by unfold Fmt.ulp; omega

/-- Above the smallest unit, the unit in the last place is `F` places below the leading bit. -/
theorem log2_of_lsb_lt_ulp {f : Fmt} {u mag : Nat} (h : u - f.lsb < f.ulp u mag) :
    Nat.log2 mag = f.fracBits + f.ulp u mag := by
  unfold Fmt.ulp at *
  omega

theorem two_pow_ulp_le_mag {f : Fmt} {u mag : Nat} (h : u - f.lsb < f.ulp u mag) :
    2 ^ (f.fracBits + f.ulp u mag) ≤ mag := by
  rw [← log2_of_lsb_lt_ulp h]
  exact Nat.log2_self_le (by rintro rfl; simp [Fmt.ulp] at h)

/-- A finite result of rounding is nearest: what the format represents is a multiple of the unit in the last place, or
lies below the leading power of two, which is itself such a multiple. -/
theorem roundFmt_nearest {f : Fmt} (hf : f.Proper) (neg : Bool) {u mag : Nat} (hu : f.lsb ≤ u)
    (hfin : f.isInf (roundFmt f neg u mag) = false) (x : Elem) :
    f.error u mag (roundFmt f neg u mag) ≤ f.error u mag x ∧
      (f.error u mag (roundFmt f neg u mag) = f.error u mag x → f.mag x ≠ f.mag (roundFmt f neg u mag) →
        f.frac (roundFmt f neg u mag) % 2 = 0) := by
  rcases roundFmt_cases hf neg (mag := mag) hu with ⟨-, hinf⟩ | ⟨-, -, -, -, hmag, hfrac⟩
  · rw [hinf, (inf_fields hf neg).2.1] at hfin
    cases hfin
  · have hinj : f.mag x = f.mag (roundFmt f neg u mag) ↔
        f.mag x * 2 ^ (u - f.lsb) = f.mag (roundFmt f neg u mag) * 2 ^ (u - f.lsb) :=
      (Nat.mul_left_inj (Nat.two_pow_pos _).ne').symm
    unfold Fmt.error
    rw [ne_eq, hinj, hmag, hfrac]
    have hsplit : 2 ^ f.ulp u mag = 2 ^ (f.ulp u mag - (u - f.lsb)) * 2 ^ (u - f.lsb) := by
      rw [← Nat.pow_add, Nat.sub_add_cancel (lsb_le_ulp f u mag)]
    rcases two_pow_dvd_mag_or_lt f x (f.ulp u mag - (u - f.lsb)) with ⟨m, hm⟩ | ⟨hpos, hlt⟩
    · have hx : f.mag x * 2 ^ (u - f.lsb) = m * 2 ^ f.ulp u mag := by rw [hm, hsplit]; ring
      rw [hx]
      obtain ⟨hle, htie⟩ := nearestEven_nearest mag (f.ulp u mag) m
      exact ⟨hle, fun heq hne => htie heq fun h => hne (by rw [h])⟩
    · have hlead : 2 ^ f.fracBits * 2 ^ f.ulp u mag ≤ mag := by
        rw [← Nat.pow_add]
        exact two_pow_ulp_le_mag (by omega)
      have hx : f.mag x * 2 ^ (u - f.lsb) < 2 ^ f.fracBits * 2 ^ f.ulp u mag := by
        rw [hsplit, ← Nat.mul_assoc, ← Nat.pow_add]
        exact Nat.mul_lt_mul_of_pos_right hlt (Nat.two_pow_pos _)
      have hle := (nearestEven_nearest mag (f.ulp u mag) (2 ^ f.fracBits)).1
      constructor <;> omega

theorem roundFmt_isNearest (ty : Ty) (neg : Bool) {u mag : Nat} (hu : (fmtOf ty).lsb ≤ u)
    (hfin : (fmtOf ty).isInf (roundFmt (fmtOf ty) neg u mag) = false) :
    IsNearest ty u mag (roundFmt (fmtOf ty) neg u mag) :=
  fun x _ _ _ => roundFmt_nearest (fmtOf_proper ty) neg hu hfin x

end Sys2Proof.Machine
end

section
/-!
SUPPORT. Where rounding leaves the format (44_numerics.md R135, R136): the overflow threshold, and what is too small for
the smallest unit.
-/

namespace Sys2Proof.Machine

theorem mag_lt_two_pow_ulp (f : Fmt) (u mag : Nat) : mag < 2 ^ (f.fracBits + f.ulp u mag + 1) :=
  (log2_lt_pow mag).trans_le (Nat.pow_le_pow_right (by norm_num) (by unfold Fmt.ulp; omega))

/-- A format whose bias leaves room for the fraction, so that half a unit of its largest binade is a natural number (all
three formats are). -/
def Fmt.Wide (f : Fmt) : Prop := f.Proper ∧ f.fracBits + 2 ≤ 2 ^ (f.expBits - 1)

theorem fmtOf_wide (ty : Ty) : (fmtOf ty).Wide := ⟨fmtOf_proper ty, by cases ty <;> decide⟩

/-- Half a unit above the largest finite magnitude, for `|x| = mag · 2^(-u)` (44_numerics.md R135). -/
def Fmt.threshold (f : Fmt) (u : Nat) : Nat :=
  (2 ^ (f.fracBits + 2) - 1) * 2 ^ (2 ^ (f.expBits - 1) - 1 - f.fracBits - 1 + u)

/-- The threshold is `2^(emax+1)` less half the unit `2^(e+1)` of the largest binade. -/
theorem exists_threshold_eq {f : Fmt} (hf : f.Wide) (u : Nat) :
    ∃ e, 2 ^ (f.expBits - 1) + u = f.fracBits + 1 + (e + 1) ∧
      f.threshold u = 2 ^ (f.fracBits + 1 + (e + 1)) - 2 ^ e := by
  obtain ⟨-, hroom⟩ := hf
  refine ⟨2 ^ (f.expBits - 1) - 1 - f.fracBits - 1 + u, by omega, ?_⟩
  rw [Fmt.threshold, Nat.sub_one_mul, ← Nat.pow_add]
  congr 2
  omega

/-- In the binade of unit `2^(e+1)` the tie below the top goes up, to the even significand `2^(F+1)`. -/
theorem two_pow_le_rounded_iff (F e mag : Nat) :
    2 ^ (F + 1 + (e + 1)) ≤ nearestEven mag (e + 1) * 2 ^ (e + 1) ↔ 2 ^ (F + 1 + (e + 1)) - 2 ^ e ≤ mag := by
  have htwice : (4 * 2 ^ F - 1) * 2 ^ (e + 1) = 2 * (2 * 2 ^ F * 2 ^ (e + 1) - 2 ^ e) := by
    rw [Nat.sub_one_mul, Nat.mul_sub, Nat.pow_succ _ e]
    ring_nf
  rw [Nat.pow_add _ (F + 1), Nat.mul_le_mul_right_iff (Nat.two_pow_pos _), Nat.pow_succ' (n := F),
    even_le_nearestEven_iff, htwice, Nat.mul_le_mul_left_iff (by norm_num)]

/-- The rounded magnitude reaches `2^(emax+1)` exactly from the threshold on; only in the largest binade does rounding
decide it. -/
theorem rounded_reaches_iff {f : Fmt} (hf : f.Wide) {u mag : Nat} (hu : f.lsb ≤ u) :
    2 ^ (2 ^ (f.expBits - 1) + u) ≤ nearestEven mag (f.ulp u mag) * 2 ^ f.ulp u mag ↔ f.threshold u ≤ mag := by
  obtain ⟨e, hW, hT⟩ := exists_threshold_eq hf u
  rw [hW, hT]
  rcases Nat.lt_trichotomy (f.ulp u mag) (e + 1) with hd | hd | hd
  · have hr : nearestEven mag (f.ulp u mag) * 2 ^ f.ulp u mag < 2 ^ (f.fracBits + 1 + (e + 1)) := by
      rw [Nat.pow_add _ (f.fracBits + 1)]
      exact Nat.mul_lt_mul_of_le_of_lt (nearestEven_ulp_le f u mag) (Nat.pow_lt_pow_right (by norm_num) hd)
        (Nat.two_pow_pos _)
    have hlt := mag_lt_two_pow_ulp f u mag
    have hle : 2 ^ (f.fracBits + f.ulp u mag + 1) ≤ 2 ^ (f.fracBits + 1 + e) :=
      Nat.pow_le_pow_right (by norm_num) (by omega)
    have hunit : 2 ^ e ≤ 2 ^ (f.fracBits + 1 + e) := Nat.pow_le_pow_right (by norm_num) (by omega)
    have hpow : 2 ^ (f.fracBits + 1 + (e + 1)) = 2 ^ (f.fracBits + 1 + e) * 2 := Nat.pow_succ ..
    exact iff_of_false (Nat.not_le.mpr hr) (by omega)
  · rw [hd]
    exact two_pow_le_rounded_iff f.fracBits e mag
  · have hlsb : f.lsb = 2 ^ (f.expBits - 1) - 2 + f.fracBits := rfl
    have habove : u - f.lsb < f.ulp u mag := by
      obtain ⟨-, hroom⟩ := hf
      omega
    have hle : 2 ^ (f.fracBits + 1 + (e + 1)) ≤ 2 ^ (f.fracBits + f.ulp u mag) :=
      Nat.pow_le_pow_right (by norm_num) (by omega)
    have hr := Nat.mul_le_mul_right (2 ^ f.ulp u mag) (nearestEven_ulp_ge f u mag habove)
    rw [← Nat.pow_add] at hr
    exact iff_of_true (hle.trans hr) ((Nat.sub_le ..).trans (hle.trans (two_pow_ulp_le_mag habove)))

/-- Overflow (44_numerics.md R135, decision D14). -/
theorem roundFmt_isInf_iff {f : Fmt} (hf : f.Wide) (neg : Bool) {u mag : Nat} (hu : f.lsb ≤ u) :
    f.isInf (roundFmt f neg u mag) = true ↔ f.threshold u ≤ mag := by
  rw [← rounded_reaches_iff hf hu]
  rcases roundFmt_cases hf.1 neg (mag := mag) hu with ⟨hge, hr⟩ | ⟨hlt, -, hinf, -⟩
  · exact iff_of_true (hr ▸ (inf_fields hf.1 neg).2.1) hge
  · exact iff_of_false (by simp [hinf]) (Nat.not_le.mpr hlt)

theorem roundFmt_overflow {f : Fmt} (hf : f.Wide) (neg : Bool) {u mag : Nat} (hu : f.lsb ≤ u)
    (h : f.threshold u ≤ mag) : roundFmt f neg u mag = f.inf neg := by
  rw [← rounded_reaches_iff hf hu] at h
  exact if_pos h

/-- Rounding gives no NaN and keeps the sign. -/
theorem roundFmt_sign {f : Fmt} (hf : f.Proper) (neg : Bool) {u : Nat} (mag : Nat) (hu : f.lsb ≤ u) :
    f.isNaN (roundFmt f neg u mag) = false ∧ f.sign (roundFmt f neg u mag) = neg := by
  rcases roundFmt_cases hf neg (mag := mag) hu with ⟨-, hr⟩ | ⟨-, hnan, -, hsign, -⟩
  · obtain ⟨hnan, -, hsign⟩ := inf_fields hf neg
    exact hr ▸ ⟨hnan, hsign⟩
  · exact ⟨hnan, hsign⟩

/-- What is at most half the smallest unit rounds to the zero of its sign. -/
theorem roundFmt_underflow {f : Fmt} (neg : Bool) {u mag : Nat} (h : 2 * mag ≤ 2 ^ (u - f.lsb)) :
    roundFmt f neg u mag = f.zero neg := by
  have hulp : f.ulp u mag = u - f.lsb := by
    by_contra hne
    have hge := two_pow_ulp_le_mag (f := f) (u := u) (mag := mag) (by have := lsb_le_ulp f u mag; omega)
    have hle := Nat.pow_le_pow_right (n := 2) (by norm_num)
      (show u - f.lsb ≤ f.fracBits + f.ulp u mag by have := lsb_le_ulp f u mag; omega)
    have := Nat.two_pow_pos (f.fracBits + f.ulp u mag)
    omega
  have hzero : nearestEven mag (u - f.lsb) = 0 := by
    have hlt : mag < 2 ^ (u - f.lsb) := by have := Nat.two_pow_pos (u - f.lsb); omega
    simp [nearestEven, Nat.div_eq_of_lt hlt, Nat.mod_eq_of_lt hlt, h]
  simp [roundFmt, hulp, hzero, Fmt.zero]

end Sys2Proof.Machine
end

section
/-!
SUPPORT. The conversions (44_numerics.md R131, R136): the cast is one rounding of whatever is no NaN, and widening is
exact.
-/

namespace Sys2Proof.Machine

/-! ### The classes of a pattern exclude each other -/

theorem isNaN_of_isInf {f : Fmt} {x : Elem} (h : f.isInf x = true) : f.isNaN x = false := by
  simp only [Fmt.isInf, Bool.and_eq_true, beq_iff_eq] at h
  simp [Fmt.isNaN, h.2]

theorem isInf_of_isZero {x : F32} (h : binary32.isZero x = true) : binary32.isInf x = false := by
  simp only [Fmt.isZero, Bool.and_eq_true, beq_iff_eq] at h
  have hmax : (0 == binary32.maxExpo) = false := by decide
  simp [Fmt.isInf, h.1, hmax]

theorem isZero_of_isInf {x : F32} (h : binary32.isInf x = true) : binary32.isZero x = false := by
  cases hz : binary32.isZero x with
  | false => rfl
  | true => rw [isInf_of_isZero hz] at h; cases h

/-- An infinity of the format is the infinity pattern of its sign. -/
theorem eq_inf_of_isInf {f : Fmt} {x : Elem} (hx : x.toNat < 2 ^ (f.expBits + f.fracBits + 1)) (h : f.isInf x = true) :
    x = f.inf (f.sign x) := by
  have hfields := pattern_fields hx
  simp only [Fmt.isInf, Bool.and_eq_true, beq_iff_eq] at h
  rw [h.1, h.2] at hfields
  exact hfields.symm

/-! ### Magnitudes -/

theorem mag_of_isZero {f : Fmt} {x : Elem} (h : f.isZero x = true) : f.mag x = 0 := by
  simp only [Fmt.isZero, Bool.and_eq_true, beq_iff_eq] at h
  simp [Fmt.mag, h.1, h.2]

/-- The exponent field bounds the magnitude. -/
theorem mag_lt_of_expo_le {f : Fmt} {x : Elem} {e : Nat} (h : f.expo x ≤ e + 1) :
    f.mag x < 2 ^ (f.fracBits + 1 + e) := by
  have hfrac := frac_lt f x
  have hsig : 2 ^ f.fracBits + f.frac x < 2 ^ (f.fracBits + 1) := by rw [Nat.pow_succ]; omega
  unfold Fmt.mag
  split_ifs with he
  · exact hfrac.trans_le (Nat.pow_le_pow_right (by norm_num) (by omega))
  · rw [Nat.pow_add]
    exact Nat.mul_lt_mul_of_lt_of_le hsig (Nat.pow_le_pow_right (by norm_num) (by omega)) (Nat.two_pow_pos _)

/-- The magnitude's formula reads an infinity of binary32 as `2^128`, beyond every format's threshold. -/
theorem threshold_le_mag_of_isInf (ty : Ty) {x : F32} (h : binary32.isInf x = true) :
    (fmtOf ty).threshold binary32.lsb ≤ binary32.mag x := by
  rw [eq_inf_of_isInf x.isLt h]
  cases ty <;> cases binary32.sign x <;> decide +kernel

/-! ### The cast (R136) -/

theorem lsb_le_binary32 (ty : Ty) : (fmtOf ty).lsb ≤ binary32.lsb := by cases ty <;> decide

theorem cvtOut_nan (ty : Ty) {x : F32} (h : binary32.isNaN x = true) : cvtOut ty x = (fmtOf ty).nan := if_pos h

/-- The cast is one rounding; of zeros and infinities too, whose clauses are what rounding gives. -/
theorem cvtOut_eq_roundFmt (ty : Ty) {x : F32} (hn : binary32.isNaN x = false) :
    cvtOut ty x = roundFmt (fmtOf ty) (binary32.sign x) binary32.lsb (binary32.mag x) := by
  have hinf (h : binary32.isInf x = true) :
      roundFmt (fmtOf ty) (binary32.sign x) binary32.lsb (binary32.mag x) = (fmtOf ty).inf (binary32.sign x) :=
    roundFmt_overflow (fmtOf_wide ty) _ (lsb_le_binary32 ty) (threshold_le_mag_of_isInf ty h)
  have hzero (h : binary32.isZero x = true) :
      roundFmt (fmtOf ty) (binary32.sign x) binary32.lsb (binary32.mag x) = (fmtOf ty).zero (binary32.sign x) :=
    roundFmt_underflow _ (by simp [mag_of_isZero h])
  cases ty with
  | f32 =>
    cases hi : binary32.isInf x with
    | true => exact (if_neg (by simp [hn])).trans ((eq_inf_of_isInf x.isLt hi).trans (hinf hi).symm)
    | false => exact (if_neg (by simp [hn])).trans (roundFmt_self hn hi).symm
  | f16 | bf16 =>
    simp only [cvtOut, hn, Bool.false_eq_true, if_false]
    split_ifs with hi hz
    · exact (hinf hi).symm
    · exact (hzero hz).symm
    · rfl

theorem cvtOut_of_isInf (ty : Ty) {x : F32} (h : binary32.isInf x = true) :
    cvtOut ty x = (fmtOf ty).inf (binary32.sign x) := by
  rw [cvtOut_eq_roundFmt ty (isNaN_of_isInf h)]
  exact roundFmt_overflow (fmtOf_wide ty) _ (lsb_le_binary32 ty) (threshold_le_mag_of_isInf ty h)

/-- The cast of what is no NaN is none, and keeps the sign. -/
theorem cvtOut_sign (ty : Ty) {x : F32} (hn : binary32.isNaN x = false) :
    (fmtOf ty).isNaN (cvtOut ty x) = false ∧ (fmtOf ty).sign (cvtOut ty x) = binary32.sign x := by
  rw [cvtOut_eq_roundFmt ty hn]
  exact roundFmt_sign (fmtOf_proper ty) _ _ (lsb_le_binary32 ty)

theorem cvtOut_isInf_iff (ty : Ty) {x : F32} (hn : binary32.isNaN x = false) :
    (fmtOf ty).isInf (cvtOut ty x) = true ↔ (fmtOf ty).threshold binary32.lsb ≤ binary32.mag x := by
  rw [cvtOut_eq_roundFmt ty hn]
  exact roundFmt_isInf_iff (fmtOf_wide ty) _ (lsb_le_binary32 ty)

theorem cvtOut_isNearest (ty : Ty) {x : F32} (hn : binary32.isNaN x = false)
    (hfin : (fmtOf ty).isInf (cvtOut ty x) = false) : IsNearest ty binary32.lsb (binary32.mag x) (cvtOut ty x) := by
  rw [cvtOut_eq_roundFmt ty hn] at hfin ⊢
  exact roundFmt_isNearest ty _ (lsb_le_binary32 ty) hfin

theorem threshold_binary16 : binary16.threshold binary32.lsb = 65520 * 2 ^ binary32.lsb := by decide

theorem cvtOut_f16_finite {x : F32} (hn : binary32.isNaN x = false) (hlt : binary32.mag x < 65520 * 2 ^ binary32.lsb) :
    binary16.isInf (cvtOut .f16 x) = false := by
  rw [← threshold_binary16] at hlt
  exact Bool.eq_false_iff.mpr fun h => Nat.not_le.mpr hlt ((cvtOut_isInf_iff .f16 hn).mp h)

/-! ### Widening (R131) -/

/-- What a narrower format represents is a multiple of the wider format's unit in the last place. -/
theorem two_pow_ulp_dvd_mag {f g : Fmt} (hF : f.fracBits ≤ g.fracBits) (x : Elem) (k : Nat) :
    2 ^ g.ulp g.lsb (f.mag x * 2 ^ k) ∣ f.mag x * 2 ^ k := by
  obtain ⟨d, hd⟩ : ∃ d, g.ulp g.lsb (f.mag x * 2 ^ k) = d := ⟨_, rfl⟩
  rw [hd]
  rcases Nat.le_total d k with h | h
  · exact Dvd.dvd.mul_left (pow_dvd_pow 2 h) _
  · rcases two_pow_dvd_mag_or_lt f x (d - k) with hdvd | ⟨hpos, hlt⟩
    · have := Nat.mul_dvd_mul_right hdvd (2 ^ k)
      rwa [← Nat.pow_add, Nat.sub_add_cancel h] at this
    · have hge := two_pow_ulp_le_mag (f := g) (u := g.lsb) (mag := f.mag x * 2 ^ k) (by omega)
      have hle := Nat.mul_lt_mul_of_pos_right hlt (Nat.two_pow_pos k)
      rw [← Nat.pow_add] at hle
      have := Nat.pow_le_pow_right (n := 2) (by norm_num) (show f.fracBits + (d - k) + k ≤ g.fracBits + d by omega)
      rw [hd] at hge
      omega

/-- A widened element `y` is exactly the stored element `x` (property P-exact-in of R141). -/
structure Widens (ty : Ty) (x : Elem) (y : F32) : Prop where
  notNaN : binary32.isNaN y = false
  sign : binary32.sign y = (fmtOf ty).sign x
  inf : binary32.isInf y = (fmtOf ty).isInf x
  mag : (fmtOf ty).isInf x = false → binary32.mag y = (fmtOf ty).mag x * 2 ^ (binary32.lsb - (fmtOf ty).lsb)

theorem cvtIn_nan {ty : Ty} {x : Elem} (h : (fmtOf ty).isNaN x = true) : cvtIn ty x = binary32.nan := if_pos h

/-- bfloat16 is the upper half of binary32. -/
theorem shiftLeft_fields (x : Elem) :
    binary32.sign (x <<< 16) = bfloat16.sign x ∧ binary32.expo (x <<< 16) = bfloat16.expo x ∧
      binary32.frac (x <<< 16) = bfloat16.frac x * 2 ^ 16 := by
  simp only [Fmt.sign, Fmt.expo, Fmt.frac, binary32, bfloat16, BitVec.toNat_shiftLeft, Nat.shiftLeft_eq]
  refine ⟨?_, by omega, by omega⟩
  congr 1
  omega

theorem shiftLeft_widens {x : Elem} (hn : bfloat16.isNaN x = false) : Widens .bf16 x (x <<< 16) := by
  obtain ⟨hsign, hexpo, hfrac⟩ := shiftLeft_fields x
  have hzero : (bfloat16.frac x * 2 ^ 16 == 0) = (bfloat16.frac x == 0) := by
    rw [Bool.eq_iff_iff]
    simp
  refine ⟨?_, hsign, ?_, fun _ => ?_⟩
  · rw [← hn]
    simp only [Fmt.isNaN, hexpo, hfrac, bne, hzero]
    rfl
  · simp only [Fmt.isInf, hexpo, hfrac, hzero]
    rfl
  · have hshift : binary32.lsb - (fmtOf .bf16).lsb = 16 := by decide
    have hlead : 2 ^ binary32.fracBits = 2 ^ bfloat16.fracBits * 2 ^ 16 := by decide
    rw [hshift]
    by_cases he : bfloat16.expo x = 0
    · simp only [Fmt.mag, fmtOf, hexpo, hfrac, he, if_true]
    · simp only [Fmt.mag, fmtOf, hexpo, hfrac, hlead, he, if_false]
      ring

/-- A finite binary16 magnitude is far below the largest of binary32. -/
theorem mag_f16_lt {x : Elem} (hn : binary16.isNaN x = false) (hi : binary16.isInf x = false) :
    binary16.mag x * 2 ^ (binary32.lsb - binary16.lsb) < 2 ^ (2 ^ (binary32.expBits - 1) + binary32.lsb) := by
  have hmag := Nat.mul_lt_mul_of_pos_right (mag_lt_of_expo_le (e := 29) (Nat.le_of_lt_succ (expo_lt_max hn hi)))
    (Nat.two_pow_pos (binary32.lsb - binary16.lsb))
  rw [← Nat.pow_add] at hmag
  exact hmag.trans_le (Nat.pow_le_pow_right (by norm_num) (by decide))

/-- Finite binary16 patterns widen by a rounding that has nothing to round; zeros too. -/
theorem cvtIn_f16_finite {x : Elem} (hn : binary16.isNaN x = false) (hi : binary16.isInf x = false) :
    cvtIn .f16 x = roundFmt binary32 (binary16.sign x) binary32.lsb
      (binary16.mag x * 2 ^ (binary32.lsb - binary16.lsb)) := by
  simp only [cvtIn, fmtOf, hn, hi, Bool.false_eq_true, if_false]
  split_ifs with hz
  · exact (roundFmt_underflow _ (by simp [mag_of_isZero hz])).symm
  · rfl

/-- `cvt_in` is exact on everything but NaNs. -/
theorem cvtIn_widens {ty : Ty} {x : Elem} (hn : (fmtOf ty).isNaN x = false) : Widens ty x (cvtIn ty x) := by
  cases ty with
  | f32 =>
    have h : cvtIn .f32 x = x := if_neg (by simp [hn])
    rw [h]
    exact ⟨hn, rfl, rfl, fun _ => by simp [fmtOf]⟩
  | bf16 =>
    have h : cvtIn .bf16 x = x <<< 16 := if_neg (by simp [hn])
    rw [h]
    exact shiftLeft_widens hn
  | f16 =>
    change binary16.isNaN x = false at hn
    cases hi : binary16.isInf x with
    | true =>
      have h : cvtIn .f16 x = binary32.inf (binary16.sign x) := by simp [cvtIn, fmtOf, hn, hi]
      obtain ⟨hnan, hinf, hsign⟩ := inf_fields binary32_proper (binary16.sign x)
      rw [h]
      exact ⟨hnan, hsign, hinf.trans hi.symm, fun h => absurd (hi.symm.trans h) (by simp)⟩
    | false =>
      obtain ⟨hnan, hinf, hsign, hmag⟩ := roundFmt_exact binary32_proper (binary16.sign x) le_rfl
        (two_pow_ulp_dvd_mag (by decide) x _) (mag_f16_lt hn hi)
      rw [cvtIn_f16_finite hn hi]
      exact ⟨hnan, hsign, hinf.trans hi.symm, fun _ => by simpa [fmtOf] using hmag⟩

/-- Casting back what was widened: rounding returns what the format represents. -/
theorem cvtOut_cvtIn {ty : Ty} {x : Elem} (hx : x.toNat < 256 ^ ty.bytes) (hn : (fmtOf ty).isNaN x = false) :
    cvtOut ty (cvtIn ty x) = x := by
  obtain ⟨hnan, hsign, hinf, hmag⟩ := cvtIn_widens hn
  have hbits : x.toNat < 2 ^ ((fmtOf ty).expBits + (fmtOf ty).fracBits + 1) := by cases ty <;> exact hx
  cases hi : (fmtOf ty).isInf x with
  | true => rw [cvtOut_of_isInf ty (hinf.trans hi), hsign, ← eq_inf_of_isInf hbits hi]
  | false =>
    rw [cvtOut_eq_roundFmt ty hnan, hsign, hmag hi]
    exact roundFmt_mag (fmtOf_proper ty) hbits (expo_lt_max hn hi) (lsb_le_binary32 ty)

end Sys2Proof.Machine
end

section
/-!
SUPPORT. `u2f` (44_numerics.md R132), and multiplication and addition by the class of the operands (R133, R134): one
equation per clause, and that what they give as a NaN is the canonical one (R130).
-/

namespace Sys2Proof.Machine

variable {x y : F32}

theorem inf_eq_ite (neg : Bool) : binary32.inf neg = if neg then 0xFF800000#32 else 0x7F800000#32 := by
  cases neg <;> decide

theorem zero_eq_ite (neg : Bool) : binary32.zero neg = if neg then 0x80000000#32 else 0x00000000#32 := by
  cases neg <;> decide

theorem binary32_wide : binary32.Wide := fmtOf_wide .f32

theorem threshold_binary32 (u : Nat) : binary32.threshold u = (2 ^ 25 - 1) * 2 ^ (103 + u) := rfl

/-- Not NaN, or the canonical NaN: what R130 allows a primitive of the format to deliver. -/
def Fmt.Canonical (f : Fmt) (x : Elem) : Prop := f.isNaN x = true → x = f.nan

theorem canonical_nan (f : Fmt) : f.Canonical f.nan := fun _ => rfl

theorem canonical_of_notNaN {f : Fmt} {x : Elem} (h : f.isNaN x = false) : f.Canonical x := fun hn => by
  rw [h] at hn
  cases hn

theorem canonical_roundFmt (neg : Bool) {u : Nat} (mag : Nat) (hu : binary32.lsb ≤ u) :
    binary32.Canonical (roundFmt binary32 neg u mag) :=
  canonical_of_notNaN (roundFmt_sign binary32_proper neg mag hu).1

theorem canonical_zero (neg : Bool) : binary32.Canonical (binary32.zero neg) := canonical_of_notNaN (zero_fields neg).1

theorem canonical_inf (neg : Bool) : binary32.Canonical (binary32.inf neg) :=
  canonical_of_notNaN (inf_fields binary32_proper neg).1

/-! ### u2f (R132) -/

/-- A code with its top bit, at `h`, moved to place 23 is a significand of binary32; the rule's fraction is the rest. -/
theorem code_significand {w : Code} {h : Nat} (hle : 2 ^ h ≤ w.toNat) (hlt : w.toNat < 2 ^ (h + 1)) :
    h < 6 ∧ 2 ^ 23 ≤ w.toNat * 2 ^ (23 - h) ∧ w.toNat * 2 ^ (23 - h) < 2 ^ 24 ∧
      (w.toNat - 2 ^ h) * 2 ^ (23 - h) = w.toNat * 2 ^ (23 - h) - 2 ^ 23 := by
  have hh : h < 6 := (Nat.pow_lt_pow_iff_right (a := 2) (by norm_num)).mp (hle.trans_lt w.isLt)
  have htop : 2 ^ h * 2 ^ (23 - h) = 2 ^ 23 := by rw [← Nat.pow_add, Nat.add_sub_cancel' (by omega)]
  have hge := Nat.mul_le_mul_right (2 ^ (23 - h)) hle
  have hup := Nat.mul_lt_mul_of_pos_right hlt (Nat.two_pow_pos (23 - h))
  rw [Nat.pow_succ', Nat.mul_assoc, htop] at hup
  exact ⟨hh, htop ▸ hge, hup, by rw [Nat.sub_mul, htop]⟩

/-- The rule's exponent and fraction. -/
theorem u2f_toNat {w : Code} {h : Nat} (hle : 2 ^ h ≤ w.toNat) (hlt : w.toNat < 2 ^ (h + 1)) :
    (u2f w).toNat = (127 + h) * 2 ^ 23 + (w.toNat - 2 ^ h) * 2 ^ (23 - h) := by
  obtain ⟨hh, hge, hup, hrest⟩ := code_significand hle hlt
  have hne : w.toNat ≠ 0 := by
    have := Nat.two_pow_pos h
    omega
  have hlog : Nat.log2 w.toNat = h := (Nat.log2_eq_iff hne).mpr ⟨hle, hlt⟩
  have hfrac : (w.toNat - 2 ^ h) <<< (23 - h) < 2 ^ 23 := by
    rw [Nat.shiftLeft_eq, hrest]
    omega
  unfold u2f
  rw [if_neg hne, hlog]
  dsimp only
  rw [← Nat.shiftLeft_add_eq_or_of_lt hfrac, BitVec.toNat_ofNat, Nat.shiftLeft_eq, Nat.shiftLeft_eq]
  omega

/-- No code loses a bit: its value is the pattern's significand at the pattern's exponent. -/
theorem u2f_exact (w : Code) :
    binary32.sign (u2f w) = false ∧ binary32.isNaN (u2f w) = false ∧ binary32.isInf (u2f w) = false ∧
      binary32.mag (u2f w) = w.toNat * 2 ^ binary32.lsb := by
  by_cases hw : w.toNat = 0
  · have hzero : u2f w = binary32.zero false := if_pos hw
    obtain ⟨hnan, hinf, hz, hsign⟩ := zero_fields false
    rw [hzero, hw, mag_of_isZero hz, Nat.zero_mul]
    exact ⟨hsign, hnan, hinf, rfl⟩
  · obtain ⟨h, hh⟩ : ∃ h, Nat.log2 w.toNat = h := ⟨_, rfl⟩
    obtain ⟨hle, hlt⟩ := (Nat.log2_eq_iff hw).mp hh
    obtain ⟨hlt6, hge, hup, hrest⟩ := code_significand hle hlt
    have hmant : w.toNat * 2 ^ (23 - h) + (126 + h) * 2 ^ 23 < 255 * 2 ^ 23 := by omega
    have hpattern : u2f w = binary32.pattern false (w.toNat * 2 ^ (23 - h) + (126 + h) * 2 ^ 23) := by
      apply BitVec.eq_of_toNat_eq
      rw [u2f_toNat hle hlt, pattern_toNat binary32_proper (hmant.trans (by decide)), hrest, if_neg (by simp)]
      omega
    obtain ⟨hnan, hinf⟩ := finite_pattern binary32_proper hmant false
    rw [hpattern]
    refine ⟨sign_pattern binary32_proper (hmant.trans (by decide)) _, hnan, hinf, ?_⟩
    have hmag := mag_mant binary32_proper hup.le (fun _ => hge) (hmant.trans (by decide)) false
    refine hmag.trans ?_
    rw [Nat.mul_assoc, ← Nat.pow_add, show 23 - h + (126 + h) = 149 by omega]
    rfl

/-! ### fmul (R133) -/

theorem fmul_comm (x y : F32) : fmul x y = fmul y x := by
  have hinvalid : (binary32.isInf x && binary32.isZero y || binary32.isZero x && binary32.isInf y) =
      (binary32.isInf y && binary32.isZero x || binary32.isZero y && binary32.isInf x) := by
    rw [Bool.or_comm, Bool.and_comm (binary32.isZero x), Bool.and_comm (binary32.isInf x)]
  simp only [fmul, hinvalid, bne_comm (a := binary32.sign x), Bool.or_comm (binary32.isNaN x),
    Bool.or_comm (binary32.isInf x), Bool.or_comm (binary32.isZero x), Nat.mul_comm (binary32.mag x)]

theorem fmul_nan (h : binary32.isNaN x = true ∨ binary32.isNaN y = true) : fmul x y = binary32.nan :=
  if_pos (by simpa using h)

theorem fmul_inf_zero (hx : binary32.isInf x = true) (hy : binary32.isZero y = true) : fmul x y = binary32.nan := by
  simp [fmul, hx, hy]

theorem fmul_inf (hx : binary32.isInf x = true) (hyn : binary32.isNaN y = false) (hy : binary32.isZero y = false) :
    fmul x y = binary32.inf (binary32.sign x != binary32.sign y) := by
  simp [fmul, isNaN_of_isInf hx, hyn, hx, hy, isZero_of_isInf hx]

theorem fmul_zero_finite (hx : binary32.isZero x = true) (hxn : binary32.isNaN x = false)
    (hyn : binary32.isNaN y = false) (hy : binary32.isInf y = false) :
    fmul x y = binary32.zero (binary32.sign x != binary32.sign y) := by
  simp [fmul, hxn, hyn, hx, hy, isInf_of_isZero hx]

/-- The exact product of finite non-zero operands, in units of `2^(-298)`, rounded once. -/
theorem fmul_finite (hxn : binary32.isNaN x = false) (hyn : binary32.isNaN y = false) (hxi : binary32.isInf x = false)
    (hyi : binary32.isInf y = false) (hxz : binary32.isZero x = false) (hyz : binary32.isZero y = false) :
    fmul x y = roundFmt binary32 (binary32.sign x != binary32.sign y) 298 (binary32.mag x * binary32.mag y) := by
  simp only [fmul, hxn, hyn, hxi, hyi, hxz, hyz, Bool.or_self, Bool.and_self, Bool.false_eq_true, if_false]
  rfl

theorem fmul_canonical (x y : F32) : binary32.Canonical (fmul x y) := by
  unfold fmul
  dsimp only
  split_ifs
  · exact canonical_nan _
  · exact canonical_nan _
  · exact canonical_inf _
  · exact canonical_zero _
  · exact canonical_roundFmt _ _ (by decide)

/-! ### fadd (R134) -/

theorem fadd_nan (h : binary32.isNaN x = true ∨ binary32.isNaN y = true) : fadd x y = binary32.nan :=
  if_pos (by simpa using h)

theorem fadd_opposite_infs (hx : binary32.isInf x = true) (hy : binary32.isInf y = true)
    (h : binary32.sign x ≠ binary32.sign y) : fadd x y = binary32.nan := by
  simp [fadd, hx, hy, h]

/-- An infinity absorbs what is finite and an infinity of its sign. -/
theorem fadd_inf (hx : binary32.isInf x = true) (hyn : binary32.isNaN y = false)
    (h : binary32.isInf y = true → binary32.sign y = binary32.sign x) : fadd x y = x := by
  cases hy : binary32.isInf y with
  | true => simp [fadd, isNaN_of_isInf hx, hyn, hx, hy, h hy]
  | false => simp [fadd, isNaN_of_isInf hx, hyn, hx, hy]

theorem eq_of_isInf (hx : binary32.isInf x = true) (hy : binary32.isInf y = true)
    (h : binary32.sign x = binary32.sign y) : x = y := by
  rw [eq_inf_of_isInf x.isLt hx, h, ← eq_inf_of_isInf y.isLt hy]

/-- Commutative: of the operands the definition distinguishes, two infinities of one sign are the same pattern. -/
theorem fadd_comm (x y : F32) : fadd x y = fadd y x := by
  cases hxn : binary32.isNaN x with
  | true => rw [fadd_nan (.inl hxn), fadd_nan (.inr hxn)]
  | false =>
  cases hyn : binary32.isNaN y with
  | true => rw [fadd_nan (.inr hyn), fadd_nan (.inl hyn)]
  | false =>
  cases hxi : binary32.isInf x <;> cases hyi : binary32.isInf y
  · simp [fadd, hxn, hyn, hxi, hyi, Bool.and_comm, Int.add_comm]
  · simp [fadd, hxn, hyn, hxi, hyi]
  · simp [fadd, hxn, hyn, hxi, hyi]
  · by_cases h : binary32.sign x = binary32.sign y
    · rw [eq_of_isInf hxi hyi h]
    · rw [fadd_opposite_infs hxi hyi h, fadd_opposite_infs hyi hxi (Ne.symm h)]

theorem fadd_zeros (hx : binary32.isZero x = true) (hy : binary32.isZero y = true) :
    fadd x y = binary32.zero (binary32.sign x && binary32.sign y) := by
  rw [← fadd_zero_zero, ← eq_zero_of_isZero hx, ← eq_zero_of_isZero hy]

theorem signedMag_eq_zero_of_isZero (h : binary32.isZero x = true) : signedMag x = 0 := by
  rw [eq_zero_of_isZero h, signedMag_zero]

/-- Finite operands whose exact sum is not 0: that sum, in units of `2^(-149)`, rounded once. -/
theorem fadd_finite (hxn : binary32.isNaN x = false) (hyn : binary32.isNaN y = false) (hxi : binary32.isInf x = false)
    (hyi : binary32.isInf y = false) (hsum : signedMag x + signedMag y ≠ 0) :
    fadd x y = roundFmt binary32 (decide (signedMag x + signedMag y < 0)) 149 (signedMag x + signedMag y).natAbs := by
  have hz : (binary32.isZero x && binary32.isZero y) = false := by
    rw [Bool.eq_false_iff]
    intro h
    rw [Bool.and_eq_true] at h
    exact hsum (by rw [signedMag_eq_zero_of_isZero h.1, signedMag_eq_zero_of_isZero h.2]; rfl)
  simp only [fadd, hxn, hyn, hxi, hyi, hz, hsum, Bool.or_self, Bool.and_self, Bool.false_and, Bool.false_eq_true,
    if_false]
  rfl

/-- Exact cancellation of what is no zero. -/
theorem fadd_cancel (hxn : binary32.isNaN x = false) (hyn : binary32.isNaN y = false) (hxi : binary32.isInf x = false)
    (hyi : binary32.isInf y = false) (hxz : binary32.isZero x = false) (hsum : signedMag x + signedMag y = 0) :
    fadd x y = binary32.zero false := by
  simp [fadd, hxn, hyn, hxi, hyi, hxz, hsum]

theorem fadd_canonical (x y : F32) : binary32.Canonical (fadd x y) := by
  unfold fadd
  dsimp only
  split_ifs
  · exact canonical_nan _
  · exact canonical_nan _
  · exact canonical_of_notNaN (isNaN_of_isInf ‹_›)
  · exact canonical_of_notNaN (isNaN_of_isInf ‹_›)
  · exact canonical_zero _
  · exact canonical_zero _
  · exact canonical_roundFmt _ _ le_rfl

/-! ### The conversions (R131, R136) -/

theorem cvtIn_canonical (ty : Ty) (x : Elem) : binary32.Canonical (cvtIn ty x) := by
  cases hn : (fmtOf ty).isNaN x with
  | true => exact cvtIn_nan hn ▸ canonical_nan _
  | false => exact canonical_of_notNaN (cvtIn_widens hn).notNaN

theorem cvtOut_canonical (ty : Ty) (x : F32) : (fmtOf ty).Canonical (cvtOut ty x) := by
  cases hn : binary32.isNaN x with
  | true => exact cvtOut_nan ty hn ▸ canonical_nan _
  | false => exact canonical_of_notNaN (cvtOut_sign ty hn).1

end Sys2Proof.Machine
end

section
/-!
SUPPORT. The cast to bfloat16 on bits (44_numerics.md R136): rounding the significand is rounding the whole pattern to
its upper half, the exponent field carried along.
-/

namespace Sys2Proof.Machine

/-- Rounding does not depend on the unit the number and the place are counted in. -/
theorem nearestEven_scale (n d k : Nat) : nearestEven (n * 2 ^ k) (d + k) = nearestEven n d := by
  have hk := Nat.two_pow_pos k
  unfold nearestEven
  rw [Nat.pow_add, Nat.mul_div_mul_right _ _ hk, Nat.mul_mod_mul_right]
  dsimp only
  simp only [← Nat.mul_assoc, Nat.mul_lt_mul_right hk]

/-- Even multiples of the unit pass through rounding. -/
theorem nearestEven_add_even (n d k : Nat) : nearestEven (n + 2 * k * 2 ^ d) d = nearestEven n d + 2 * k := by
  unfold nearestEven
  rw [Nat.add_mul_div_right _ _ (Nat.two_pow_pos d), Nat.add_mul_mod_self_right]
  dsimp only
  split_ifs <;> omega

/-- Below `2^(emax+1)` rounding needs no clause for overflow: a carry out of the largest binade is the infinity's own
pattern. -/
theorem roundFmt_eq_pattern {f : Fmt} (hf : f.Proper) (neg : Bool) {u mag : Nat} (hu : f.lsb ≤ u)
    (hlt : mag < 2 ^ (2 ^ (f.expBits - 1) + u)) :
    roundFmt f neg u mag =
      f.pattern neg (nearestEven mag (f.ulp u mag) + (f.ulp u mag - (u - f.lsb)) * 2 ^ f.fracBits) := by
  unfold roundFmt
  dsimp only
  split_ifs with h
  · obtain ⟨hE, -, -⟩ := hf
    have htwo : 2 ^ f.expBits = 2 * 2 ^ (f.expBits - 1) := (mul_pow_sub_one (by omega) 2).symm
    have hbias := Nat.pow_le_pow_right (n := 2) (by norm_num) (show 1 ≤ f.expBits - 1 by omega)
    have hlsb : f.lsb = 2 ^ (f.expBits - 1) - 2 + f.fracBits := rfl
    have hup := nearestEven_ulp_le f u mag
    have hreach : 2 ^ (f.expBits - 1) + u ≤ f.fracBits + 1 + f.ulp u mag := by
      rw [← Nat.pow_le_pow_iff_right (a := 2) (by norm_num), Nat.pow_add _ (f.fracBits + 1)]
      exact h.trans (Nat.mul_le_mul_right _ hup)
    have htop : f.fracBits + f.ulp u mag < 2 ^ (f.expBits - 1) + u := by
      rw [← Nat.pow_lt_pow_iff_right (a := 2) (by norm_num)]
      exact (two_pow_ulp_le_mag (by omega)).trans_lt hlt
    have hd : 2 ^ (f.expBits - 1) + u = f.fracBits + 1 + f.ulp u mag := by omega
    have hr : nearestEven mag (f.ulp u mag) = 2 ^ (f.fracBits + 1) := by
      rw [hd, Nat.pow_add _ (f.fracBits + 1)] at h
      exact Nat.le_antisymm hup (Nat.le_of_mul_le_mul_right h (Nat.two_pow_pos _))
    have hmax : f.maxExpo = 2 + (f.ulp u mag - (u - f.lsb)) := by unfold Fmt.maxExpo; omega
    rw [hr, Fmt.inf, hmax, Nat.add_mul, Nat.pow_succ']
  · rfl

/-- A pattern read as a significand at an exponent step: the two fields together, and the magnitude. -/
theorem exists_significand (f : Fmt) (x : Elem) :
    ∃ sig b, f.mag x = sig * 2 ^ b ∧ f.expo x * 2 ^ f.fracBits + f.frac x = sig + b * 2 ^ f.fracBits ∧
      sig < 2 ^ (f.fracBits + 1) ∧ (0 < b → 2 ^ f.fracBits ≤ sig) := by
  have hfrac := frac_lt f x
  have hpow := Nat.pow_succ 2 f.fracBits
  unfold Fmt.mag
  split_ifs with he
  · exact ⟨f.frac x, 0, by simp, by simp [he], by omega, by omega⟩
  · obtain ⟨b, hb⟩ : ∃ b, f.expo x = b + 1 := ⟨f.expo x - 1, by omega⟩
    refine ⟨2 ^ f.fracBits + f.frac x, b, by simp [hb], ?_, by omega, by omega⟩
    rw [hb]
    ring

/-- Between binary32 and bfloat16, of one exponent range, the unit in the last place is 16 places up. -/
theorem ulp_bfloat16 {sig b : Nat} (hlt : sig < 2 ^ 24) (hge : 0 < b → 2 ^ 23 ≤ sig) :
    bfloat16.ulp binary32.lsb (sig * 2 ^ b) = 16 + b := by
  have hulp : bfloat16.ulp binary32.lsb (sig * 2 ^ b) = max (Nat.log2 (sig * 2 ^ b)) 23 - 7 := rfl
  rw [hulp]
  have hb := Nat.two_pow_pos b
  rcases Nat.eq_zero_or_pos sig with rfl | hsig
  · have : b = 0 := by omega
    subst this
    rfl
  have hne : sig * 2 ^ b ≠ 0 := (Nat.mul_pos hsig hb).ne'
  have hle : Nat.log2 (sig * 2 ^ b) < 24 + b := by
    rw [Nat.log2_lt hne, Nat.pow_add]
    exact Nat.mul_lt_mul_of_pos_right hlt hb
  rcases Nat.eq_zero_or_pos b with rfl | hpos
  · omega
  · have : 23 + b ≤ Nat.log2 (sig * 2 ^ b) := by
      rw [Nat.le_log2 hne, Nat.pow_add]
      exact Nat.mul_le_mul_right _ (hge hpos)
    omega

theorem bfloat16_proper : bfloat16.Proper := fmtOf_proper .bf16

/-- The exponent and fraction fields of a finite number, read together, are what the cast rounds. -/
theorem roundFmt_bfloat16 {x : F32} (hexpo : binary32.expo x < 255) :
    roundFmt bfloat16 (binary32.sign x) binary32.lsb (binary32.mag x) =
      bfloat16.pattern (binary32.sign x) (nearestEven (binary32.expo x * 2 ^ 23 + binary32.frac x) 16) := by
  have hlsb : bfloat16.lsb ≤ binary32.lsb := lsb_le_binary32 .bf16
  have hbelow : binary32.mag x < 2 ^ (2 ^ (bfloat16.expBits - 1) + binary32.lsb) :=
    (mag_lt_of_expo_le (e := 253) (by omega)).trans_le (Nat.pow_le_pow_right (by norm_num) (by decide))
  obtain ⟨sig, b, hmag, hfields, hlt, hge⟩ := exists_significand binary32 x
  have hstep : sig + b * 2 ^ 23 = sig + 2 * (64 * b) * 2 ^ 16 := by omega
  have hplaces : 16 + b - (binary32.lsb - bfloat16.lsb) = b := Nat.add_sub_cancel_left ..
  rw [roundFmt_eq_pattern bfloat16_proper _ hlsb hbelow, hmag, ulp_bfloat16 hlt hge, nearestEven_scale, hplaces,
    show binary32.expo x * 2 ^ 23 + binary32.frac x = sig + b * 2 ^ 23 from hfields, hstep, nearestEven_add_even]
  congr 2
  change b * 2 ^ 7 = _
  omega

/-- The cast to bfloat16 rounds the pattern itself to its upper half. -/
theorem cvtOut_bf16_toNat {x : F32} (hn : binary32.isNaN x = false) :
    (cvtOut .bf16 x).toNat = nearestEven x.toNat 16 := by
  cases hi : binary32.isInf x with
  | true =>
    rw [cvtOut_of_isInf .bf16 hi, eq_inf_of_isInf x.isLt hi]
    cases binary32.sign x <;> decide
  | false =>
    have hexpo : binary32.expo x < 255 := expo_lt_max hn hi
    have hfrac : binary32.frac x < 2 ^ 23 := frac_lt binary32 x
    obtain ⟨low, hlow⟩ : ∃ low, binary32.expo x * 2 ^ 23 + binary32.frac x = low := ⟨_, rfl⟩
    have hx : (binary32.pattern (binary32.sign x) low).toNat = x.toNat :=
      congrArg BitVec.toNat (hlow ▸ pattern_fields (f := binary32) x.isLt)
    rw [pattern_toNat binary32_proper (show low < 2 ^ 31 by omega)] at hx
    have hmant : nearestEven low 16 < 2 ^ 15 := by
      have := (nearestEven_bounds low 16).2
      omega
    rw [cvtOut_eq_roundFmt .bf16 hn, fmtOf, roundFmt_bfloat16 hexpo, hlow, pattern_toNat bfloat16_proper hmant, ← hx]
    cases binary32.sign x with
    | false => simp
    | true =>
      change 2 ^ 15 + nearestEven low 16 = nearestEven (2 ^ 31 + low) 16
      rw [show 2 ^ 31 + low = low + 2 * 2 ^ 14 * 2 ^ 16 by omega, nearestEven_add_even]
      omega

end Sys2Proof.Machine
end

section
/-!
PROOFS. The statements of the numerics (44_numerics.md): rounding, the conversions, multiplication and addition.
-/

namespace Sys2Proof.Proofs

open Sys2Proof Sys2Proof.Machine

/-- Settles O19: a code is a significand with its top bit moved to place 23. -/
theorem u2fIsExact : Obligations.U2fIsExact := by
  unfold Obligations.U2fIsExact
  exact ⟨u2f_exact, by decide, fun _ _ hle hlt => u2f_toNat hle hlt, by decide, by decide, by decide, by decide⟩

/-- Settles O22: the general facts of rounding, for the three formats. -/
theorem roundingIsNearestEven : Obligations.RoundingIsNearestEven := by
  unfold Obligations.RoundingIsNearestEven
  intro ty neg u mag hu
  obtain ⟨hnan, hsign⟩ := roundFmt_sign (fmtOf_proper ty) neg mag hu
  exact ⟨hnan, hsign, roundFmt_isNearest ty neg hu⟩

/-- Settles O23: the obligation's bound is `Fmt.threshold`. -/
theorem overflowThreshold : Obligations.OverflowThreshold := by
  unfold Obligations.OverflowThreshold
  exact fun ty neg u mag hu => roundFmt_isInf_iff (fmtOf_wide ty) neg hu

/-- Settles O18: what is no NaN is widened exactly. -/
theorem cvtInIsExact : Obligations.CvtInIsExact := by
  unfold Obligations.CvtInIsExact
  intro ty x _
  refine ⟨fun hn => cvtIn_nan hn, fun hn => ?_⟩
  obtain ⟨hnan, hsign, hinf, hmag⟩ := cvtIn_widens hn
  exact ⟨hnan, hsign, hinf, hmag⟩

/-- Settles O26: widening is exact, and rounding returns what the format represents. -/
theorem storageRoundTrip : Obligations.StorageRoundTrip := by
  unfold Obligations.StorageRoundTrip
  exact fun ty x hx hn => cvtOut_cvtIn hx hn

/-- Settles O24: the rounding of the whole pattern to its upper half, read off `nearestEven`. -/
theorem bf16CastBitForm : Obligations.Bf16CastBitForm := by
  unfold Obligations.Bf16CastBitForm
  intro x hn
  rw [cvtOut_bf16_toNat hn]
  unfold nearestEven
  dsimp only
  split_ifs <;> omega

/-- Settles O25: the threshold of binary16 is 65520, and half its smallest unit is `2^(-25)`. -/
theorem f16CastEnds : Obligations.F16CastEnds := by
  unfold Obligations.F16CastEnds
  intro x hn
  refine ⟨fun hge => ?_, fun hle => ?_, fun hlt => ⟨cvtOut_f16_finite hn hlt, (cvtOut_sign .f16 hn).1⟩⟩
  · rw [cvtOut_eq_roundFmt .f16 hn,
      roundFmt_overflow (fmtOf_wide .f16) _ (lsb_le_binary32 .f16) (threshold_binary16.le.trans hge)]
    cases binary32.sign x <;> decide
  · have htwice : 2 * binary32.mag x ≤ 2 ^ (binary32.lsb - binary16.lsb) :=
      (Nat.mul_le_mul_left 2 hle).trans (by decide)
    rw [cvtOut_eq_roundFmt .f16 hn, fmtOf, roundFmt_underflow _ htwice]
    cases binary32.sign x <;> decide

/-- Settles O51: the cast is one rounding, finite below the threshold. -/
theorem f16CastIsNearestEven : Obligations.F16CastIsNearestEven := by
  unfold Obligations.F16CastIsNearestEven
  intro x hn hlt
  obtain ⟨hnan, hsign⟩ := cvtOut_sign .f16 hn
  have hfin := cvtOut_f16_finite hn hlt
  exact ⟨cvtOut_fits .f16 x, hnan, hfin, hsign, cvtOut_isNearest .f16 hn hfin⟩

/-- Settles O20: the case that is no symmetry of the definition is `fadd` of two infinities. -/
theorem arithmeticCommutes : Obligations.ArithmeticCommutes := by
  unfold Obligations.ArithmeticCommutes
  exact fun x y => ⟨fmul_comm x y, fadd_comm x y⟩

/-- Settles O21: the exact sum is the other operand. -/
theorem addingZeroChangesNothing : Obligations.AddingZeroChangesNothing := by
  unfold Obligations.AddingZeroChangesNothing
  intro x z hz hx hn
  have hsum : fadd z x = x := by rw [eq_zero_of_isZero hz, fadd_zero_of_nonzero _ hn hx]
  exact ⟨(fadd_comm x z).trans hsum, hsum⟩

/-- Settles O49, clause by clause; the finite one is the rounding of the exact product. -/
theorem fmulIsCorrectlyRounded : Obligations.FmulIsCorrectlyRounded := by
  unfold Obligations.FmulIsCorrectlyRounded
  intro x y hxn hyn
  refine ⟨fun hxi hyz => ⟨?_, fmul_comm y x⟩, fun hxz hyi => ⟨?_, fmul_comm y x⟩, fun hxi hyi hxz hyz => ?_⟩
  · rw [fmul_inf hxi hyn hyz, inf_eq_ite]
  · rw [fmul_zero_finite hxz hxn hyn hyi, zero_eq_ite]
  · rw [fmul_finite hxn hyn hxi hyi hxz hyz]
    obtain ⟨hnan, hsign⟩ := roundFmt_sign binary32_proper (binary32.sign x != binary32.sign y)
      (binary32.mag x * binary32.mag y) (show binary32.lsb ≤ 298 by decide)
    refine ⟨hnan, hsign, ?_, roundFmt_isNearest .f32 _ (by decide)⟩
    rw [roundFmt_isInf_iff binary32_wide _ (by decide), threshold_binary32]

/-- Settles O50, clause by clause; the last is the rounding of the exact sum. -/
theorem faddIsCorrectlyRounded : Obligations.FaddIsCorrectlyRounded := by
  unfold Obligations.FaddIsCorrectlyRounded
  intro x y hxn hyn
  refine ⟨fun hxi h => ?_, fun hxz hyz => ?_,
    fun hxi hyi => ⟨fun hxz hsum => fadd_cancel hxn hyn hxi hyi hxz hsum, fun hsum => ?_⟩⟩
  · have hsum := fadd_inf hxi hyn h
    exact ⟨hsum, (fadd_comm y x).trans hsum⟩
  · simp only [fadd_zeros hxz hyz, zero_eq_ite, Bool.and_eq_true]
  · rw [fadd_finite hxn hyn hxi hyi hsum]
    obtain ⟨hnan, hsign⟩ := roundFmt_sign binary32_proper (decide (signedMag x + signedMag y < 0))
      (signedMag x + signedMag y).natAbs (show binary32.lsb ≤ 149 by decide)
    refine ⟨hnan, hsign, ?_, roundFmt_isNearest .f32 _ (by decide)⟩
    rw [roundFmt_isInf_iff binary32_wide _ (by decide), threshold_binary32]

/-- Settles O27: first that every result is canonical, then each operation that is invalid. -/
theorem naNIsCanonical : Obligations.NaNIsCanonical := by
  unfold Obligations.NaNIsCanonical
  refine ⟨cvtIn_canonical, fmul_canonical, fadd_canonical,
    fun x => ⟨cvtOut_canonical .f32 x, cvtOut_canonical .f16 x, cvtOut_canonical .bf16 x⟩,
    fun ty x => cvtIn_nan, fun x y h => ⟨fmul_nan h, fadd_nan h⟩, fun x y hx hy => ?_, fun x y => fadd_opposite_infs,
    fun x h => ⟨cvtOut_nan .f32 h, cvtOut_nan .f16 h, cvtOut_nan .bf16 h⟩, fun acc a s w z h => fadd_nan (.inl h)⟩
  have hinvalid := fmul_inf_zero hx hy
  exact ⟨hinvalid, (fmul_comm y x).trans hinvalid⟩

end Sys2Proof.Proofs
end

section
/-!
SUPPORT. The ways a dispatch is disturbed, and what it leaves alone when it is not: a host move at the head of the agenda
while RUNNING, the bytes an abort touches, and the frame of an execution from any state (60_exceptions.md R151, R154, R157).
-/

namespace Sys2Proof.Machine

variable {p : Params} {s s' t : State} {i : Instr} {h : HostMove} {rest : List Move} {fuel : Nat}

/-! ### A host move while RUNNING (log 13) -/

/-- A host move that goes on, any but a look, which ends the machine's step (log 8). -/
theorem runDispatch_host_next (hs : s.status = .running) (ha : s.agenda = .host h :: rest) (hlook : h ≠ .look)
    (hh : hostRunning p.ty h { s with agenda := rest } = .next s') :
    runDispatch p (fuel + 1) s = runDispatch p fuel s' := by
  rw [hs] at hh
  simp only [runDispatch, hs, ha, hh]

theorem runDispatch_host_refused {r : Refusal} (hs : s.status = .running) (ha : s.agenda = .host h :: rest)
    (hh : hostRunning p.ty h { s with agenda := rest } = .refused r) : runDispatch p (fuel + 1) s = .refused r := by
  have hlook : h ≠ .look := by rintro rfl; cases hh
  rw [hs] at hh
  simp only [runDispatch, hs, ha, hh]

/-- The fuel of a dispatch in progress covers every move of the agenda and one more. -/
theorem exec_of_running (hs : s.status = .running) :
    ∃ n, exec i s = runDispatch ⟨i.gs, i.ty⟩ (n + s.agenda.length + 1) s :=
  ⟨s.units.length * unitSteps i.gs s.cfg.depth, by rw [exec_eq, execQlk_running hs]; rfl⟩

/-- A LAUNCH while RUNNING is refused (60_exceptions.md R151 V10). -/
theorem exec_launch_busy {g : Grid} (hs : s.status = .running) (ha : s.agenda = .launch g :: rest) :
    exec i s = .refused .busy := by
  obtain ⟨n, he⟩ := exec_of_running (i := i) hs
  rw [he]
  simp only [runDispatch, hs, ha]

theorem exec_host_refused {r : Refusal} (hs : s.status = .running) (ha : s.agenda = .host h :: rest)
    (hh : hostRunning i.ty h { s with agenda := rest } = .refused r) : exec i s = .refused r := by
  obtain ⟨n, he⟩ := exec_of_running (i := i) hs
  rw [he, runDispatch_host_refused (p := ⟨i.gs, i.ty⟩) hs ha hh]

/-- A host move after which no dispatch is in progress ends the execution. -/
theorem exec_host_ends (hs : s.status = .running) (ha : s.agenda = .host h :: rest) (hlook : h ≠ .look)
    (hh : hostRunning i.ty h { s with agenda := rest } = .next s') (hs' : s'.status ≠ .running) :
    exec i s = .next s' := by
  obtain ⟨n, he⟩ := exec_of_running (i := i) hs
  rw [he, runDispatch_host_next (p := ⟨i.gs, i.ty⟩) hs ha hlook hh, runDispatch_not_running hs']

/-- A host move that leaves the dispatch in progress, up to the look after it. -/
theorem exec_host_look (hs : s.status = .running) (ha : s.agenda = .host h :: .host .look :: rest) (hlook : h ≠ .look)
    (hh : hostRunning i.ty h { s with agenda := .host .look :: rest } = .next s') (hs' : s'.status = .running)
    (ha' : s'.agenda = .host .look :: rest) : exec i s = .next { s' with agenda := rest } := by
  obtain ⟨n, he⟩ := exec_of_running (i := i) hs
  rw [he, ha, List.length_cons, ← Nat.add_assoc, runDispatch_host_next (p := ⟨i.gs, i.ty⟩) hs ha hlook hh,
    runDispatch_look_head hs' ha']

/-! ### A store while RUNNING (duties H5, H6) -/

theorem storeTouchesView_iff {ty : Ty} {b : Bind} {addr : Nat} {bytes : List Byte} :
    storeTouchesView ty b addr bytes = true ↔
      ∃ slot a, inRange (addr, bytes.length) a ∧ inRange (slotRange ty b slot) a := by
  simp only [storeTouchesView, List.any_eq_true, rangesMeet_iff]
  exact ⟨fun ⟨slot, _, ha⟩ => ⟨slot, ha⟩, fun ⟨slot, ha⟩ => ⟨slot, by cases slot <;> decide, ha⟩⟩

theorem hostRunning_store_refused {ty : Ty} {addr : Nat} {bytes : List Byte}
    (ht : storeTouchesView ty s.cfg.bind addr bytes = true) :
    hostRunning ty (.store addr bytes) s = .refused .hostDutyBreached := if_pos ht

theorem hostRunning_store_next {ty : Ty} {addr : Nat} {bytes : List Byte}
    (ht : ¬ storeTouchesView ty s.cfg.bind addr bytes = true) :
    hostRunning ty (.store addr bytes) s = .next { s with mem := s.mem.writeBytes addr bytes } := if_neg ht

/-! ### Abort -/

/-- An abort draws the elements of `C[0 .. M·N)` and no byte elsewhere (60_exceptions.md R154). -/
theorem readByte_abortDispatch_outside {ty : Ty} {a : Nat} (ha : ¬ inRange (outputRange ty s.cfg) a) :
    (abortDispatch ty s).mem.readByte a = s.mem.readByte a := by
  refine readByte_drawElems_outside ?_
  simp only [inRange, outputRange, Cfg.rows, Cfg.cols] at ha
  omega

/-! ### The frame of an execution (60_exceptions.md R157) -/

/-- What an execution in which the host makes no move leaves alone: CFG, the grid, the free-value counter, what the host
last read of C, and every byte outside the view of C. -/
structure Framed (ty : Ty) (s t : State) : Prop where
  cfg : t.cfg = s.cfg
  grid : t.grid = s.grid
  draws : t.draws = s.draws
  seenC : t.seenC = s.seenC
  outside : ∀ a, ¬ inRange (slotRange ty s.cfg.bind .c) a → t.mem.readByte a = s.mem.readByte a

theorem Framed.refl (ty : Ty) (s : State) : Framed ty s s := ⟨rfl, rfl, rfl, rfl, fun _ _ => rfl⟩

theorem Framed.trans {ty : Ty} (h1 : Framed ty s s') (h2 : Framed ty s' t) : Framed ty s t where
  cfg := h2.cfg.trans h1.cfg
  grid := h2.grid.trans h1.grid
  draws := h2.draws.trans h1.draws
  seenC := h2.seenC.trans h1.seenC
  outside a ha := (h2.outside a (by rwa [h1.cfg])).trans (h1.outside a ha)

theorem framed_completeIfRetired (ty : Ty) (s : State) : Framed ty s (completeIfRetired s) :=
  ⟨by simp, by simp, by simp, by simp, by simp⟩

/-- What a pick can do from any state at all: it finds no unit, or the unit it finds takes one step. -/
theorem tick_inversion {pick : Nat} (ht : tick p pick s = .ok s') :
    s' = completeIfRetired s ∨ ∃ j u u' m', unitStep p s.cfg s.mem u = .ok (u', m') ∧
      s' = completeIfRetired { s with units := s.units.set j u', mem := m' } := by
  unfold tick at ht
  split at ht
  · exact .inl (Except.ok.inj ht).symm
  next j _ =>
    split at ht
    · exact .inl (Except.ok.inj ht).symm
    next u _ =>
      split at ht
      · cases ht
      next u' m' hu => exact .inr ⟨j, u, u', m', hu, (Except.ok.inj ht).symm⟩

theorem tick_agenda {pick : Nat} (ht : tick p pick s = .ok s') : s'.agenda = s.agenda := by
  rcases tick_inversion ht with rfl | ⟨j, u, u', m', -, rfl⟩ <;> simp

theorem tick_framed {pick : Nat} (ht : tick p pick s = .ok s') : Framed p.ty s s' := by
  rcases tick_inversion ht with rfl | ⟨j, u, u', m', hu, rfl⟩
  · exact framed_completeIfRetired ..
  · have hstep : Framed p.ty s { s with units := s.units.set j u', mem := m' } :=
      ⟨rfl, rfl, rfl, rfl, fun a ha => unitStep_outside hu ha⟩
    exact hstep.trans (framed_completeIfRetired ..)

/-- With picks alone on the agenda a dispatch that goes on moves a work unit: the agenda's first pick, or the first live
unit when the agenda is empty (log 7). -/
theorem runDispatch_units_inversion (hs : s.status = .running) (hag : ∀ mv ∈ s.agenda, ∃ pick, mv = .unit pick)
    (hr : runDispatch p (fuel + 1) s = .next t) :
    ∃ pick rest s', (∀ mv ∈ rest, ∃ pick, mv = .unit pick) ∧ tick p pick { s with agenda := rest } = .ok s' ∧
      runDispatch p fuel s' = .next t := by
  cases ha : s.agenda with
  | nil =>
    have hself : { s with agenda := [] } = s := by rw [← ha]
    cases ht : tick p 0 s with
    | error f => simp only [runDispatch, hs, ha, ht] at hr; cases hr
    | ok s' => exact ⟨0, [], s', by simp, by rw [hself, ht], by rwa [runDispatch_empty hs ha ht] at hr⟩
  | cons mv rest =>
    rw [ha] at hag
    obtain ⟨pick, rfl⟩ := hag mv (by simp)
    cases ht : tick p pick { s with agenda := rest } with
    | error f => rw [hs] at ht; simp only [runDispatch, hs, ha, ht] at hr; cases hr
    | ok s' =>
      exact ⟨pick, rest, s', fun mv hm => hag mv (by simp [hm]), ht, by rwa [runDispatch_pick hs ha ht] at hr⟩

theorem runDispatch_framed (hag : ∀ mv ∈ s.agenda, ∃ pick, mv = .unit pick) (hr : runDispatch p fuel s = .next t) :
    Framed p.ty s t := by
  induction fuel generalizing s with
  | zero => cases hr; exact .refl ..
  | succ fuel ih =>
    by_cases hs : s.status = .running
    · obtain ⟨pick, rest, s', hrest, ht, hr'⟩ := runDispatch_units_inversion hs hag hr
      have hdrop : Framed p.ty s { s with agenda := rest } := ⟨rfl, rfl, rfl, rfl, fun _ _ => rfl⟩
      exact hdrop.trans ((tick_framed ht).trans (ih (by rwa [tick_agenda ht]) hr'))
    · rw [runDispatch_not_running hs] at hr
      cases hr
      exact .refl ..

theorem execQlk_framed (hag : ∀ mv ∈ s.agenda, ∃ pick, mv = .unit pick) (he : execQlk p s = .next t) :
    Framed p.ty s t := by
  by_cases hs : s.status = .running
  · rw [execQlk_running hs] at he
    exact runDispatch_framed hag he
  · cases hf : firstFailing p s with
    | some r => rw [execQlk_refused hs hf] at he; cases he
    | none =>
      rw [execQlk_launch hs hf] at he
      have hlaunch : Framed p.ty s (launch s) := ⟨rfl, rfl, rfl, rfl, fun _ _ => rfl⟩
      exact hlaunch.trans (runDispatch_framed (s := launch s) hag he)

end Sys2Proof.Machine
end

section
/-!
PROOFS. The statements of what disturbs a dispatch and of what it leaves alone (60_exceptions.md): the host's breaches, the
abort, and the frame of every execution.
-/

namespace Sys2Proof.Proofs

open Sys2Proof Sys2Proof.Machine

/-- Settles O38: each of the two moves ends the dispatch, and memory is the abort's. -/
theorem abortEndsDispatch : Obligations.AbortEndsDispatch := by
  unfold Obligations.AbortEndsDispatch
  refine ⟨fun i s rest hs ha => ?_, fun i s rest hs ha => ?_⟩
  · exact ⟨abortDispatch i.ty { s with agenda := rest }, exec_host_ends hs ha (by decide) rfl (by simp), rfl, rfl, rfl,
      rfl, rfl, rfl, fun a hout => readByte_abortDispatch_outside (s := { s with agenda := rest }) hout⟩
  · exact ⟨resetBlock (abortDispatch i.ty { s with agenda := rest }), exec_host_ends hs ha (by decide) rfl (by simp),
      rfl, rfl, rfl, rfl, rfl, rfl, fun a hout => readByte_abortDispatch_outside (s := { s with agenda := rest }) hout⟩

/-- Settles O46: every move of a work unit keeps the frame, and so does the launch before them. -/
theorem executionFrame : Obligations.ExecutionFrame := by
  unfold Obligations.ExecutionFrame
  intro i s t hag he
  rw [exec_eq] at he
  obtain ⟨hcfg, hgrid, hdraws, hseen, hout⟩ := execQlk_framed hag he
  exact ⟨hcfg, hgrid, hdraws, hseen, hout⟩

/-- Settles O37: LAUNCH and the writes of CFG are refused outright, a store by whether it meets a bound view. -/
theorem runningRefusesHostBreaches : Obligations.RunningRefusesHostBreaches := by
  unfold Obligations.RunningRefusesHostBreaches
  intro i s rest hs
  refine ⟨fun g ha => exec_launch_busy hs ha, fun v ha => exec_host_refused hs ha rfl,
    fun m k n ha => exec_host_refused hs ha rfl, fun slot v ha => exec_host_refused hs ha rfl,
    fun addr bytes slot a ha hin hslot => ?_, fun addr bytes ha hwf hno => ?_⟩
  · exact exec_host_refused hs ha (hostRunning_store_refused (storeTouchesView_iff.mpr ⟨slot, a, hin, hslot⟩))
  · have hstore : ¬ storeTouchesView i.ty s.cfg.bind addr bytes = true := fun ht => by
      obtain ⟨slot, a, hin, hslot⟩ := storeTouchesView_iff.mp ht
      exact hno slot a hin hslot
    exact ⟨_, exec_host_look hs ha (by simp) (hostRunning_store_next (by exact hstore)) hs rfl, rfl,
      fun j hj => readByte_writeBytes_inside hwf hj, fun a hout => readByte_writeBytes_outside hout⟩

end Sys2Proof.Proofs
end

section
/-!
PROOFS. The statement of reset (70_reset_and_hazards.md R170): the machine starts within its invariant.
-/

namespace Sys2Proof.Proofs

open Sys2Proof Sys2Proof.Machine

/-- Settles O42: reset is outside a dispatch, with no work unit, and its memory lists no byte, which is a canonical form. -/
theorem invariantAtReset : Obligations.InvariantAtReset := by
  unfold Obligations.InvariantAtReset
  have hwf : State.reset.mem.wf := ⟨.nil, List.forall_mem_nil _⟩
  have hidle : State.reset.status ≠ .running := Status.noConfusion
  exact inv_of_not_running hwf hidle rfl

end Sys2Proof.Proofs
end
